-- ==== Sys2Proof/Word.lean ====
section
/-! DEFINITION. The word types of the engine (spec 00_scope.md R5, R6): every value of the engine is an
unsigned number of a stated width. -/

namespace Sys2Proof

/-- One symbol, one byte of `SRC` or `SNK`: `SYM_BITS = 8` (R5). -/
abbrev Byte := BitVec 8

/-- One command word: `CMD_BITS = 64` (R5, R60). -/
abbrev Word := BitVec 64

/-- A position or a length in `SRC` or `SNK`: `POS_BITS = 64` (R5). -/
abbrev Pos := BitVec 64

/-- An occurrence count: `CNT_BITS = 64` (R5). -/
abbrev Count := BitVec 64

/-- A node index: "A node index is 9 bits" (R20). -/
abbrev NodeIdx := BitVec 9

end Sys2Proof
end

