-- ==== Sys2Proof/Syntax.lean ====
section
/-! DEFINITION. The 22 commands of 30_encoding.md R64, one constructor per row of spec/opcode_table.json, in
the table's order. Operands are numbers, as in the assembler syntax of R67; `WellFormed.lean` says which
numbers fit the fields of the command word. -/

namespace Sys2Proof

/-- One command (30_encoding.md R64). -/
inductive Instr where
  /-- `CTL.NOP` (R190) -/
  | ctlNop
  /-- `CTL.RESET` (R191) -/
  | ctlReset
  /-- `BW.BIT val` (R92) -/
  | bwBit (val : Nat)
  /-- `BW.BITS val, len` (R93) -/
  | bwBits (val len : Nat)
  /-- `BW.FLUSH` (R94) -/
  | bwFlush
  /-- `BR.BIT` (R98) -/
  | brBit
  /-- `BR.BITS len` (R99) -/
  | brBits (len : Nat)
  /-- `HIST.CLR` (R112) -/
  | histClr
  /-- `HIST.ACC sym` (R113) -/
  | histAcc (sym : Nat)
  /-- `HIST.SCAN` (R114) -/
  | histScan
  /-- `TREE.INIT` (R124) -/
  | treeInit
  /-- `TREE.MERGE` (R125) -/
  | treeMerge
  /-- `TREE.BUILD` (R126) -/
  | treeBuild
  /-- `CODE.WALK` (R141) -/
  | codeWalk
  /-- `HDR.WRITE` (R151) -/
  | hdrWrite
  /-- `HDR.PARSE` (R153) -/
  | hdrParse
  /-- `ENC.SYM sym` (R171) -/
  | encSym (sym : Nat)
  /-- `ENC.BODY` (R172) -/
  | encBody
  /-- `ENCODE` (R173) -/
  | encodeJob
  /-- `DEC.SYM` (R181) -/
  | decSym
  /-- `DEC.BODY` (R182) -/
  | decBody
  /-- `DECODE` (R183) -/
  | decodeJob
  deriving DecidableEq, Repr

end Sys2Proof
end

