-- ==== Sys2Proof/WellFormed.lean ====
section
/-! DEFINITION. Which commands a command word can spell: every operand fits its field (30_encoding.md R61,
R62). Values a command rejects at execution (`BW.BIT` with `val >= 2`, a `len` of 0 or above 32) are legal
encodings (R66), so they are well formed. -/

namespace Sys2Proof

/-- A 32-bit `val` field holds the operand (formats V32 and VL of R62). -/
def fitsVal (val : Nat) : Bool := decide (val < 2 ^ 32)

/-- A 6-bit `len` field holds the operand (formats L and VL of R62). -/
def fitsLen (len : Nat) : Bool := decide (len < 2 ^ 6)

/-- `val[7:0]` holds the operand with `val[31:8] = 0` (format V8 of R62). -/
def fitsSym (sym : Nat) : Bool := decide (sym < 2 ^ 8)

/-- The operands of a command fit the fields of its format. -/
def Instr.wellFormed : Instr → Bool
  | .bwBit val => fitsVal val
  | .bwBits val len => fitsVal val && fitsLen len
  | .brBits len => fitsLen len
  | .histAcc sym => fitsSym sym
  | .encSym sym => fitsSym sym
  | .ctlNop | .ctlReset | .bwFlush | .brBit | .histClr | .histScan | .treeInit | .treeMerge | .treeBuild
  | .codeWalk | .hdrWrite | .hdrParse | .encBody | .encodeJob | .decSym | .decBody | .decodeJob => true

end Sys2Proof
end

