-- ==== Sys2Proof/Decode.lean ====
section
/-! DEFINITION. The command word (30_encoding.md Part A): its fields, its five formats, the decoder, total on
all 2^64 words, and after it the encoder. -/

namespace Sys2Proof

/-! ### The fields of a command word (R61) -/

/-- `op`, bits 63:56. -/
def opField (w : Word) : BitVec 8 := w.extractLsb' 56 8

/-- `rsv`, bits 55:38. -/
def rsvField (w : Word) : BitVec 18 := w.extractLsb' 38 18

/-- `len`, bits 37:32. -/
def lenField (w : Word) : BitVec 6 := w.extractLsb' 32 6

/-- `val`, bits 31:0. -/
def valField (w : Word) : BitVec 32 := w.extractLsb' 0 32

/-! ### The decoder -/

/-- Why a word spells no command, the five cases of R65. The engine reports all of them as one
`IllegalCommand(0)`. -/
inductive Illegal where
  /-- an `op` that R64 does not assign -/
  | unassignedOp
  /-- a nonzero `rsv` -/
  | reservedNonzero
  /-- a nonzero `len` in a command other than `BW.BITS` and `BR.BITS` -/
  | lenNonzero
  /-- a nonzero `val` in a Z or L command -/
  | valNonzero
  /-- a nonzero `val[31:8]` in a V8 command -/
  | valHighNonzero
  deriving DecidableEq, Repr

/-- Format Z: no operand (R62). -/
def formatZ (w : Word) (i : Instr) : Except Illegal Instr :=
  if lenField w ≠ 0 then .error .lenNonzero
  else if valField w ≠ 0 then .error .valNonzero
  else .ok i

/-- Format V32: `val[31:0]` (R62). -/
def formatV32 (w : Word) (mk : Nat → Instr) : Except Illegal Instr :=
  if lenField w ≠ 0 then .error .lenNonzero
  else .ok (mk (valField w).toNat)

/-- Format V8: `val[7:0]` with `val[31:8] = 0` (R62). -/
def formatV8 (w : Word) (mk : Nat → Instr) : Except Illegal Instr :=
  if lenField w ≠ 0 then .error .lenNonzero
  else if (valField w).toNat < 2 ^ 8 then .ok (mk (valField w).toNat)
  else .error .valHighNonzero

/-- Format L: `len` (R62). -/
def formatL (w : Word) (mk : Nat → Instr) : Except Illegal Instr :=
  if valField w ≠ 0 then .error .valNonzero
  else .ok (mk (lenField w).toNat)

/-- Format VL: `val[31:0]` and `len` (R62). -/
def formatVL (w : Word) (mk : Nat → Nat → Instr) : Except Illegal Instr :=
  .ok (mk (valField w).toNat (lenField w).toNat)

/-- The command a word spells by its `op` (the opcode map of R64), once `rsv` is known to be 0. -/
def decodeOp (w : Word) : Except Illegal Instr :=
  match (opField w).toNat with
  | 0x00 => formatZ w .ctlNop
  | 0x01 => formatZ w .ctlReset
  | 0x10 => formatV32 w .bwBit
  | 0x11 => formatVL w .bwBits
  | 0x12 => formatZ w .bwFlush
  | 0x20 => formatZ w .brBit
  | 0x21 => formatL w .brBits
  | 0x30 => formatZ w .histClr
  | 0x31 => formatV8 w .histAcc
  | 0x32 => formatZ w .histScan
  | 0x40 => formatZ w .treeInit
  | 0x41 => formatZ w .treeMerge
  | 0x42 => formatZ w .treeBuild
  | 0x50 => formatZ w .codeWalk
  | 0x60 => formatZ w .hdrWrite
  | 0x61 => formatZ w .hdrParse
  | 0x70 => formatV8 w .encSym
  | 0x71 => formatZ w .encBody
  | 0x72 => formatZ w .encodeJob
  | 0x80 => formatZ w .decSym
  | 0x81 => formatZ w .decBody
  | 0x82 => formatZ w .decodeJob
  | _ => .error .unassignedOp

/-- The command a word spells, or why it spells none (R62, R65). -/
def decode (w : Word) : Except Illegal Instr :=
  if rsvField w ≠ 0 then .error .reservedNonzero else decodeOp w

/-- The instruction the decoder reads from an instruction of spec/opcode_table.json whose `nbits` bits are
`w`, every bit above them 0. All rows have 64 bits, one command word (R60). -/
def decodeTableWord (nbits w : Nat) : Option Instr :=
  (decode (BitVec.ofNat 64 (w % 2 ^ nbits))).toOption

/-! ### The encoder -/

/-- `cmd = op || rsv || len || val` with `rsv = 0` (R61). -/
def commandWord (op len val : Nat) : Word :=
  BitVec.ofNat 8 op ++ (0#18 ++ (BitVec.ofNat 6 len ++ BitVec.ofNat 32 val))

/-- The `op` byte of a command (R64). -/
def Instr.opcode : Instr → Nat
  | .ctlNop => 0x00
  | .ctlReset => 0x01
  | .bwBit _ => 0x10
  | .bwBits _ _ => 0x11
  | .bwFlush => 0x12
  | .brBit => 0x20
  | .brBits _ => 0x21
  | .histClr => 0x30
  | .histAcc _ => 0x31
  | .histScan => 0x32
  | .treeInit => 0x40
  | .treeMerge => 0x41
  | .treeBuild => 0x42
  | .codeWalk => 0x50
  | .hdrWrite => 0x60
  | .hdrParse => 0x61
  | .encSym _ => 0x70
  | .encBody => 0x71
  | .encodeJob => 0x72
  | .decSym => 0x80
  | .decBody => 0x81
  | .decodeJob => 0x82

/-- The `len` operand of a command, 0 where its format has none (R62). -/
def Instr.lenOperand : Instr → Nat
  | .bwBits _ len => len
  | .brBits len => len
  | .ctlNop | .ctlReset | .bwBit _ | .bwFlush | .brBit | .histClr | .histAcc _ | .histScan | .treeInit
  | .treeMerge | .treeBuild | .codeWalk | .hdrWrite | .hdrParse | .encSym _ | .encBody | .encodeJob
  | .decSym | .decBody | .decodeJob => 0

/-- The `val` operand of a command, 0 where its format has none (R62). -/
def Instr.valOperand : Instr → Nat
  | .bwBit val => val
  | .bwBits val _ => val
  | .histAcc sym => sym
  | .encSym sym => sym
  | .ctlNop | .ctlReset | .bwFlush | .brBit | .brBits _ | .histClr | .histScan | .treeInit
  | .treeMerge | .treeBuild | .codeWalk | .hdrWrite | .hdrParse | .encBody | .encodeJob
  | .decSym | .decBody | .decodeJob => 0

/-- The command word of a well-formed command: `op << 56 | len << 32 | val` (R67). -/
def encode (i : Instr) : Word := commandWord i.opcode i.lenOperand i.valOperand

/-! ### The opcode table as data -/

/-- The five formats of R62. -/
inductive Format where
  | z | v32 | v8 | l | vl
  deriving DecidableEq, Repr

/-- The mask of a format: which bits of the word are fixed (R62). -/
def Format.mask : Format → Word
  | .z => 0xFFFFFFFFFFFFFFFF#64
  | .v32 => 0xFFFFFFFF00000000#64
  | .v8 => 0xFFFFFFFFFFFFFF00#64
  | .l => 0xFFFFFFC0FFFFFFFF#64
  | .vl => 0xFFFFFFC000000000#64

/-- One row of the opcode map. -/
structure Row where
  mnemonic : String
  op : Nat
  fmt : Format
  deriving DecidableEq, Repr

/-- The row's `match`, `op << 56` (R62). -/
def Row.pattern (r : Row) : Word := BitVec.ofNat 64 (r.op <<< 56)

/-- A word spells the command of a row exactly when `(w AND mask) = match` (R62). -/
def Row.spells (r : Row) (w : Word) : Bool := (w &&& r.fmt.mask) == r.pattern

/-- The opcode map of R64, first half. -/
def rowsLow : List Row :=
  [⟨"CTL.NOP", 0x00, .z⟩, ⟨"CTL.RESET", 0x01, .z⟩, ⟨"BW.BIT", 0x10, .v32⟩, ⟨"BW.BITS", 0x11, .vl⟩,
   ⟨"BW.FLUSH", 0x12, .z⟩, ⟨"BR.BIT", 0x20, .z⟩, ⟨"BR.BITS", 0x21, .l⟩, ⟨"HIST.CLR", 0x30, .z⟩,
   ⟨"HIST.ACC", 0x31, .v8⟩, ⟨"HIST.SCAN", 0x32, .z⟩, ⟨"TREE.INIT", 0x40, .z⟩]

/-- The opcode map of R64, second half. -/
def rowsHigh : List Row :=
  [⟨"TREE.MERGE", 0x41, .z⟩, ⟨"TREE.BUILD", 0x42, .z⟩, ⟨"CODE.WALK", 0x50, .z⟩, ⟨"HDR.WRITE", 0x60, .z⟩,
   ⟨"HDR.PARSE", 0x61, .z⟩, ⟨"ENC.SYM", 0x70, .v8⟩, ⟨"ENC.BODY", 0x71, .z⟩, ⟨"ENCODE", 0x72, .z⟩,
   ⟨"DEC.SYM", 0x80, .z⟩, ⟨"DEC.BODY", 0x81, .z⟩, ⟨"DECODE", 0x82, .z⟩]

/-- The opcode map of R64, 22 rows. -/
def opcodeRows : List Row := rowsLow ++ rowsHigh

end Sys2Proof
end

