-- ==== Sys2Proof/Config.lean ====
section
/-! DEFINITION. What is fixed for one engine: the constants of 00_scope.md R5, the two open capacities
(`SRC_CAP`, `SNK_CAP`, 92_eei_decisions.md D43), and the values the spec leaves open as uninterpreted
constants. The third open parameter, `HOST_MAP`, is read by no rule and has no counterpart here. -/

namespace Sys2Proof

/-- The open capacities of 00_scope.md R5. They are an argument of the model (93_implementation_defined.md
S9): each state carries one `Config` and no step changes it, so a statement about every state covers every
choice of the capacities. -/
structure Config where
  /-- `SRC_CAP`, the most bytes the source buffer holds. -/
  srcCap : Pos
  /-- `SNK_CAP`, the most bytes the sink buffer holds; `none` is "unbounded". -/
  snkCap : Option Pos
  deriving DecidableEq, Repr, Inhabited

/-- The defaults of 00_scope.md R5: `SRC_CAP = 2^64 - 1`, `SNK_CAP` unbounded. -/
def Config.standard : Config := { srcCap := 0xFFFFFFFFFFFFFFFF#64, snkCap := none }

/-- The byte at index `i` of `SRC` when nothing has written it: the contents of `SRC` after hardware reset
are unspecified (R29, R230, 93_implementation_defined.md S2). A free value: it has no body. Log entry 2. -/
opaque Config.unwrittenSrc : Nat → Byte

/-- `MAGIC` as one 56-bit field, "HUFFMAN" in ASCII, first byte most significant (R71). -/
def Config.magic : Nat := 0x485546464D414E

/-- `MAXSIZE`, the largest input in bytes (R5). -/
def Config.maxSize : Nat := 2 ^ 32 - 1

/-- `MAXLEN`, the longest code (R5). -/
def Config.maxLen : Nat := 63

/-- `WB_MAX`, the largest `length` of `writeBits` (R5). -/
def Config.wbMax : Nat := 32

/-- `MINLEN`, the shortest code (R5). -/
def Config.minLen : Nat := 1

/-- `NODE_MAX`, the most tree nodes (R5, R129). -/
def Config.nodeMax : Nat := 511

end Sys2Proof
end

