-- ==== Sys2Proof/Machine/State.lean ====
section
/-! DEFINITION. The architectural state of 10_state.md R10, held as plain data, with its reset values (R29);
the reasons a step can stop; the causes of an architectural fault (60_exceptions.md R201, R202). -/

namespace Sys2Proof.Machine

open Sys2Proof

/-! ### Pieces of state -/

/-- A sparse byte memory: (address, byte) pairs, addresses strictly rising. An unlisted address holds no byte
the spec fixes (`SRC` after reset is unspecified, R29), so no listed byte can equal it and a write only ever
adds or replaces. -/
abbrev Memory := List Host.Cell

/-- The canonical form of a memory. -/
abbrev Memory.wf (m : Memory) : Prop := m.Pairwise (fun x y => x.1 < y.1)

/-- One tree node (R20): a Leaf has a count and a symbol, an Internal node a count and two children. The
fields R20 fixes at 0 are not stored; the views of `Machine/Operands.lean` report them. -/
inductive Node where
  | leaf (cnt : Count) (sym : Byte)
  | internal (cnt : Count) (left right : NodeIdx)
  deriving DecidableEq, Repr, Inhabited

/-- One valid entry of the code table (R23). An entry with `CT_VALID = 0` has code and length 0 and is held
as `none`. -/
structure CodeEntry where
  /-- `CT_CODE[s]` -/
  code : BitVec 63
  /-- `CT_LEN[s]` -/
  len : BitVec 6
  deriving DecidableEq, Repr, Inhabited

/-- One entry of the decode table (R24). -/
structure DecEntry where
  /-- `DT_SYM[k]` -/
  sym : Byte
  /-- `DT_LEN[k]` -/
  len : BitVec 6
  /-- `DT_CODE[k]` -/
  code : BitVec 63
  deriving DecidableEq, Repr, Inhabited

/-- The code table, indexed by symbol (R23). -/
abbrev CodeTable := Vector (Option CodeEntry) 256

/-- The histogram counters, indexed by symbol (R19). -/
abbrev Histogram := Vector Count 256

/-- The engine-owned elements that `Init()` resets (R192) and that fault entry leaves unspecified (R30). -/
structure Engine where
  /-- `SRC_POS` (R12) -/
  srcPos : Pos
  /-- `BR_BYTE` (R13) -/
  brByte : Byte
  /-- `BR_CNT`, 0 to 8 (R13) -/
  brCnt : BitVec 4
  /-- `BW_ACC` (R14) -/
  bwAcc : Byte
  /-- `BW_CNT`, 0 to 7 (R14) -/
  bwCnt : BitVec 3
  /-- `RES` (R16) -/
  res : Word
  /-- `HIST[0..255]` (R19) -/
  hist : Histogram
  /-- `HIST_TOTAL` (R19) -/
  histTotal : Count
  /-- `NODE[0..TREE_N-1]`, a list of length `TREE_N` (R20) -/
  node : List Node
  /-- `PQ`, a set of node indices held as a strictly rising list (R21) -/
  pq : List NodeIdx
  /-- `ROOT` (R22) -/
  root : NodeIdx
  /-- `ROOT_VALID` (R22) -/
  rootValid : Bool
  /-- `CT_VALID`, `CT_CODE`, `CT_LEN` (R23) -/
  ct : CodeTable
  /-- `DT_SYM`, `DT_LEN`, `DT_CODE`, a list of length `DT_CNT` (R24) -/
  dt : List DecEntry
  /-- `DEC_REM` (R25) -/
  decRem : BitVec 32
  deriving DecidableEq, Repr, Inhabited

/-- The reset column of R29 for these elements. -/
def Engine.reset : Engine :=
  { srcPos := 0, brByte := 0, brCnt := 0, bwAcc := 0, bwCnt := 0, res := 0,
    hist := Vector.replicate 256 0, histTotal := 0, node := [], pq := [], root := 0, rootValid := false,
    ct := Vector.replicate 256 none, dt := [], decRem := 0 }

/-- What the host may do between commands (00_scope.md R8, 20_memory.md R48). Reading state changes nothing
and needs no move. -/
inductive HostMove where
  /-- present a 64-bit command word -/
  | issue (w : Word)
  /-- write one byte of `SRC`, at an index below `SRC_CAP` -/
  | writeSrc (i : Pos) (b : Byte)
  /-- write `SRC_LEN`, a value up to `SRC_CAP` -/
  | setSrcLen (n : Pos)
  deriving DecidableEq, Repr

/-- The whole state: the elements of R10, then three fields of the model's own (`cfg`, `host`, `faults`). -/
structure State extends Engine where
  /-- `SRC` (R11): the bytes the host has written -/
  src : Memory
  /-- `SRC_LEN` (R11) -/
  srcLen : Pos
  /-- `SNK[0..SNK_LEN-1]`, a list of length `SNK_LEN` (R15, R42) -/
  snk : List Byte
  /-- `SNK_SYNC` (R15) -/
  snkSync : Pos
  /-- `STATUS` (R17), held whole because the host reads it whole -/
  status : BitVec 16
  /-- `FCMD` (R18) -/
  fcmd : Word
  /-- The model's own: the capacities this engine was built with (R5). No step changes it. -/
  cfg : Config
  /-- The model's own: the moves the host is still to make, next first (R8, R27). -/
  host : List HostMove
  /-- The model's own: how many faults were entered, so that each entry gets its own free values. -/
  faults : Nat
  deriving DecidableEq, Repr, Inhabited

end Sys2Proof.Machine

namespace Sys2Proof

/-- The elements that fault entry leaves unspecified (R30, R203): a free value, without a body. It is applied
to the state the faulting command started from (with its counter `faults`) and to the command word, so that
no two entries need agree. Log entry 1. -/
opaque Config.afterFault : Machine.State → Word → Machine.Engine

/-- What reading a node outside the arena gives. "No rule reads beyond it" (93_implementation_defined.md S7):
only a state no run reaches can get here, and the value is free. Log entry 7. -/
opaque Config.deadNode : NodeIdx → Machine.Node

end Sys2Proof

namespace Sys2Proof.Machine

open Sys2Proof

/-- The machine right after hardware reset (R29, R230): every engine-owned element 0 or empty, `STATUS` and
`FCMD` 0, the sink empty, `SRC_LEN = 0`, nothing of `SRC` written, and no host move pending. -/
def State.reset : State :=
  { toEngine := Engine.reset, src := [], srcLen := 0, snk := [], snkSync := 0, status := 0, fcmd := 0,
    cfg := Config.standard, host := [], faults := 0 }

/-! ### The reasons a command can end early -/

/-- The field being read when the source runs out: the tags of `ReadBit` (R96), sub-causes of TruncatedStream
(R202). -/
inductive Field where
  | raw | magic | count | entrySym | entryLen | entryCode | size | body
  deriving DecidableEq, Repr

/-- `raise K(sub)`: the pairs of kind and sub-cause of R202, one constructor each. They are the engine's own
faults: taking one is a next state (`Machine/Ops.lean`, fault entry), not a stop of the model. -/
inductive Trap where
  /-- IOFailure(`SINK_FULL`) -/
  | sinkFull
  /-- FormatMismatch(0) -/
  | formatMismatch
  /-- TruncatedStream(tag) -/
  | truncated (tag : Field)
  /-- UnrepresentableInput(`EMPTY`) -/
  | empty
  /-- UnrepresentableInput(`TOO_MANY_SYMBOLS`), reserved: no rule raises it -/
  | tooManySymbols
  /-- UnrepresentableInput(`CODE_TOO_LONG`) -/
  | codeTooLong
  /-- UnrepresentableInput(`SIZE`) -/
  | size
  /-- UnrepresentableInput(`COUNT_OVERFLOW`) -/
  | countOverflow
  /-- CorruptStream(`NO_MATCH`) -/
  | noMatch
  /-- CorruptStream(`BAD_LEN`) -/
  | badLen
  /-- CorruptStream(`BAD_TABLE`) -/
  | badTable
  /-- AssertionFailure(`BIT_VALUE`) -/
  | bitValue
  /-- AssertionFailure(`BITS_LEN`) -/
  | bitsLen
  /-- AssertionFailure(`NO_CODE`) -/
  | noCode
  /-- AssertionFailure(`PQ_UNDERFLOW`) -/
  | pqUnderflow
  /-- AssertionFailure(`NO_TREE`) -/
  | noTree
  /-- AssertionFailure(`DEC_UNDERFLOW`) -/
  | decUnderflow
  /-- IllegalCommand(0) -/
  | illegalCommand
  deriving DecidableEq, Repr

/-- Why the model stops with a fault. The engine's own faults are not here: they are next states. -/
inductive Fault where
  /-- Raised by `CODE.WALK` when the arena is cyclic below `ROOT`, where the recursion of R140 has no end.
  R20 excludes such an arena, so no state reached from reset gets here. Safe. -/
  | walkDoesNotEnd
  deriving DecidableEq, Repr

/-- Why the model refuses a step. -/
inductive Refusal where
  /-- Raised by an arm of `exec` whose instruction has no meaning yet; no arm does so now. Safe. -/
  | notModelled (mnemonic : String)
  /-- Raised by a host write of `SRC` at an index not below `SRC_CAP`: no such move exists (R48, R233). Safe. -/
  | hostIndexBeyondSrcCap
  /-- Raised by a host write of `SRC_LEN` above `SRC_CAP`: no such move exists (R233). Safe. -/
  | hostLenBeyondSrcCap
  deriving DecidableEq, Repr

/-- How a command's pseudocode can end early: by the engine's own fault, or by a stop of the model. -/
inductive Stop where
  | trap (t : Trap)
  | stuck (f : Fault)
  deriving DecidableEq, Repr

/-- A piece of a command's pseudocode: it answers a value, or ends the command. -/
abbrev Exec (α : Type) := Except Stop α

/-- The three outcomes of a step of this machine. -/
abbrev Outcome := Host.Outcome State Fault Refusal

end Sys2Proof.Machine
end

