-- ==== Sys2Proof/Machine/Flags.lean ====
section
/-! DEFINITION. The `STATUS` register (10_state.md R17) and the cause and sub-cause numbers (60_exceptions.md
R201, R202). -/

namespace Sys2Proof.Machine

open Sys2Proof

/-! ### The fields of `STATUS` (R17) -/

/-- `DONE`, bit 0. -/
def State.done (s : State) : Bool := s.status.getLsbD 0

/-- `ERR`, bit 1: the engine is faulted. -/
def State.err (s : State) : Bool := s.status.getLsbD 1

/-- `CAUSE`, bits 6:4. -/
def State.cause (s : State) : BitVec 3 := s.status.extractLsb' 4 3

/-- `SUB`, bits 11:8. -/
def State.sub (s : State) : BitVec 4 := s.status.extractLsb' 8 4

/-- The bits of `STATUS` that R17 assigns; the reserved bits 3:2, 7 and 15:12 read as 0. -/
def statusFieldMask : BitVec 16 := 0x0F73#16

/-- `STATUS.DONE <- 0`. -/
def State.clearDone (s : State) : State := { s with status := s.status &&& 0xFFFE#16 }

/-- `STATUS.DONE <- 1`. -/
def State.setDone (s : State) : State := { s with status := s.status ||| 0x0001#16 }

/-! ### Cause and sub-cause numbers -/

/-- The sub-cause of TruncatedStream for the field being read (R202). -/
def Field.sub : Field → BitVec 4
  | .raw => 0
  | .magic => 1
  | .count => 2
  | .entrySym => 3
  | .entryLen => 4
  | .entryCode => 5
  | .size => 6
  | .body => 7

/-- The code of a fault's kind (R201). -/
def Trap.cause : Trap → BitVec 3
  | .sinkFull => 1
  | .formatMismatch => 2
  | .truncated _ => 3
  | .empty | .tooManySymbols | .codeTooLong | .size | .countOverflow => 4
  | .noMatch | .badLen | .badTable => 5
  | .bitValue | .bitsLen | .noCode | .pqUnderflow | .noTree | .decUnderflow => 6
  | .illegalCommand => 7

/-- The sub-cause of a fault (R202). -/
def Trap.sub : Trap → BitVec 4
  | .sinkFull => 1
  | .formatMismatch => 0
  | .truncated tag => tag.sub
  | .empty => 1
  | .tooManySymbols => 2
  | .codeTooLong => 3
  | .size => 4
  | .countOverflow => 5
  | .noMatch => 1
  | .badLen => 2
  | .badTable => 3
  | .bitValue => 1
  | .bitsLen => 2
  | .noCode => 3
  | .pqUnderflow => 4
  | .noTree => 5
  | .decUnderflow => 6
  | .illegalCommand => 0

/-- `STATUS` after a fault: `0x0002 | (code << 4) | (sub << 8)` (R203). -/
def Trap.status (t : Trap) : BitVec 16 :=
  0x0002#16 ||| (t.cause.setWidth 16 <<< 4) ||| (t.sub.setWidth 16 <<< 8)

end Sys2Proof.Machine
end

