-- ==== Sys2Proof/Machine/Operands.lean ====
section
/-! DEFINITION. The operands of a command (30_encoding.md R63) with the tests its own rule makes of them, and
the views of state that hold what the state stores once: the lengths of the lists (`SNK_LEN`, `TREE_N`,
`DT_CNT`), the fields of a node, the three code tables. -/

namespace Sys2Proof.Machine

open Sys2Proof

/-- `raise K(sub)` inside a command's pseudocode: it ends the command (R7, R200). -/
abbrev raise {α : Type} (t : Trap) : Exec α := .error (.trap t)

/-! ### Operand forms -/

/-- The operand of `BW.BIT`: `val` whole, accepted when 0 or 1 (R63, R92). -/
def bitOperand (val : Nat) : Exec Bool := if val ≤ 1 then .ok (val == 1) else raise .bitValue

/-- The operand `len` of `BW.BITS` and `BR.BITS`, accepted from 1 to 32 (R63, R93, R99). -/
def lenOperand (len : Nat) : Exec Nat :=
  if 1 ≤ len ∧ len ≤ Config.wbMax then .ok len else raise .bitsLen

/-- The operand of `HIST.ACC` and `ENC.SYM`: `val[7:0]`, an unsigned byte (R63). -/
def symOperand (sym : Nat) : Byte := BitVec.ofNat 8 sym

/-! ### Lengths that are registers -/

/-- `SNK_LEN` (R15). -/
def State.snkLen (s : State) : Pos := BitVec.ofNat 64 s.snk.length

/-- `TREE_N` (R20). -/
def State.treeN (s : State) : BitVec 10 := BitVec.ofNat 10 s.node.length

/-- `DT_CNT` (R24). -/
def State.dtCnt (s : State) : BitVec 9 := BitVec.ofNat 9 s.dt.length

/-! ### Tables indexed by a symbol -/

/-- `T[s]` for a table of 256 entries (R7). -/
def tableGet {α : Type} (t : Vector α 256) (s : Byte) : α := t[s.toNat]'s.isLt

/-- `T[s] <- v` for a table of 256 entries (R7). -/
def tableSet {α : Type} (t : Vector α 256) (s : Byte) (v : α) : Vector α 256 := t.set s.toNat v s.isLt

/-- The symbols `0, 1, ..., 255`, the order of every loop "for s in 0..255". -/
def symbols : List Byte := (List.range 256).map (BitVec.ofNat 8)

/-- `CT_VALID[s]` (R23). -/
def State.ctValid (s : State) (sym : Byte) : Bool := (tableGet s.ct sym).isSome

/-- `CT_CODE[s]` (R23), 0 where there is no entry. -/
def State.ctCode (s : State) (sym : Byte) : BitVec 63 := ((tableGet s.ct sym).map (·.code)).getD 0

/-- `CT_LEN[s]` (R23), 0 where there is no entry. -/
def State.ctLen (s : State) (sym : Byte) : BitVec 6 := ((tableGet s.ct sym).map (·.len)).getD 0

/-- `CT_CNT`, the number of valid entries (R23). -/
def ctCount (ct : CodeTable) : Nat := symbols.countP (fun sym => (tableGet ct sym).isSome)

/-! ### The fields of a node (R20) -/

/-- `KIND`: 0 for a Leaf, 1 for an Internal node. -/
def Node.kind : Node → BitVec 1
  | .leaf _ _ => 0
  | .internal _ _ _ => 1

/-- `CNT`. -/
def Node.cnt : Node → Count
  | .leaf c _ => c
  | .internal c _ _ => c

/-- `SYM`, 0 in an Internal node. -/
def Node.sym : Node → Byte
  | .leaf _ y => y
  | .internal _ _ _ => 0

/-- `LEFT`, 0 in a Leaf. -/
def Node.left : Node → NodeIdx
  | .leaf _ _ => 0
  | .internal _ l _ => l

/-- `RIGHT`, 0 in a Leaf. -/
def Node.right : Node → NodeIdx
  | .leaf _ _ => 0
  | .internal _ _ r => r

/-- `NODE[i]`; a free value outside the arena, where no rule reads. -/
def nodeAt (nodes : List Node) (i : NodeIdx) : Node := (nodes[i.toNat]?).getD (Config.deadNode i)

end Sys2Proof.Machine
end

