-- ==== Sys2Proof/Machine/Ops.lean ====
section
/-! DEFINITION. The operations shared by the commands: the two memories, the bit writer and the bit reader,
the histogram's and the queue's primitives, `Init()`, fault entry with the return from it, and the dispatch
rule every command passes through. -/

namespace Sys2Proof.Machine

open Sys2Proof

/-! ### Memory -/

/-- The byte listed at an address, if there is one. -/
def Memory.read : Memory → Nat → Option Byte
  | [], _ => none
  | (a, b) :: m, i => if a = i then some b else Memory.read m i

/-- A byte written at an address, the list kept strictly rising. -/
def Memory.write : Memory → Nat → Byte → Memory
  | [], i, b => [(i, b)]
  | (a, c) :: m, i, b =>
    if i < a then (i, b) :: (a, c) :: m
    else if i = a then (i, b) :: m
    else (a, c) :: Memory.write m i b

/-- `SrcRead(i)` (R41). A byte the host has not written is a free value (R29). -/
def State.srcRead (s : State) (i : Nat) : Byte := (s.src.read i).getD (Config.unwrittenSrc i)

/-- `SNK[i]`, defined for `i < SNK_LEN` (R15). -/
def State.snkRead (s : State) (i : Nat) : Option Byte := s.snk[i]?

/-- `SNK_LEN >= SNK_CAP`, never so with an unbounded sink (R42). -/
def State.sinkFull (s : State) : Bool :=
  match s.cfg.snkCap with
  | none => false
  | some cap => decide (cap.toNat ≤ s.snk.length)

/-- `SnkPush(b)` (R42). -/
def snkPush (b : Byte) (s : State) : Exec State :=
  if s.sinkFull then raise .sinkFull else .ok { s with snk := s.snk ++ [b] }

/-- "for i in 0..SRC_LEN-1: f(SrcRead(i))", from index `i` with `n` bytes to go. It uses its own index (R12). -/
def overSource (f : Byte → State → Exec State) : (n i : Nat) → State → Exec State
  | 0, _, s => .ok s
  | n + 1, i, s => f (s.srcRead i) s >>= overSource f n (i + 1)

/-! ### The bit writer -/

/-- `WriteBit(b)` (R90). -/
def writeBit (b : Bool) (s : State) : Exec State :=
  let acc : Byte := (s.bwAcc <<< 1) ||| (BitVec.ofBool b).setWidth 8
  if s.bwCnt = 7 then do
    let s ← snkPush acc s
    .ok { s with bwAcc := 0, bwCnt := 0 }
  else .ok { s with bwAcc := acc, bwCnt := s.bwCnt + 1 }

/-- `PutBits(v, n)` (R91): bits `n-1, n-2, ..., 0` of `v`. -/
def putBits (v : Nat) : (n : Nat) → State → Exec State
  | 0, s => .ok s
  | n + 1, s => writeBit (v.testBit n) s >>= putBits v n

/-- `Flush()` (R95). -/
def flush (s : State) : Exec State :=
  if s.bwCnt = 0 then .ok { s with snkSync := s.snkLen }
  else do
    let s ← snkPush (s.bwAcc <<< (8 - s.bwCnt.toNat)) s
    .ok { s with bwAcc := 0, bwCnt := 0, snkSync := s.snkLen }

/-! ### The bit reader -/

/-- The refill of `ReadBit(tag)`: a new byte when the internal one is exhausted (R96). -/
def refill (tag : Field) (s : State) : Exec State :=
  if s.brCnt = 0 then
    if s.srcLen ≤ s.srcPos then raise (.truncated tag)
    else .ok { s with brByte := s.srcRead s.srcPos.toNat, srcPos := s.srcPos + 1, brCnt := 8 }
  else .ok s

/-- `ReadBit(tag)` (R96). -/
def readBit (tag : Field) (s : State) : Exec (Bool × State) := do
  let s ← refill tag s
  .ok (s.brByte.getLsbD (s.brCnt - 1).toNat, { s with brCnt := s.brCnt - 1 })

/-- The loop of `GetBits`, with the bits read so far in `v`. -/
def getBitsFrom (tag : Field) : (n v : Nat) → State → Exec (Nat × State)
  | 0, v, s => .ok (v, s)
  | n + 1, v, s => do
    let (b, s) ← readBit tag s
    getBitsFrom tag n (2 * v + b.toNat) s

/-- `GetBits(n, tag)` (R97). -/
def getBits (n : Nat) (tag : Field) (s : State) : Exec (Nat × State) := getBitsFrom tag n 0 s

/-! ### The histogram -/

/-- `HistClear()` (R110). -/
def histClear (s : State) : State := { s with hist := Vector.replicate 256 0, histTotal := 0 }

/-- `HistAcc(s)` (R111). -/
def histAcc (sym : Byte) (s : State) : Exec State :=
  if tableGet s.hist sym = BitVec.allOnes 64 ∨ s.histTotal = BitVec.allOnes 64 then raise .countOverflow
  else .ok { s with
    hist := tableSet s.hist sym (tableGet s.hist sym + 1)
    histTotal := s.histTotal + 1 }

/-! ### The priority queue -/

/-- `Key(i) < Key(j)`: the counts first, then the indices (R120). -/
def keyLt (nodes : List Node) (i j : NodeIdx) : Bool :=
  decide ((nodeAt nodes i).cnt < (nodeAt nodes j).cnt) ||
    ((nodeAt nodes i).cnt == (nodeAt nodes j).cnt && decide (i < j))

/-- `PqInsert(i)` (R121), the list kept strictly rising. -/
def pqInsert (i : NodeIdx) : List NodeIdx → List NodeIdx
  | [] => [i]
  | j :: q => if i < j then i :: j :: q else if i = j then j :: q else j :: pqInsert i q

/-- The member of a nonempty working set with the least `Key`. -/
def pqLeast (nodes : List Node) (i : NodeIdx) : List NodeIdx → NodeIdx
  | [] => i
  | j :: q => pqLeast nodes (if keyLt nodes j i then j else i) q

/-- `PqExtractMin()` (R122): the least member and the rest, or nothing when the working set is empty. -/
def pqExtractMin (nodes : List Node) : List NodeIdx → Option (NodeIdx × List NodeIdx)
  | [] => none
  | i :: q => some (pqLeast nodes i q, (i :: q).erase (pqLeast nodes i q))

/-! ### Initialisation, fault entry and the way back -/

/-- The tree is discarded: `TREE_N <- 0; PQ <- empty; ROOT <- 0; ROOT_VALID <- 0` (R124, R145, R192). -/
def discardTree (s : State) : State := { s with node := [], pq := [], root := 0, rootValid := false }

/-- `Init()` (R192): every engine-owned element except `STATUS` and `FCMD` at its reset value. -/
def State.init (s : State) : State := { s with toEngine := Engine.reset, snk := [], snkSync := 0 }

/-- Fault entry, `raise K(sub)` as seen from outside the command (R203), from the state `s` the command
started in and with the command word `w`: `STATUS` and `FCMD` record the fault, the sink is emptied, `SRC`
and `SRC_LEN` stay, and every other engine-owned element is a free value (R30). -/
def State.enterFault (t : Trap) (w : Word) (s : State) : State :=
  { s with
    toEngine := Config.afterFault s w
    snk := [], snkSync := 0
    status := t.status
    fcmd := w
    faults := s.faults + 1 }

/-- The way back from the faulted state, the effect of `CTL.RESET` (R191, R207). -/
def State.leaveFault (s : State) : State := { s.init with status := 0, fcmd := 0 }

/-- How a command ends: at the end of its pseudocode, in fault entry, or in a stop of the model (R200). -/
def conclude (w : Word) (s : State) : Exec State → Outcome
  | .ok t => .next t
  | .error (.trap t) => .next (s.enterFault t w)
  | .error (.stuck f) => .fault f

/-- The dispatch rule for a word that spells a command other than `CTL.NOP` and `CTL.RESET` (R193): ignored
while faulted; otherwise `DONE` is cleared and the command's own rule runs, fault entry storing the word. -/
def dispatch (i : Instr) (rule : State → Exec State) (s : State) : Outcome :=
  if s.err then .next s else conclude (encode i) s (rule s.clearDone)

end Sys2Proof.Machine
end

