-- ==== Sys2Proof/Machine/BitStream.lean ====
section
/-! DEFINITION. The bit-stream commands (40_bitstream.md). -/

namespace Sys2Proof.Machine

open Sys2Proof

/-- `BW.BIT val` (R92). -/
def execBwBit (val : Nat) (s : State) : Outcome :=
  dispatch (.bwBit val) (fun s => bitOperand val >>= fun b => writeBit b s) s

/-- `BW.BITS val, len` (R93). -/
def execBwBits (val len : Nat) (s : State) : Outcome :=
  dispatch (.bwBits val len) (fun s => lenOperand len >>= fun n => putBits val n s) s

/-- `BW.FLUSH` (R94). -/
def execBwFlush (s : State) : Outcome := dispatch .bwFlush flush s

/-- `RES <- zext_64(v)` after a read (R16). -/
def setRes (v : Nat) (s : State) : State := { s with res := BitVec.ofNat 64 v }

/-- `BR.BIT` (R98). -/
def execBrBit (s : State) : Outcome :=
  dispatch .brBit (fun s => readBit .raw s >>= fun (b, s) => .ok (setRes b.toNat s)) s

/-- `BR.BITS len` (R99). -/
def execBrBits (len : Nat) (s : State) : Outcome :=
  dispatch (.brBits len)
    (fun s => lenOperand len >>= fun n => getBits n .raw s >>= fun (v, s) => .ok (setRes v s)) s

end Sys2Proof.Machine
end

