-- ==== Sys2Proof/Machine/Control.lean ====
section
/-! DEFINITION. The control commands (47_control.md). -/

namespace Sys2Proof.Machine

open Sys2Proof

/-- `CTL.NOP` (R190): nothing, and the one command that leaves `STATUS.DONE` as it is. -/
def execCtlNop (s : State) : Outcome := .next s

/-- `CTL.RESET` (R191): accepted in the faulted and in the unfaulted state (R193). -/
def execCtlReset (s : State) : Outcome := .next s.leaveFault

end Sys2Proof.Machine
end

