-- ==== Sys2Proof/Machine/Header.lean ====
section
/-! DEFINITION. The header commands (44_format_codec.md). -/

namespace Sys2Proof.Machine

open Sys2Proof

/-! ### Serialise -/

/-- One code entry: symbol, length, code (R73). -/
def putEntry (sym : Byte) (e : CodeEntry) (s : State) : Exec State := do
  let s ← putBits sym.toNat 8 s
  let s ← putBits e.len.toNat 6 s
  putBits e.code.toNat e.len.toNat s

/-- The entries of the valid symbols among those listed, in order (R150, R155). -/
def putEntries (ct : CodeTable) : List Byte → State → Exec State
  | [], s => .ok s
  | sym :: rest, s =>
    match tableGet ct sym with
    | none => putEntries ct rest s
    | some e => putEntry sym e s >>= putEntries ct rest

/-- `HdrWrite()` (R150). -/
def hdrWrite (s : State) : Exec State :=
  let n := ctCount s.ct
  if n = 0 then raise .empty
  else if s.histTotal.toNat > Config.maxSize then raise .size
  else do
    let s ← putBits Config.magic 56 s
    let s ← putBits (n - 1) 8 s
    let s ← putEntries s.ct symbols s
    putBits s.histTotal.toNat 32 s

/-! ### Deserialise -/

/-- Entry `k` of the table in the header, appended to the decode table (R152). -/
def getEntry (s : State) : Exec State := do
  let (sym, s) ← getBits 8 .entrySym s
  let (len, s) ← getBits 6 .entryLen s
  if len = 0 then raise .badLen
  else do
    let (code, s) ← getBits len .entryCode s
    .ok { s with dt := s.dt ++
      [{ sym := BitVec.ofNat 8 sym, len := BitVec.ofNat 6 len, code := BitVec.ofNat 63 code }] }

/-- "for k in 0..n-1", the entries of the header (R152). -/
def getEntries : (n : Nat) → State → Exec State
  | 0, s => .ok s
  | n + 1, s => getEntry s >>= getEntries n

/-- The bit string of entry `d` is an initial part of that of entry `e` (R6, R154). -/
def entryBegins (d e : DecEntry) : Bool :=
  decide (d.len ≤ e.len) && (e.code.toNat >>> (e.len.toNat - d.len.toNat) == d.code.toNat)

/-- `PrefixFree()` (R154): no entry begins another, over all pairs of two different entries. -/
def prefixFree : List DecEntry → Bool
  | [] => true
  | d :: rest => rest.all (fun e => !entryBegins d e && !entryBegins e d) && prefixFree rest

/-- `HdrParse()` (R152). -/
def hdrParse (s : State) : Exec State := do
  let (m, s) ← getBits 56 .magic s
  if m ≠ Config.magic then raise .formatMismatch
  else do
    let (c, s) ← getBits 8 .count s
    let s ← getEntries (c + 1) { s with dt := [] }
    let (size, s) ← getBits 32 .size s
    if prefixFree s.dt = false then raise .badTable
    else .ok { s with decRem := BitVec.ofNat 32 size }

/-- `HDR.WRITE` (R151). -/
def execHdrWrite (s : State) : Outcome := dispatch .hdrWrite hdrWrite s

/-- `HDR.PARSE` (R153). -/
def execHdrParse (s : State) : Outcome := dispatch .hdrParse hdrParse s

end Sys2Proof.Machine
end

