-- ==== Sys2Proof/Machine/Decoder.lean ====
section
/-! DEFINITION. The decoder commands (46_decoder.md). -/

namespace Sys2Proof.Machine

open Sys2Proof

/-- The search of the decode table for the bits `(acc, l)` read so far: "table order; the first match wins"
(R180). -/
def findEntry (dt : List DecEntry) (acc l : Nat) : Option DecEntry :=
  dt.find? (fun e => e.len.toNat == l && e.code.toNat == acc)

/-- A symbol is decoded: to the sink, to `RES`, and off `DEC_REM` (R180). -/
def emitSymbol (sym : Byte) (s : State) : Exec State := do
  let s ← snkPush sym s
  .ok { s with res := sym.setWidth 64, decRem := s.decRem - 1 }

/-- The loop of `DecSym` with `fuel` bits still allowed and `(acc, l)` read so far. Where the allowance of 64
bits is used up, 64 bits are accumulated and none matched (R180). -/
def matchBits : (fuel acc l : Nat) → State → Exec State
  | 0, _, _, _ => raise .noMatch
  | fuel + 1, acc, l, s => do
    let (b, s) ← readBit .body s
    match findEntry s.dt (2 * acc + b.toNat) (l + 1) with
    | some e => emitSymbol e.sym s
    | none => matchBits fuel (2 * acc + b.toNat) (l + 1) s

/-- `DecSym()` (R180). -/
def decSym (s : State) : Exec State :=
  if s.decRem = 0 then raise .decUnderflow else matchBits 64 0 0 s

/-- `n` symbols decoded one after another. -/
def decSyms : (n : Nat) → State → Exec State
  | 0, s => .ok s
  | n + 1, s => decSym s >>= decSyms n

/-- `DecBody()`, "while DEC_REM > 0: DecSym()" (R182): each pass lowers `DEC_REM` by one. -/
def decBody (s : State) : Exec State := decSyms s.decRem.toNat s

/-- The rule of `DECODE` (R183). -/
def decodeJob (s : State) : Exec State := do
  let s ← hdrParse s.init
  let s ← decBody s
  .ok { s with snkSync := s.snkLen }.setDone

/-- `DEC.SYM` (R181). -/
def execDecSym (s : State) : Outcome := dispatch .decSym decSym s

/-- `DEC.BODY` (R182). -/
def execDecBody (s : State) : Outcome := dispatch .decBody decBody s

/-- `DECODE` (R183). -/
def execDecodeJob (s : State) : Outcome := dispatch .decodeJob decodeJob s

end Sys2Proof.Machine
end

