-- ==== Sys2Proof/Machine/CodeWalk.lean ====
section
/-! DEFINITION. The code-table command (43_code_table.md). -/

namespace Sys2Proof.Machine

open Sys2Proof

/-- `CT_VALID[s] <- 1; CT_CODE[s] <- v; CT_LEN[s] <- l` (R140). -/
def setCode (sym : Byte) (v l : Nat) (ct : CodeTable) : CodeTable :=
  tableSet ct sym (some { code := BitVec.ofNat 63 v, len := BitVec.ofNat 6 l })

/-- `Walk(i, v, l)` (R140), with `fuel` levels to go. A path of more than 512 nodes repeats one of the
512 indices, so where the fuel of `walkFuel` ends the recursion of R140 has no end; R20 excludes such an
arena. -/
def walk (nodes : List Node) : (fuel : Nat) → NodeIdx → (v l : Nat) → CodeTable → Exec CodeTable
  | 0, _, _, _, _ => .error (.stuck .walkDoesNotEnd)
  | fuel + 1, i, v, l, ct =>
    match nodeAt nodes i with
    | .leaf _ sym => if l > Config.maxLen then raise .codeTooLong else .ok (setCode sym v l ct)
    | .internal _ left right =>
      walk nodes fuel left (2 * v) (l + 1) ct >>= walk nodes fuel right (2 * v + 1) (l + 1)

/-- The levels a walk can need: one per index of 9 bits, so 512. -/
def walkFuel : Nat := 512

/-- The table of a finished tree, from an empty one (R141), with the single-symbol case of R142. -/
def codesOf (nodes : List Node) (root : NodeIdx) : Exec CodeTable :=
  match nodeAt nodes root with
  | .leaf _ sym => .ok (setCode sym 0 1 (Vector.replicate 256 none))
  | .internal _ _ _ => walk nodes walkFuel root 0 0 (Vector.replicate 256 none)

/-- `CodeWalk()` (R141): the new table, then the tree discarded (R145). -/
def codeWalk (s : State) : Exec State :=
  if s.rootValid = false then raise .noTree
  else codesOf s.node s.root >>= fun ct => .ok (discardTree { s with ct := ct })

/-- `CODE.WALK` (R141). -/
def execCodeWalk (s : State) : Outcome := dispatch .codeWalk codeWalk s

end Sys2Proof.Machine
end

