-- ==== Sys2Proof/Machine/Histogram.lean ====
section
/-! DEFINITION. The histogram commands (41_histogram.md). -/

namespace Sys2Proof.Machine

open Sys2Proof

/-- The count pass: `HistClear()`, then `HistAcc` of every source byte in order (R114). -/
def countPass (s : State) : Exec State := overSource histAcc s.srcLen.toNat 0 (histClear s)

/-- `HIST.CLR` (R112). -/
def execHistClr (s : State) : Outcome := dispatch .histClr (fun s => .ok (histClear s)) s

/-- `HIST.ACC sym` (R113). -/
def execHistAcc (sym : Nat) (s : State) : Outcome :=
  dispatch (.histAcc sym) (histAcc (symOperand sym)) s

/-- `HIST.SCAN` (R114). -/
def execHistScan (s : State) : Outcome := dispatch .histScan countPass s

end Sys2Proof.Machine
end

