-- ==== Sys2Proof/Machine/Tree.lean ====
section
/-! DEFINITION. The tree-builder commands (42_tree_builder.md). -/

namespace Sys2Proof.Machine

open Sys2Proof

/-- The Leaf of a symbol with a nonzero count (R124). -/
def leafOf (hist : Histogram) (sym : Byte) : Option Node :=
  if tableGet hist sym = 0 then none else some (.leaf (tableGet hist sym) sym)

/-- "create one Leaf per symbol with nonzero count", in ascending symbol value (R124). -/
def leavesOf (hist : Histogram) : List Node := symbols.filterMap (leafOf hist)

/-- The node indices `0, 1, ..., n-1`. -/
def firstIndices (n : Nat) : List NodeIdx := (List.range n).map (BitVec.ofNat 9)

/-- `TreeInit()` (R124): after its loop the leaves are `NODE[0..TREE_N-1]` in ascending symbol order and
`PQ = {0, ..., TREE_N-1}`. -/
def treeInit (s : State) : Exec State :=
  let leaves := leavesOf s.hist
  let s : State := { s with node := leaves, pq := firstIndices leaves.length, root := 0, rootValid := false }
  if leaves.length = 0 then raise .empty
  else if leaves.length = 1 then .ok { s with root := 0, rootValid := true }
  else .ok s

/-- The new Internal node over the two nodes extracted, `a` first, with `rest` left in `PQ` (R125). -/
def joinNodes (a b : NodeIdx) (rest : List NodeIdx) (s : State) : Exec State :=
  let sum := (nodeAt s.node a).cnt.toNat + (nodeAt s.node b).cnt.toNat
  let new : NodeIdx := BitVec.ofNat 9 s.node.length
  let pq := pqInsert new rest
  if sum > 2 ^ 64 - 1 then raise .countOverflow
  else
    let s : State := { s with node := s.node ++ [.internal (BitVec.ofNat 64 sum) a b], pq := pq }
    if pq.length = 1 then .ok { s with root := new, rootValid := true } else .ok s

/-- `TreeMerge()` (R125). Fewer than two members of `PQ` is where one of the two extractions finds it empty. -/
def treeMerge (s : State) : Exec State :=
  match pqExtractMin s.node s.pq with
  | none => raise .pqUnderflow
  | some (a, pq1) =>
    match pqExtractMin s.node pq1 with
    | none => raise .pqUnderflow
    | some (b, pq2) => joinNodes a b pq2 s

/-- "while |PQ| >= 2: TreeMerge()" (R126), with at most `n` merges; each lowers `|PQ|` by one. -/
def mergeAll : (n : Nat) → State → Exec State
  | 0, s => .ok s
  | n + 1, s => if 2 ≤ s.pq.length then treeMerge s >>= mergeAll n else .ok s

/-- `TreeBuild()` (R126). -/
def treeBuild (s : State) : Exec State := treeInit s >>= fun s => mergeAll s.pq.length s

/-- `TREE.INIT` (R124). -/
def execTreeInit (s : State) : Outcome := dispatch .treeInit treeInit s

/-- `TREE.MERGE` (R125). -/
def execTreeMerge (s : State) : Outcome := dispatch .treeMerge treeMerge s

/-- `TREE.BUILD` (R126). -/
def execTreeBuild (s : State) : Outcome := dispatch .treeBuild treeBuild s

end Sys2Proof.Machine
end

