-- ==== Sys2Proof/Machine/Encoder.lean ====
section
/-! DEFINITION. The encoder commands (45_encoder.md). -/

namespace Sys2Proof.Machine

open Sys2Proof

/-- `EncSym(s)` (R170). -/
def encSym (sym : Byte) (s : State) : Exec State :=
  match tableGet s.ct sym with
  | none => raise .noCode
  | some e => putBits e.code.toNat e.len.toNat s

/-- `EncBody()`, the emit pass (R172). -/
def emitPass (s : State) : Exec State := overSource encSym s.srcLen.toNat 0 s

/-- The units of `ENCODE` in order, once its two input checks have passed (R173). -/
def encodeUnits (s : State) : Exec State := do
  let s ← countPass s
  let s ← treeBuild s
  let s ← codeWalk s
  let s ← hdrWrite s
  let s ← emitPass s
  let s ← flush s
  .ok s.setDone

/-- The rule of `ENCODE` (R173): `Init()`, the checks `EMPTY` and `SIZE`, then the units. -/
def encodeJob (s : State) : Exec State :=
  if s.srcLen = 0 then raise .empty
  else if s.srcLen.toNat > Config.maxSize then raise .size
  else encodeUnits s.init

/-- `ENC.SYM sym` (R171). -/
def execEncSym (sym : Nat) (s : State) : Outcome := dispatch (.encSym sym) (encSym (symOperand sym)) s

/-- `ENC.BODY` (R172). -/
def execEncBody (s : State) : Outcome := dispatch .encBody emitPass s

/-- `ENCODE` (R173). -/
def execEncodeJob (s : State) : Outcome := dispatch .encodeJob encodeJob s

end Sys2Proof.Machine
end

