-- ==== Sys2Proof/Machine/Dispatch.lean ====
section
/-! DEFINITION. One arm per command. -/

namespace Sys2Proof.Machine

open Sys2Proof

def exec (i : Instr) (s : State) : Host.Outcome State Fault Refusal :=
  match i with
  | .ctlNop => Sys2Proof.Machine.execCtlNop s
  | .ctlReset => Sys2Proof.Machine.execCtlReset s
  | .bwBit val => Sys2Proof.Machine.execBwBit val s
  | .bwBits val len => Sys2Proof.Machine.execBwBits val len s
  | .bwFlush => Sys2Proof.Machine.execBwFlush s
  | .brBit => Sys2Proof.Machine.execBrBit s
  | .brBits len => Sys2Proof.Machine.execBrBits len s
  | .histClr => Sys2Proof.Machine.execHistClr s
  | .histAcc sym => Sys2Proof.Machine.execHistAcc sym s
  | .histScan => Sys2Proof.Machine.execHistScan s
  | .treeInit => Sys2Proof.Machine.execTreeInit s
  | .treeMerge => Sys2Proof.Machine.execTreeMerge s
  | .treeBuild => Sys2Proof.Machine.execTreeBuild s
  | .codeWalk => Sys2Proof.Machine.execCodeWalk s
  | .hdrWrite => Sys2Proof.Machine.execHdrWrite s
  | .hdrParse => Sys2Proof.Machine.execHdrParse s
  | .encSym sym => Sys2Proof.Machine.execEncSym sym s
  | .encBody => Sys2Proof.Machine.execEncBody s
  | .encodeJob => Sys2Proof.Machine.execEncodeJob s
  | .decSym => Sys2Proof.Machine.execDecSym s
  | .decBody => Sys2Proof.Machine.execDecBody s
  | .decodeJob => Sys2Proof.Machine.execDecodeJob s

end Sys2Proof.Machine
end

