-- ==== Sys2Proof/Machine/HostPort.lean ====
section
/-! DEFINITION. The host's side of the engine (20_memory.md R48): a command word presented, a byte of `SRC` or
`SRC_LEN` written. -/

namespace Sys2Proof.Machine

open Sys2Proof

/-- A 64-bit word presented to the engine (R193): a word that spells a command runs it; one that spells none
raises IllegalCommand, or is ignored while the engine is faulted (R65). -/
def issueWord (w : Word) (s : State) : Outcome :=
  match decode w with
  | .ok i => exec i s
  | .error _ => if s.err then .next s else .next (s.enterFault .illegalCommand w)

/-- One move of the host (R48). An index not below `SRC_CAP` and a length above it are no moves (R233). -/
def hostMove (m : HostMove) (s : State) : Outcome :=
  match m with
  | .issue w => issueWord w s
  | .writeSrc i b =>
    if i < s.cfg.srcCap then .next { s with src := s.src.write i.toNat b } else .refused .hostIndexBeyondSrcCap
  | .setSrcLen n =>
    if n ≤ s.cfg.srcCap then .next { s with srcLen := n } else .refused .hostLenBeyondSrcCap

/-- The next move of the host, taken off its list; without one the engine is idle and holds its state (R217). -/
def nextMove (s : State) : Outcome :=
  match s.host with
  | [] => .next s
  | m :: rest => hostMove m { s with host := rest }

/-- The word `w`, of which the table gives `nbits` bits, made the host's next move. -/
def hostPresents (s : State) (nbits w : Nat) : State :=
  { s with host := .issue (BitVec.ofNat 64 (w % 2 ^ nbits)) :: s.host }

end Sys2Proof.Machine
end

