-- ==== Sys2Proof/Machine/Step.lean ====
section
/-! DEFINITION. One step: the host's next move, whole (00_scope.md R8). The engine has no program counter and
fetches nothing (10_state.md R27); what stands for the next instruction is the next word the host presents. -/

namespace Sys2Proof.Machine

open Sys2Proof

/-- One step of the engine and its host. -/
def step (s : State) : Host.Outcome State Fault Refusal := nextMove s

/-- `s` with the command word `w` as the host's next move, so that the next step runs it. -/
def State.withFetchWord (s : State) (nbits w : Nat) : State := hostPresents s nbits w

end Sys2Proof.Machine
end

