-- ==== Sys2Proof/Safety.lean ====
section
/-! DEFINITION. The terms the statements use: bit strings (00_scope.md R6), the bits the writer has accepted and
the reader has not read, the encoded file (30_encoding.md Part B), the faults each command may raise
(60_exceptions.md R204), and what holds of a safe run: the invariants of 10_state.md R31 and the output
guarantee of R218. -/

namespace Sys2Proof.Machine

open Sys2Proof

/-! ### Bit strings (R6) -/

/-- The bit string `(v, n)`: `v[n-1], ..., v[0]`, in the order the bits travel (R6). -/
def bitString (v : Nat) : (n : Nat) → List Bool
  | 0 => []
  | n + 1 => v.testBit n :: bitString v n

/-- The number a bit string spells, first bit most significant (R44, R97). -/
def bitsValue (bits : List Bool) : Nat := bits.foldl (fun v b => 2 * v + b.toNat) 0

/-- The bits of a byte, bit 7 first (R43). -/
def byteBits (b : Byte) : List Bool := bitString b.toNat 8

/-- The bit stream of a list of bytes (R43). -/
def streamOf (bytes : List Byte) : List Bool := bytes.flatMap byteBits

/-- The bits the writer has accepted: the sink's, then the pending ones (R14, R15). -/
def State.written (s : State) : List Bool := streamOf s.snk ++ bitString s.bwAcc.toNat s.bwCnt.toNat

/-- The source buffer as a list, `SRC[0..SRC_LEN-1]` (R11). -/
def State.source (s : State) : List Byte := (List.range s.srcLen.toNat).map s.srcRead

/-- The bits the reader has still to give: the unread ones of `BR_BYTE`, then the source from `SRC_POS` on
(R12, R13). -/
def State.unread (s : State) : List Bool :=
  bitString s.brByte.toNat s.brCnt.toNat ++ streamOf (s.source.drop s.srcPos.toNat)

/-- The sink takes `n` more bytes (R42). -/
def State.sinkTakes (s : State) (n : Nat) : Prop :=
  ∀ cap, s.cfg.snkCap = some cap → s.snk.length + n ≤ cap.toNat

/-- The sink takes the bytes that `n` more written bits complete (R90). -/
def State.takesBits (s : State) (n : Nat) : Prop := s.sinkTakes ((s.bwCnt.toNat + n) / 8)

/-! ### Tables and the encoded file -/

/-- The bit string of a decode-table entry (R24). -/
def DecEntry.bits (e : DecEntry) : List Bool := bitString e.code.toNat e.len.toNat

/-- One entry as it stands in a header (R73). -/
def DecEntry.inHeader (e : DecEntry) : List Bool := bitString e.sym.toNat 8 ++ bitString e.len.toNat 6 ++ e.bits

/-- The valid entries of a code table in ascending symbol value, the "table order" of R155. -/
def tableEntries (ct : CodeTable) : List DecEntry :=
  symbols.filterMap (fun y => (tableGet ct y).map (fun e => { sym := y, len := e.len, code := e.code }))

/-- Parts 1 to 4 of an encoded file (R70 to R74). -/
def headerBits (entries : List DecEntry) (size : Nat) : List Bool :=
  bitString 0x485546464D414E 56 ++ bitString (entries.length - 1) 8 ++ entries.flatMap DecEntry.inHeader ++
    bitString size 32

/-- The code of a symbol, empty where the table has none (R23). -/
def codeBits (ct : CodeTable) (y : Byte) : List Bool :=
  match tableGet ct y with
  | none => []
  | some e => bitString e.code.toNat e.len.toNat

/-- Part 5, the body (R75). -/
def bodyBits (ct : CodeTable) (bytes : List Byte) : List Bool := bytes.flatMap (codeBits ct)

/-- Zero bits up to the next byte boundary, part 6 (R76). -/
def zeroPad (bits : List Bool) : List Bool := bits ++ List.replicate ((8 - bits.length % 8) % 8) false

/-- No bit string of the list is an initial part of another one (R6, R144, R154). -/
def PrefixCode (codes : List (List Bool)) : Prop :=
  codes.Pairwise (fun c d => ¬ c <+: d ∧ ¬ d <+: c)

/-- A header up to and with the first entries of its table, of which it announces `n` (R71 to R73). -/
def headerStart (n : Nat) (entries : List DecEntry) : List Bool :=
  bitString 0x485546464D414E 56 ++ bitString (n - 1) 8 ++ entries.flatMap DecEntry.inHeader

/-- An entry of length 1 to 63 with its code in range (R73, R152). -/
def EntryOk (e : DecEntry) : Prop := 1 ≤ e.len.toNat ∧ e.code.toNat < 2 ^ e.len.toNat

/-- What a header's table must be to be accepted: 1 to 256 entries, each of length 1 to 63 with its code in
range, no code an initial part of another (R72, R73, R152, R154). -/
def AcceptedTable (entries : List DecEntry) : Prop :=
  1 ≤ entries.length ∧ entries.length ≤ 256 ∧
  (∀ e ∈ entries, EntryOk e) ∧
  PrefixCode (entries.map DecEntry.bits)

/-- The leaf symbol reached from node `i` along a bit string, 0 for left and 1 for right (R140). -/
def leafAlong (nodes : List Node) : List Bool → NodeIdx → Option Byte
  | [], i =>
    match nodes[i.toNat]? with
    | some (.leaf _ y) => some y
    | _ => none
  | b :: bits, i =>
    match nodes[i.toNat]? with
    | some (.internal _ l r) => leafAlong nodes bits (if b then r else l)
    | _ => none

/-- `Key(i)`, compared lexicographically (R120). -/
def Before (nodes : List Node) (i j : NodeIdx) : Prop :=
  (nodeAt nodes i).cnt.toNat < (nodeAt nodes j).cnt.toNat ∨
    ((nodeAt nodes i).cnt.toNat = (nodeAt nodes j).cnt.toNat ∧ i.toNat < j.toNat)

/-- How often a symbol occurs in a list of bytes. -/
def occurrences (y : Byte) (bytes : List Byte) : Nat := bytes.count y

/-- The present symbols, those with a nonzero count, ascending (R19). -/
def present (hist : Histogram) : List Byte := symbols.filter (fun y => tableGet hist y ≠ 0)

/-! ### Faults -/

/-- The faults a command can raise (R204), those it can raise "in principle" among them. -/
def mayRaise : Instr → List Trap
  | .ctlNop | .ctlReset | .histClr => []
  | .bwBit _ => [.bitValue, .sinkFull]
  | .bwBits _ _ => [.bitsLen, .sinkFull]
  | .bwFlush => [.sinkFull]
  | .brBit => [.truncated .raw]
  | .brBits _ => [.bitsLen, .truncated .raw]
  | .histAcc _ => [.countOverflow]
  | .histScan => [.countOverflow]
  | .treeInit => [.empty]
  | .treeMerge => [.pqUnderflow, .countOverflow]
  | .treeBuild => [.empty, .countOverflow]
  | .codeWalk => [.noTree, .codeTooLong]
  | .hdrWrite => [.empty, .size, .sinkFull]
  | .hdrParse => [.truncated .magic, .truncated .count, .truncated .entrySym, .truncated .entryLen,
      .truncated .entryCode, .truncated .size, .formatMismatch, .badLen, .badTable]
  | .encSym _ => [.noCode, .sinkFull]
  | .encBody => [.noCode, .sinkFull]
  | .encodeJob => [.empty, .size, .sinkFull, .codeTooLong, .countOverflow]
  | .decSym => [.decUnderflow, .truncated .body, .sinkFull, .noMatch]
  | .decBody => [.truncated .body, .sinkFull, .noMatch]
  | .decodeJob => [.truncated .magic, .truncated .count, .truncated .entrySym, .truncated .entryLen,
      .truncated .entryCode, .truncated .size, .formatMismatch, .badLen, .badTable,
      .truncated .body, .sinkFull, .noMatch]

/-- What is defined after the fault `k` of the command word `w`, from the state `s` (R203, R30). -/
def FaultedWith (k : Trap) (w : Word) (s t : State) : Prop :=
  t.status = (0x0002#16 ||| (k.cause.setWidth 16 <<< 4) ||| (k.sub.setWidth 16 <<< 8)) ∧
  t.fcmd = w ∧ t.snk = [] ∧ t.snkSync = 0 ∧
  t.src = s.src ∧ t.srcLen = s.srcLen ∧ t.cfg = s.cfg ∧ t.host = s.host

/-- The command `i` ends in the fault `k` from the state `s` (R200, R203). -/
def FaultsWith (i : Instr) (s : State) (k : Trap) : Prop :=
  ∃ t, exec i s = .next t ∧ FaultedWith k (encode i) s t

/-- Commands issued one after another (R8, R68). -/
def runAll : List Instr → State → Outcome
  | [], s => .next s
  | i :: rest, s =>
    match exec i s with
    | .next t => runAll rest t
    | .fault f => .fault f
    | .refused r => .refused r

/-! ### Invariants of a safe run (R31) -/

/-- `STATUS` and `FCMD` (R17, R18, R30; R31 item 9): reserved bits 0, never both flags, and what goes with
each value of `ERR`. -/
def StatusOk (s : State) : Prop :=
  s.status &&& ~~~statusFieldMask = 0 ∧ ¬ (s.done = true ∧ s.err = true) ∧
  (s.err = true → s.snk = [] ∧ s.snkSync = 0) ∧
  (s.err = false → s.cause = 0 ∧ s.sub = 0 ∧ s.fcmd = 0)

/-- The bit writer (R14; R31 item 1). -/
def WriterOk (s : State) : Prop := s.err = false → s.bwAcc.toNat < 2 ^ s.bwCnt.toNat

/-- The bit reader (R13; R31 item 2, less `SRC_POS`, which rests on the host's duty). -/
def ReaderOk (s : State) : Prop := s.err = false → s.brCnt.toNat ≤ 8

/-- `SRC_POS <= SRC_LEN` (R12; R31 item 2). -/
def PositionOk (s : State) : Prop := s.err = false → s.srcPos.toNat ≤ s.srcLen.toNat

/-- `SNK_SYNC <= SNK_LEN <= SNK_CAP` (R15; R31 item 3). -/
def SinkOk (s : State) : Prop := s.snkSync.toNat ≤ s.snk.length ∧ s.sinkTakes 0

/-- `HIST_TOTAL` is the sum of the counters (R19; R31 item 4). -/
def HistOk (s : State) : Prop :=
  s.err = false → s.histTotal.toNat = (symbols.map (fun y => (tableGet s.hist y).toNat)).sum

/-- The arena, the queue and the root (R20, R21, R22; R31 items 5 and 6), with `leaves` the Leaf nodes and
`inner` the Internal ones. -/
structure TreeShape (nodes leaves inner : List Node) (pq : List NodeIdx) (root : NodeIdx) (rootValid : Bool) :
    Prop where
  /-- the leaves come first, the Internal nodes after them -/
  split : nodes = leaves ++ inner
  areLeaves : ∀ n ∈ leaves, ∃ c y, n = .leaf c y ∧ c ≠ 0
  areInner : ∀ n ∈ inner, ∃ c l r, n = .internal c l r
  /-- strictly ascending `SYM` -/
  ascending : (leaves.map Node.sym).Pairwise (· < ·)
  /-- `LEFT < i`, `RIGHT < i`, `LEFT != RIGHT`, and the count is the children's sum -/
  children : ∀ (i : Nat) c l r, nodes[i]? = some (.internal c l r) →
    l.toNat < i ∧ r.toNat < i ∧ l ≠ r ∧ c.toNat = (nodeAt nodes l).cnt.toNat + (nodeAt nodes r).cnt.toNat
  /-- every node is the child of at most one Internal node -/
  oneParent : ∀ (i j : Nat) c l r c' l' r', nodes[i]? = some (.internal c l r) →
    nodes[j]? = some (.internal c' l' r') → i ≠ j → l ≠ l' ∧ l ≠ r' ∧ r ≠ l' ∧ r ≠ r'
  /-- `PQ` is held strictly rising -/
  rising : pq.Pairwise (· < ·)
  /-- a node is in `PQ` exactly when it has been created and has no parent -/
  members : ∀ i : NodeIdx, i ∈ pq ↔ i.toNat < nodes.length ∧
    ∀ (j : Nat) c l r, nodes[j]? = some (.internal c l r) → l ≠ i ∧ r ≠ i
  /-- each merge takes one from `PQ` and adds one to the arena (R125, R129) -/
  size : nodes.length + pq.length = 2 * leaves.length
  bound : leaves.length ≤ 256
  /-- `ROOT_VALID = 1` exactly when `TREE_N >= 1` and `PQ` has one member -/
  valid : rootValid = true ↔ 1 ≤ nodes.length ∧ pq.length = 1
  /-- then `ROOT` is that member, and it was created last -/
  rootIs : rootValid = true → pq = [root] ∧ root.toNat + 1 = nodes.length
  rootZero : rootValid = false → root = 0

/-- The tree builder's state (R20 to R22; R31 items 5 and 6). -/
def TreeOk (s : State) : Prop :=
  s.err = false → ∃ leaves inner, TreeShape s.node leaves inner s.pq s.root s.rootValid

/-- The code table (R23, R144; R31 item 7). -/
def CodeTableOk (s : State) : Prop :=
  s.err = false → (∀ e ∈ tableEntries s.ct, EntryOk e) ∧
    PrefixCode ((tableEntries s.ct).map DecEntry.bits)

/-- The decode table (R24, R154; R31 item 8). -/
def DecodeTableOk (s : State) : Prop :=
  s.err = false → (∀ e ∈ s.dt, EntryOk e) ∧
    PrefixCode (s.dt.map DecEntry.bits)

/-- The output guarantee (R218): faulted with an empty sink; or finished, and then everything in the sink has
been forced to persist (R15, R183); or neither. -/
def OutputOk (s : State) : Prop :=
  (s.err = true ∧ s.done = false ∧ s.snk = [] ∧ s.snkSync = 0) ∨
  (s.err = false ∧ s.done = true ∧ s.snkSync = s.snkLen) ∨
  (s.err = false ∧ s.done = false)

end Sys2Proof.Machine
end

