-- ==== Sys2Proof/Certificates/Slice0/Obligations.lean ====
section
/-! DEFINITION. The statements for the provers, in the order of OBLIGATIONS.json: encoding and decoding, the step
and the host, faults, reset and STATUS, the invariants of R31, then one group per family of the opcode table, then
the whole jobs. A frame is written as an equation `t = { s with ... }` that lists the only elements that may differ;
an element written `x := t.x` is one that the other clauses speak of. -/

open Sys2Proof Sys2Proof.Machine

/-! ### Encoding -/

/-- Decoding what `encode` makes of a well-formed command gives the command back (R61, R62, R67). -/
def Obligations.EncodeThenDecode : Prop :=
  ∀ i : Instr, i.wellFormed = true → decode (encode i) = .ok i

/-- A word that spells a command is the one word of that command, and its operands fit their fields (R62, R67). -/
def Obligations.DecodeThenEncode : Prop :=
  ∀ (w : Word) (i : Instr), decode w = .ok i → i.wellFormed = true ∧ encode i = w

/-- A word spells a command exactly when it matches a row of the opcode map under the mask of the row's format; the
operands are the fields as they stand (R62, R63). -/
def Obligations.OpcodeMap : Prop :=
  (∀ w : Word, (∃ i, decode w = .ok i) ↔
    ∃ r ∈ opcodeRows, w &&& r.fmt.mask = BitVec.ofNat 64 (r.op <<< 56)) ∧
  ∀ (w : Word) (i : Instr), decode w = .ok i →
    i.opcode = w.toNat / 2 ^ 56 ∧ w.toNat / 2 ^ 38 % 2 ^ 18 = 0 ∧
    i.lenOperand = w.toNat / 2 ^ 32 % 2 ^ 6 ∧ i.valOperand = w.toNat % 2 ^ 32

/-- A word that matches no row spells no command; it raises IllegalCommand(0) in an unfaulted engine and is ignored in a
faulted one; and no word matches two rows (R65). -/
def Obligations.IllegalWords : Prop :=
  (∀ (w : Word) (s : State), (∀ r ∈ opcodeRows, w &&& r.fmt.mask ≠ BitVec.ofNat 64 (r.op <<< 56)) →
    (∀ i, decode w ≠ .ok i) ∧
    (s.err = false → ∃ t, issueWord w s = .next t ∧ FaultedWith .illegalCommand w s t) ∧
    (s.err = true → issueWord w s = .next s)) ∧
  ∀ (w : Word), ∀ r ∈ opcodeRows, ∀ q ∈ opcodeRows, w &&& r.fmt.mask = BitVec.ofNat 64 (r.op <<< 56) →
    w &&& q.fmt.mask = BitVec.ofNat 64 (q.op <<< 56) → r = q

/-- Words written out from the opcode map of R64, one per format and per family, and what they spell. -/
def Obligations.DecodedWords : Prop :=
  decode 0x0000000000000000#64 = .ok .ctlNop ∧ decode 0x0100000000000000#64 = .ok .ctlReset ∧
  decode 0x1000000000000001#64 = .ok (.bwBit 1) ∧ decode 0x11000003FFFFFFF5#64 = .ok (.bwBits 0xFFFFFFF5 3) ∧
  decode 0x2100002000000000#64 = .ok (.brBits 32) ∧ decode 0x3100000000000041#64 = .ok (.histAcc 0x41) ∧
  decode 0x4200000000000000#64 = .ok .treeBuild ∧ decode 0x5000000000000000#64 = .ok .codeWalk ∧
  decode 0x6100000000000000#64 = .ok .hdrParse ∧ decode 0x70000000000000FF#64 = .ok (.encSym 0xFF) ∧
  decode 0x7200000000000000#64 = .ok .encodeJob ∧ decode 0x8200000000000000#64 = .ok .decodeJob ∧
  decode 0x7000000000000100#64 = .error .valHighNonzero ∧ decode 0x0200000000000000#64 = .error .unassignedOp

/-! ### The step and the host -/

/-- Where the host's next move is a word that spells the command `i`, the step is `exec i`, with the move taken off the
host's list; `withFetchWord` makes a command's word that next move (R8, R193; log entry 3). -/
def Obligations.StepRunsPresentedCommand : Prop :=
  (∀ (s : State) (w : Word) (rest : List HostMove) (i : Instr), s.host = .issue w :: rest → decode w = .ok i →
    step s = exec i { s with host := rest }) ∧
  ∀ (s : State) (i : Instr), i.wellFormed = true → step (s.withFetchWord 64 (encode i).toNat) = exec i s

/-- The host's own moves: a byte of `SRC` below `SRC_CAP` or `SRC_LEN` up to `SRC_CAP` is written, every other byte and
element stays, and no other such move is made (R48, R233; that the other moves are refused is log entry 11). -/
def Obligations.HostWritesSource : Prop :=
  (∀ (s : State) (a : Pos) (b : Byte) (rest : List HostMove), s.host = .writeSrc a b :: rest →
    (a.toNat < s.cfg.srcCap.toNat → ∃ t, step s = .next t ∧ t = { s with host := rest, src := t.src } ∧
      t.srcRead a.toNat = b ∧ ∀ j, j ≠ a.toNat → t.srcRead j = s.srcRead j) ∧
    (s.cfg.srcCap.toNat ≤ a.toNat → step s = .refused .hostIndexBeyondSrcCap)) ∧
  ∀ (s : State) (n : Pos) (rest : List HostMove), s.host = .setSrcLen n :: rest →
    (n.toNat ≤ s.cfg.srcCap.toNat → step s = .next { s with host := rest, srcLen := n }) ∧
    (s.cfg.srcCap.toNat < n.toNat → step s = .refused .hostLenBeyondSrcCap)

/-- Between commands the engine is idle and holds its state (R217). -/
def Obligations.IdleHolds : Prop := ∀ s : State, s.host = [] → step s = .next s

/-! ### Faults -/

/-- What fault entry leaves: whenever a word makes an unfaulted engine faulted, `STATUS` is
`0x0002 | (code << 4) | (sub << 8)` of one fault, `FCMD` is the word, the sink is empty, and `SRC` and `SRC_LEN` are
not changed (R203). -/
def Obligations.FaultEntry : Prop :=
  ∀ (w : Word) (s t : State), s.err = false → issueWord w s = .next t → t.err = true →
    ∃ k : Trap, FaultedWith k w s t ∧ t.done = false ∧ t.cause = k.cause ∧ t.sub = k.sub

/-- The faults each command can raise are those of the table of R204, and no other (R204, R210). -/
def Obligations.FaultsOfEachCommand : Prop :=
  ∀ (i : Instr) (s t : State), s.err = false → exec i s = .next t → t.err = true →
    ∃ k ∈ mayRaise i, FaultedWith k (encode i) s t

/-- While the engine is faulted, every word other than `CTL.RESET`'s is ignored: it changes no state at all (R206). -/
def Obligations.FaultedIgnores : Prop :=
  ∀ (w : Word) (s : State), s.err = true → w ≠ 0x0100000000000000#64 → issueWord w s = .next s

/-! ### Reset and `STATUS` -/

/-- The two columns of the table of R29: every engine-owned element after hardware reset and after `CTL.RESET`, which
keeps `SRC` and `SRC_LEN` (R29, R191, R231). -/
def Obligations.ResetValues : Prop :=
  (∀ s : State, ∃ t, exec .ctlReset s = .next t ∧ issueWord 0x0100000000000000#64 s = .next t ∧
    t = { State.reset with src := s.src, srcLen := s.srcLen, cfg := s.cfg, host := s.host, faults := s.faults }) ∧
  State.reset.srcLen = 0 ∧ State.reset.srcPos = 0 ∧ State.reset.brByte = 0 ∧ State.reset.brCnt = 0 ∧
  State.reset.bwAcc = 0 ∧ State.reset.bwCnt = 0 ∧ State.reset.snkLen = 0 ∧ State.reset.snkSync = 0 ∧
  State.reset.res = 0 ∧ State.reset.status = 0 ∧ State.reset.fcmd = 0 ∧
  (∀ y, tableGet State.reset.hist y = 0) ∧ State.reset.histTotal = 0 ∧ State.reset.treeN = 0 ∧
  State.reset.pq = [] ∧ State.reset.root = 0 ∧ State.reset.rootValid = false ∧
  (∀ y, State.reset.ctValid y = false ∧ State.reset.ctLen y = 0 ∧ State.reset.ctCode y = 0) ∧
  State.reset.dtCnt = 0 ∧ State.reset.decRem = 0

/-- `CTL.NOP`, the all-zero word, does nothing, whatever the state, `DONE` included; any other command that an unfaulted
engine runs leaves `DONE` 0, or is an `ENCODE` or a `DECODE` that sets it (R190). -/
def Obligations.NopHolds : Prop :=
  decode 0x0000000000000000#64 = .ok .ctlNop ∧ (∀ s : State, exec .ctlNop s = .next s) ∧
  ∀ (i : Instr) (s t : State), i ≠ .ctlNop → s.err = false → exec i s = .next t → t.done = true →
    i = .encodeJob ∨ i = .decodeJob

/-- The only step that leaves the faulted state is one that runs `CTL.RESET` (R17, R191, R206). -/
def Obligations.OnlyResetLeavesFault : Prop :=
  ∀ s t : State, step s = .next t → s.err = true → t.err = false →
    ∃ rest, s.host = .issue 0x0100000000000000#64 :: rest

/-- After a step `DONE` is 1 only when the step ran an `ENCODE` or a `DECODE`, or when `DONE` was 1 and the step ran no
command but `CTL.NOP` (R17, R193). -/
def Obligations.DoneOnlyAfterJob : Prop :=
  ∀ s t : State, step s = .next t → t.done = true →
    (∃ rest, s.err = false ∧
      (s.host = .issue 0x7200000000000000#64 :: rest ∨ s.host = .issue 0x8200000000000000#64 :: rest)) ∨
    (s.done = true ∧ (s.err = true ∨ ∀ w rest, s.host = .issue w :: rest → w = 0))

/-- The output guarantee is kept by every step: faulted with an empty sink, or finished with all of the sink forced to
persist, or neither (R218). -/
def Obligations.OutputGuarantee : Prop :=
  ∀ s t : State, OutputOk s → step s = .next t → OutputOk t

/-! ### Invariants (R31) -/

/-- `STATUS` and `FCMD` stay well formed: reserved bits 0, never `DONE` and `ERR` together, `CAUSE`, `SUB` and `FCMD` 0
while unfaulted (R17, R18, R31). -/
def Obligations.StatusKept : Prop := ∀ s t : State, StatusOk s → step s = .next t → StatusOk t

/-- `BW_ACC < 2^BW_CNT` is kept by every step (R14, R31). -/
def Obligations.WriterKept : Prop := ∀ s t : State, WriterOk s → step s = .next t → WriterOk t

/-- `BR_CNT <= 8` is kept by every step, and `SRC_POS <= SRC_LEN` by every step that does not lower `SRC_LEN` below
`SRC_POS`, which is the host's duty (R12, R13, R31, R233). -/
def Obligations.ReaderKept : Prop :=
  (∀ s t : State, ReaderOk s → step s = .next t → ReaderOk t) ∧
  ∀ s t : State, PositionOk s → (∀ n rest, s.host = .setSrcLen n :: rest → s.srcPos.toNat ≤ n.toNat) →
    step s = .next t → PositionOk t

/-- `SNK_SYNC <= SNK_LEN <= SNK_CAP` is kept by every step (R15, R31). -/
def Obligations.SinkKept : Prop := ∀ s t : State, SinkOk s → step s = .next t → SinkOk t

/-- `HIST_TOTAL` stays the sum of the 256 counters (R19, R31). -/
def Obligations.HistogramKept : Prop := ∀ s t : State, HistOk s → step s = .next t → HistOk t

/-- The arena, the queue and the root keep the shape of R20 to R22: leaves first in ascending symbols, every Internal
node over two different older nodes whose counts add up to its own, no node with two parents, `PQ` the nodes without a
parent, the root valid exactly when one of them is left (R20, R21, R22, R31). -/
def Obligations.TreeKept : Prop := ∀ s t : State, TreeOk s → step s = .next t → TreeOk t

/-- Every code table the engine holds has lengths 1 to 63, codes in range, and no code an initial part of another (R23,
R31, R144). The tree the codes are walked from has the shape of R20 to R22, kept by `TreeKept`. -/
def Obligations.CodeTableKept : Prop :=
  ∀ s t : State, TreeOk s → CodeTableOk s → step s = .next t → CodeTableOk t

/-- Every decode table the engine holds has lengths 1 to 63, codes in range, and no code an initial part of another
(R24, R31, R154). -/
def Obligations.DecodeTableKept : Prop := ∀ s t : State, DecodeTableOk s → step s = .next t → DecodeTableOk t

/-- The reset state has every invariant (R29, R31). -/
def Obligations.ResetHasInvariants : Prop :=
  StatusOk State.reset ∧ WriterOk State.reset ∧ ReaderOk State.reset ∧ PositionOk State.reset ∧ SinkOk State.reset ∧
  HistOk State.reset ∧ TreeOk State.reset ∧ CodeTableOk State.reset ∧ DecodeTableOk State.reset ∧
  OutputOk State.reset ∧ Memory.wf State.reset.src

/-! ### The two buffers -/

/-- No command writes `SRC` or `SRC_LEN`, `CTL.RESET` and fault entry included; nor the capacities or the host's moves
(R10, R11, R46). -/
def Obligations.SourceUntouched : Prop :=
  ∀ (i : Instr) (s t : State), exec i s = .next t →
    t.src = s.src ∧ t.srcLen = s.srcLen ∧ t.cfg = s.cfg ∧ t.host = s.host ∧ ∀ a, t.srcRead a = s.srcRead a

/-- The listed bytes of `SRC` stay in canonical form, addresses strictly rising (the model's own form, log entry 2). -/
def Obligations.SourceCanonical : Prop := ∀ s t : State, Memory.wf s.src → step s = .next t → Memory.wf t.src

/-- The sink only grows: a command that does not fault and is not `CTL.RESET`, `ENCODE` or `DECODE` leaves every byte of
the sink as it was, and one that reaches the sink neither through the bit writer nor from the decoder leaves all of it
as it was (R15, R40, R42). -/
def Obligations.SinkOnlyGrows : Prop :=
  ∀ (i : Instr) (s t : State), exec i s = .next t → t.err = false → s.err = false →
    i ≠ .ctlReset → i ≠ .encodeJob → i ≠ .decodeJob →
    (∀ j, j < s.snk.length → t.snkRead j = s.snkRead j) ∧ s.snk.length ≤ t.snk.length ∧
    ((∀ v, i ≠ .bwBit v) → (∀ v n, i ≠ .bwBits v n) → i ≠ .bwFlush → i ≠ .hdrWrite → (∀ y, i ≠ .encSym y) →
      i ≠ .encBody → i ≠ .decSym → i ≠ .decBody → t.snk = s.snk)

/-! ### The bit writer -/

/-- `BW.BIT val`: for `val` 0 or 1 it completes, shifts the bit in and pushes the byte on the eighth bit; it faults with
`SINK_FULL` when that byte finds the sink full and with `BIT_VALUE` when `val >= 2`; nothing else changes but `DONE`
(R90, R92). -/
def Obligations.BwBitWrites : Prop :=
  ∀ (s : State) (val : Nat), s.err = false →
    (val ≤ 1 → s.bwCnt ≠ 7 ∨ s.sinkTakes 1 → ∃ t, exec (.bwBit val) s = .next t ∧
      t = { s.clearDone with bwAcc := t.bwAcc, bwCnt := t.bwCnt, snk := t.snk } ∧
      (s.bwCnt = 7 → t.snk = s.snk ++ [BitVec.ofNat 8 (2 * s.bwAcc.toNat + val)] ∧ t.bwAcc = 0 ∧ t.bwCnt = 0) ∧
      (s.bwCnt ≠ 7 → t.snk = s.snk ∧ t.bwAcc = BitVec.ofNat 8 (2 * s.bwAcc.toNat + val) ∧
        t.bwCnt.toNat = s.bwCnt.toNat + 1)) ∧
    (val ≤ 1 → s.bwCnt = 7 → ¬ s.sinkTakes 1 → FaultsWith (.bwBit val) s .sinkFull) ∧
    (2 ≤ val → FaultsWith (.bwBit val) s .bitValue)

/-- `BW.BITS val, len`: for `len` 1 to 32 it completes where the sink takes the bytes completed, and the writer has then
accepted the bits `val[len-1], ..., val[0]`; it faults with `SINK_FULL` where the sink does not take them and with
`BITS_LEN` outside 1 to 32 (R91, R93). -/
def Obligations.BwBitsWrites : Prop :=
  ∀ (s : State) (val len : Nat), s.err = false →
    (1 ≤ len → len ≤ 32 → s.takesBits len → ∃ t, exec (.bwBits val len) s = .next t ∧
      t = { s.clearDone with bwAcc := t.bwAcc, bwCnt := t.bwCnt, snk := t.snk } ∧
      t.written = s.written ++ bitString val len ∧
      (s.bwAcc.toNat < 2 ^ s.bwCnt.toNat → t.bwAcc.toNat < 2 ^ t.bwCnt.toNat) ∧
      ∀ j, j < s.snk.length → t.snkRead j = s.snkRead j) ∧
    (1 ≤ len → len ≤ 32 → s.sinkTakes 0 → ¬ s.takesBits len → FaultsWith (.bwBits val len) s .sinkFull) ∧
    (len = 0 ∨ 33 ≤ len → FaultsWith (.bwBits val len) s .bitsLen)

/-- `BW.FLUSH`: a partial byte is pushed, its pending bits first and zeros after them, at a byte boundary nothing is;
then `SNK_SYNC = SNK_LEN`; it faults where a partial byte finds the sink full (R94, R95). -/
def Obligations.BwFlushPads : Prop :=
  ∀ s : State, s.err = false →
    (s.bwCnt = 0 ∨ s.sinkTakes 1 → ∃ t, exec .bwFlush s = .next t ∧
      t = { s.clearDone with bwAcc := t.bwAcc, bwCnt := 0, snk := t.snk, snkSync := t.snkLen } ∧
      (s.bwCnt = 0 → t.snk = s.snk ∧ t.bwAcc = s.bwAcc) ∧
      (s.bwCnt ≠ 0 → t.snk = s.snk ++ [BitVec.ofNat 8 (s.bwAcc.toNat * 2 ^ (8 - s.bwCnt.toNat))] ∧ t.bwAcc = 0) ∧
      streamOf t.snk = zeroPad s.written) ∧
    (s.bwCnt ≠ 0 → ¬ s.sinkTakes 1 → FaultsWith .bwFlush s .sinkFull)

/-! ### The bit reader -/

/-- `BR.BIT`: with a bit left it completes; an exhausted `BR_BYTE` is loaded from `SRC[SRC_POS]` first; the bit read is
`BR_BYTE[BR_CNT]` after the count went down, and `RES` is that bit; with none left it faults with `RAW` (R96, R98). -/
def Obligations.BrBitReads : Prop :=
  ∀ s : State, s.err = false →
    (s.brCnt ≠ 0 ∨ s.srcPos.toNat < s.srcLen.toNat → ∃ t, exec .brBit s = .next t ∧
      t = { s.clearDone with srcPos := t.srcPos, brByte := t.brByte, brCnt := t.brCnt, res := t.res } ∧
      (s.brCnt = 0 → t.brByte = s.srcRead s.srcPos.toNat ∧ t.srcPos.toNat = s.srcPos.toNat + 1 ∧ t.brCnt = 7) ∧
      (s.brCnt ≠ 0 → t.brByte = s.brByte ∧ t.srcPos = s.srcPos ∧ t.brCnt.toNat + 1 = s.brCnt.toNat) ∧
      t.res.toNat = (t.brByte.getLsbD t.brCnt.toNat).toNat ∧
      s.unread = t.brByte.getLsbD t.brCnt.toNat :: t.unread) ∧
    (s.brCnt = 0 → s.srcLen.toNat ≤ s.srcPos.toNat → FaultsWith .brBit s (.truncated .raw))

/-- `BR.BITS len`: for `len` 1 to 32 with as many bits left it completes, `RES` is the number they spell, first bit most
significant, and the reader stands where `len` times `BR.BIT` would leave it; with fewer bits left it faults with `RAW`,
outside 1 to 32 with `BITS_LEN` (R97, R99). -/
def Obligations.BrBitsReads : Prop :=
  ∀ s : State, s.err = false →
    (∀ bits rest : List Bool, 1 ≤ bits.length → bits.length ≤ 32 → s.unread = bits ++ rest →
      ∃ t, exec (.brBits bits.length) s = .next t ∧
        t = { s.clearDone with srcPos := t.srcPos, brByte := t.brByte, brCnt := t.brCnt, res := t.res } ∧
        t.res.toNat = bitsValue bits ∧ t.unread = rest ∧
        ∃ v, runAll (List.replicate bits.length .brBit) s = .next v ∧ t = { v with res := t.res }) ∧
    (∀ len : Nat, 1 ≤ len → len ≤ 32 → s.unread.length < len → FaultsWith (.brBits len) s (.truncated .raw)) ∧
    ∀ len : Nat, len = 0 ∨ 33 ≤ len → FaultsWith (.brBits len) s .bitsLen

/-- The reader mirrors the writer: bits written one by one from a byte boundary and flushed come back in order from the
bytes pushed, then the zeros of the padding, then TruncatedStream (R101, the spec's own inference from R90, R95 and
R96). -/
def Obligations.MirrorProperty : Prop :=
  ∀ (bits : List Bool) (bytes : List Byte) (s t u : State), s.err = false → s.bwCnt = 0 →
    runAll (bits.map (fun b => .bwBit b.toNat) ++ [.bwFlush]) s = .next t → t.err = false →
    t.snk = s.snk ++ bytes →
    u.err = false → u.source = bytes → u.brCnt = 0 → u.srcPos = 0 →
    (∀ k, k < bits.length + (8 - bits.length % 8) % 8 → ∃ v, runAll (List.replicate (k + 1) .brBit) u = .next v ∧
      v.err = false ∧ v.res.toNat = (bits.getD k false).toNat) ∧
    ∃ v, runAll (List.replicate (bits.length + (8 - bits.length % 8) % 8 + 1) .brBit) u = .next v ∧
      v.err = true ∧ v.cause = 3 ∧ v.sub = 0

/-! ### The histogram -/

/-- `HIST.CLR` empties the histogram; `HIST.ACC sym` adds one to the symbol's counter and to the total, and faults with
`COUNT_OVERFLOW` where either is `2^64 - 1`; nothing else changes but `DONE` (R110 to R113). -/
def Obligations.HistogramCounts : Prop :=
  (∀ s : State, s.err = false → ∃ t, exec .histClr s = .next t ∧
    t = { s.clearDone with hist := t.hist, histTotal := 0 } ∧ ∀ y, tableGet t.hist y = 0) ∧
  ∀ (s : State) (sym : Nat), s.err = false → sym < 256 →
    ((tableGet s.hist (BitVec.ofNat 8 sym)).toNat < 2 ^ 64 - 1 → s.histTotal.toNat < 2 ^ 64 - 1 →
      ∃ t, exec (.histAcc sym) s = .next t ∧ t = { s.clearDone with hist := t.hist, histTotal := t.histTotal } ∧
        t.histTotal.toNat = s.histTotal.toNat + 1 ∧
        ∀ y : Byte, (tableGet t.hist y).toNat = (tableGet s.hist y).toNat + if y.toNat = sym then 1 else 0) ∧
    ((tableGet s.hist (BitVec.ofNat 8 sym)).toNat = 2 ^ 64 - 1 ∨ s.histTotal.toNat = 2 ^ 64 - 1 →
      FaultsWith (.histAcc sym) s .countOverflow)

/-- `HIST.SCAN` always completes: each counter is the number of times its byte occurs in `SRC[0..SRC_LEN-1]`, and
`HIST_TOTAL = SRC_LEN`; the bit reader is not touched (R114; that `COUNT_OVERFLOW` cannot happen is R114's own inference
from R110 and R111). -/
def Obligations.HistScanCounts : Prop :=
  ∀ s : State, s.err = false → ∃ t, exec .histScan s = .next t ∧
    t = { s.clearDone with hist := t.hist, histTotal := s.srcLen } ∧
    ∀ y, (tableGet t.hist y).toNat = occurrences y s.source

/-! ### The tree builder -/

/-- `TREE.INIT`: with a present symbol it completes, and the arena is one Leaf per present symbol in ascending order, all
of them in `PQ`, the root valid exactly when there is one; without one it faults with `EMPTY` (R124, R127). -/
def Obligations.TreeInitLeaves : Prop :=
  ∀ s : State, s.err = false →
    (present s.hist ≠ [] → ∃ t, exec .treeInit s = .next t ∧
      t = { s.clearDone with
              node := (present s.hist).map (fun y => .leaf (tableGet s.hist y) y)
              pq := t.pq, root := 0, rootValid := decide ((present s.hist).length = 1) } ∧
      t.pq.Pairwise (· < ·) ∧ ∀ i : NodeIdx, i ∈ t.pq ↔ i.toNat < (present s.hist).length) ∧
    (present s.hist = [] → FaultsWith .treeInit s .empty)

/-- `TREE.MERGE`, from a tree of the shape of R20 to R22: with two nodes or more in `PQ` the least by `Key`, `a`, and the
next, `b`, leave it and a new Internal node over them, `a` on the left, enters it, with the sum of their counts; it is
the root when it is the only one left; a sum above `2^64 - 1` faults with `COUNT_OVERFLOW`, fewer than two nodes with
`PQ_UNDERFLOW` (R120, R121, R122, R125). -/
def Obligations.TreeMergeJoins : Prop :=
  ∀ s : State, s.err = false → TreeOk s →
    (2 ≤ s.pq.length → ∃ a b, a ∈ s.pq ∧ b ∈ s.pq ∧ a ≠ b ∧
      (∀ j ∈ s.pq, j ≠ a → Before s.node a j) ∧ (∀ j ∈ s.pq, j ≠ a → j ≠ b → Before s.node b j) ∧
      ((nodeAt s.node a).cnt.toNat + (nodeAt s.node b).cnt.toNat ≤ 2 ^ 64 - 1 →
        ∃ t, exec .treeMerge s = .next t ∧
          t = { s.clearDone with
                  node := s.node ++ [.internal ((nodeAt s.node a).cnt + (nodeAt s.node b).cnt) a b]
                  pq := t.pq, root := t.root, rootValid := t.rootValid } ∧
          t.pq.Pairwise (· < ·) ∧
          (∀ i : NodeIdx, i ∈ t.pq ↔ (i ∈ s.pq ∧ i ≠ a ∧ i ≠ b) ∨ i.toNat = s.node.length) ∧
          (s.pq.length = 2 → t.root.toNat = s.node.length ∧ t.rootValid = true) ∧
          (s.pq.length ≠ 2 → t.root = s.root ∧ t.rootValid = s.rootValid)) ∧
      (2 ^ 64 - 1 < (nodeAt s.node a).cnt.toNat + (nodeAt s.node b).cnt.toNat →
        FaultsWith .treeMerge s .countOverflow)) ∧
    (s.pq.length < 2 → FaultsWith .treeMerge s .pqUnderflow)

/-- `TREE.BUILD`: with `n >= 1` present symbols whose counts add up to at most `2^64 - 1` it completes with
`TREE_N = 2n - 1`, `PQ = {2n - 2}`, `ROOT = 2n - 2`, `ROOT_VALID = 1`, a tree of the shape of R20 to R22 over the leaves
of the histogram, and the root's count the sum of the counters; without one it faults with `EMPTY` (R126, R129, R130). -/
def Obligations.TreeBuildFinishes : Prop :=
  ∀ s : State, s.err = false →
    (present s.hist ≠ [] → (symbols.map (fun y => (tableGet s.hist y).toNat)).sum ≤ 2 ^ 64 - 1 →
      ∃ t, exec .treeBuild s = .next t ∧
        t = { s.clearDone with node := t.node, pq := [t.root], root := t.root, rootValid := true } ∧
        t.node.length = 2 * (present s.hist).length - 1 ∧ t.root.toNat = 2 * (present s.hist).length - 2 ∧
        (∃ inner, TreeShape t.node ((present s.hist).map (fun y => .leaf (tableGet s.hist y) y)) inner t.pq t.root
          true) ∧
        (nodeAt t.node t.root).cnt.toNat = (symbols.map (fun y => (tableGet s.hist y).toNat)).sum) ∧
    (present s.hist = [] → FaultsWith .treeBuild s .empty)

/-- The tree is a function of the histogram alone: from two unfaulted states with the same counters `TREE.BUILD` faults
in both or makes the same tree in both (R128). -/
def Obligations.TreeFromHistogramAlone : Prop :=
  ∀ s u t v : State, s.err = false → u.err = false → s.hist = u.hist →
    exec .treeBuild s = .next t → exec .treeBuild u = .next v →
    t.err = v.err ∧
    (t.err = false → t.node = v.node ∧ t.pq = v.pq ∧ t.root = v.root ∧ t.rootValid = v.rootValid)

/-! ### The code table -/

/-- `CODE.WALK`, from a tree of the shape of R20 to R22: without a finished tree it faults with `NO_TREE`, with a leaf
deeper than 63 with `CODE_TOO_LONG`; otherwise it completes, each symbol's code is its path from the root (0 left, 1
right), the code of a single leaf is `0`, symbols not in the tree have no entry, and the tree is discarded (R140 to
R145). -/
def Obligations.CodeWalkCodes : Prop :=
  ∀ s : State, s.err = false → TreeOk s →
    (s.rootValid = false → FaultsWith .codeWalk s .noTree) ∧
    (s.rootValid = true → (∃ bits y, leafAlong s.node bits s.root = some y ∧ 63 < bits.length) →
      FaultsWith .codeWalk s .codeTooLong) ∧
    (s.rootValid = true → (∀ bits y, leafAlong s.node bits s.root = some y → bits.length ≤ 63) →
      ∃ t, exec .codeWalk s = .next t ∧
        t = { s.clearDone with ct := t.ct, node := [], pq := [], root := 0, rootValid := false } ∧
        (∀ c y, nodeAt s.node s.root = .leaf c y →
          ∀ z, tableGet t.ct z = if z = y then some { code := 0, len := 1 } else none) ∧
        (∀ c l r, nodeAt s.node s.root = .internal c l r →
          (∀ bits y, leafAlong s.node bits s.root = some y →
            tableGet t.ct y = some { code := BitVec.ofNat 63 (bitsValue bits), len := BitVec.ofNat 6 bits.length }) ∧
          ∀ y, (∀ bits, leafAlong s.node bits s.root ≠ some y) → tableGet t.ct y = none))

/-! ### The header -/

/-- `HDR.WRITE`: with an entry, `HIST_TOTAL` at most `2^32 - 1` and room in the sink it completes, and the writer has
then accepted parts 1 to 4 of the file: the magic, the count less 1, the entries in ascending symbols, the size; the
faults `EMPTY`, `SIZE` and `SINK_FULL` come in that order (R70 to R74, R150, R151, R155). -/
def Obligations.HdrWriteHeader : Prop :=
  ∀ s : State, s.err = false →
    (1 ≤ ctCount s.ct → s.histTotal.toNat ≤ 2 ^ 32 - 1 →
      (s.takesBits (headerBits (tableEntries s.ct) s.histTotal.toNat).length →
        ∃ t, exec .hdrWrite s = .next t ∧
          t = { s.clearDone with bwAcc := t.bwAcc, bwCnt := t.bwCnt, snk := t.snk } ∧
          t.written = s.written ++ headerBits (tableEntries s.ct) s.histTotal.toNat ∧
          (s.bwAcc.toNat < 2 ^ s.bwCnt.toNat → t.bwAcc.toNat < 2 ^ t.bwCnt.toNat) ∧
          ∀ j, j < s.snk.length → t.snkRead j = s.snkRead j) ∧
      (s.sinkTakes 0 → ¬ s.takesBits (headerBits (tableEntries s.ct) s.histTotal.toNat).length →
        FaultsWith .hdrWrite s .sinkFull)) ∧
    (ctCount s.ct = 0 → FaultsWith .hdrWrite s .empty) ∧
    (1 ≤ ctCount s.ct → 2 ^ 32 ≤ s.histTotal.toNat → FaultsWith .hdrWrite s .size)

/-- `HDR.PARSE` accepts every header whose table is accepted (1 to 256 entries in any order, lengths 1 to 63, a prefix
code) and then holds that table and that size, with the reader at the first bit of the body; and where it ends without a
fault, such a header stood there (R152, R153, R154). -/
def Obligations.HdrParseAccepts : Prop :=
  ∀ s : State, s.err = false →
    (∀ (entries : List DecEntry) (size : Nat) (rest : List Bool), AcceptedTable entries → size < 2 ^ 32 →
      s.unread = headerBits entries size ++ rest →
      ∃ t, exec .hdrParse s = .next t ∧
        t = { s.clearDone with srcPos := t.srcPos, brByte := t.brByte, brCnt := t.brCnt, dt := entries,
                               decRem := BitVec.ofNat 32 size } ∧ t.unread = rest) ∧
    ∀ t, exec .hdrParse s = .next t → t.err = false →
      AcceptedTable t.dt ∧ s.unread = headerBits t.dt t.decRem.toNat ++ t.unread

/-- The faults of `HDR.PARSE` in stream order: a source that ends inside the magic, a wrong magic, a source that ends
inside the count, inside an entry's symbol, inside its length, a length of 0, a source that ends inside a code, inside
the size, and last a table that is no prefix code (R152, R153, R205). -/
def Obligations.HdrParseFaults : Prop :=
  ∀ s : State, s.err = false →
    (s.unread.length < 56 → FaultsWith .hdrParse s (.truncated .magic)) ∧
    (∀ m rest, m.length = 56 → m ≠ bitString 0x485546464D414E 56 → s.unread = m ++ rest →
      FaultsWith .hdrParse s .formatMismatch) ∧
    (∀ rest, rest.length < 8 → s.unread = bitString 0x485546464D414E 56 ++ rest →
      FaultsWith .hdrParse s (.truncated .count)) ∧
    ∀ (n : Nat) (es : List DecEntry) (rest : List Bool), 1 ≤ n → n ≤ 256 → es.length ≤ n → (∀ e ∈ es, EntryOk e) →
      s.unread = headerStart n es ++ rest →
      (es.length < n → rest.length < 8 → FaultsWith .hdrParse s (.truncated .entrySym)) ∧
      (∀ sym more, es.length < n → sym.length = 8 → rest = sym ++ more → more.length < 6 →
        FaultsWith .hdrParse s (.truncated .entryLen)) ∧
      (∀ sym more, es.length < n → sym.length = 8 → rest = sym ++ bitString 0 6 ++ more →
        FaultsWith .hdrParse s .badLen) ∧
      (∀ (sym more : List Bool) (len : BitVec 6), es.length < n → sym.length = 8 → len ≠ 0 →
        rest = sym ++ bitString len.toNat 6 ++ more → more.length < len.toNat →
        FaultsWith .hdrParse s (.truncated .entryCode)) ∧
      (es.length = n → rest.length < 32 → FaultsWith .hdrParse s (.truncated .size)) ∧
      (es.length = n → 32 ≤ rest.length → ¬ PrefixCode (es.map DecEntry.bits) → FaultsWith .hdrParse s .badTable)

/-! ### The encoder -/

/-- `ENC.SYM sym`: with an entry and room in the sink it completes, and the writer has then accepted the symbol's code,
most significant bit first; without an entry it faults with `NO_CODE`, without room with `SINK_FULL` (R170, R171). -/
def Obligations.EncSymWrites : Prop :=
  ∀ (s : State) (sym : Nat), s.err = false → sym < 256 →
    (∀ e, tableGet s.ct (BitVec.ofNat 8 sym) = some e →
      (s.takesBits e.len.toNat → ∃ t, exec (.encSym sym) s = .next t ∧
        t = { s.clearDone with bwAcc := t.bwAcc, bwCnt := t.bwCnt, snk := t.snk } ∧
        t.written = s.written ++ bitString e.code.toNat e.len.toNat ∧
        (s.bwAcc.toNat < 2 ^ s.bwCnt.toNat → t.bwAcc.toNat < 2 ^ t.bwCnt.toNat) ∧
        ∀ j, j < s.snk.length → t.snkRead j = s.snkRead j) ∧
      (s.sinkTakes 0 → ¬ s.takesBits e.len.toNat → FaultsWith (.encSym sym) s .sinkFull)) ∧
    (tableGet s.ct (BitVec.ofNat 8 sym) = none → FaultsWith (.encSym sym) s .noCode)

/-- `ENC.BODY`: where every source byte has an entry and the sink has room it completes, and the writer has then
accepted the codes of all source bytes in order; it faults with `NO_CODE` at the first byte without an entry, and with
`SINK_FULL` where the sink has no room; the bit reader is not touched (R75, R172). -/
def Obligations.EncBodyWrites : Prop :=
  ∀ s : State, s.err = false →
    ((∀ y ∈ s.source, s.ctValid y = true) →
      (s.takesBits (bodyBits s.ct s.source).length → ∃ t, exec .encBody s = .next t ∧
        t = { s.clearDone with bwAcc := t.bwAcc, bwCnt := t.bwCnt, snk := t.snk } ∧
        t.written = s.written ++ bodyBits s.ct s.source ∧
        (s.bwAcc.toNat < 2 ^ s.bwCnt.toNat → t.bwAcc.toNat < 2 ^ t.bwCnt.toNat) ∧
        ∀ j, j < s.snk.length → t.snkRead j = s.snkRead j) ∧
      (s.sinkTakes 0 → ¬ s.takesBits (bodyBits s.ct s.source).length → FaultsWith .encBody s .sinkFull)) ∧
    ∀ (before after : List Byte) (y : Byte), s.source = before ++ y :: after →
      (∀ z ∈ before, s.ctValid z = true) → s.ctValid y = false → s.takesBits (bodyBits s.ct before).length →
      FaultsWith .encBody s .noCode

/-- `ENCODE` of 1 to `2^32 - 1` bytes into a sink large enough completes with `DONE = 1`: the sink is the file of R70
(the header of a table with exactly the bytes that occur, the size, the codes of all bytes in order, zeros to the next
byte boundary), all of it forced to persist, and every other element is as R173 says. That no code is longer than 63
bits rests on the bound of R143 (R70 to R78, R173, R174, R185). -/
def Obligations.EncodeWritesFile : Prop :=
  ∀ s : State, s.err = false → StatusOk s → 1 ≤ s.srcLen.toNat → s.srcLen.toNat ≤ 2 ^ 32 - 1 →
    (∀ cap, s.cfg.snkCap = some cap → 2476 + 8 * s.srcLen.toNat ≤ cap.toNat) →
    ∃ t, exec .encodeJob s = .next t ∧
      t = { State.reset with hist := t.hist, histTotal := s.srcLen, ct := t.ct, snk := t.snk, snkSync := t.snkLen,
                             status := 0x0001, src := s.src, srcLen := s.srcLen, cfg := s.cfg, host := s.host,
                             faults := s.faults } ∧
      (∀ y, (tableGet t.hist y).toNat = occurrences y s.source) ∧
      (∀ y, t.ctValid y = true ↔ y ∈ s.source) ∧ AcceptedTable (tableEntries t.ct) ∧
      streamOf t.snk = zeroPad (headerBits (tableEntries t.ct) s.srcLen.toNat ++ bodyBits t.ct s.source)

/-- The faults of `ENCODE`: `EMPTY` for an empty input, `SIZE` for one longer than `2^32 - 1` bytes, and for every other
input none but `SINK_FULL` (R143, R173). -/
def Obligations.EncodeFaults : Prop :=
  ∀ s : State, s.err = false →
    (s.srcLen = 0 → FaultsWith .encodeJob s .empty) ∧
    (2 ^ 32 ≤ s.srcLen.toNat → FaultsWith .encodeJob s .size) ∧
    ∀ t, 1 ≤ s.srcLen.toNat → s.srcLen.toNat ≤ 2 ^ 32 - 1 → exec .encodeJob s = .next t → t.err = true →
      FaultedWith .sinkFull 0x7200000000000000#64 s t

/-! ### The decoder -/

/-- `DEC.SYM`, with a decode table as R24 says: it completes where the code of an entry stands next and the sink takes
its symbol, which goes to the sink and to `RES` while `DEC_REM` goes down; `DEC_REM = 0` faults with `DEC_UNDERFLOW`, a
full sink with `SINK_FULL`; where no entry's code stands next it faults with `NO_MATCH` if 64 bits are left, and with
`BODY` if fewer are (R180, R181). -/
def Obligations.DecSymDecodes : Prop :=
  ∀ s : State, s.err = false → DecodeTableOk s →
    (s.decRem = 0 → FaultsWith .decSym s .decUnderflow) ∧
    (s.decRem ≠ 0 → ∀ e ∈ s.dt, ∀ rest, s.unread = e.bits ++ rest →
      (s.sinkTakes 1 → ∃ t, exec .decSym s = .next t ∧
        t = { s.clearDone with srcPos := t.srcPos, brByte := t.brByte, brCnt := t.brCnt, snk := s.snk ++ [e.sym],
                               res := e.sym.setWidth 64, decRem := s.decRem - 1 } ∧ t.unread = rest) ∧
      (¬ s.sinkTakes 1 → FaultsWith .decSym s .sinkFull)) ∧
    (s.decRem ≠ 0 → (∀ e ∈ s.dt, ¬ e.bits <+: s.unread) →
      (64 ≤ s.unread.length → FaultsWith .decSym s .noMatch) ∧
      (s.unread.length < 64 → FaultsWith .decSym s (.truncated .body)))

/-- `DEC.BODY`, with a decode table as R24 says: where the codes of `DEC_REM` entries stand next and the sink takes their
symbols it completes, with those symbols appended in order, `DEC_REM = 0`, `RES` the last symbol (as before when there is
none) and the bits after the last code unread (R100, R182). -/
def Obligations.DecBodyDecodes : Prop :=
  ∀ (s : State) (es : List DecEntry) (rest : List Bool), s.err = false → DecodeTableOk s →
    es.length = s.decRem.toNat → (∀ e ∈ es, e ∈ s.dt) → s.unread = es.flatMap DecEntry.bits ++ rest →
    s.sinkTakes es.length →
    ∃ t, exec .decBody s = .next t ∧
      t = { s.clearDone with srcPos := t.srcPos, brByte := t.brByte, brCnt := t.brCnt,
                             snk := s.snk ++ es.map DecEntry.sym, res := t.res, decRem := 0 } ∧
      t.unread = rest ∧ t.res = ((es.map DecEntry.sym).getLast?.map (·.setWidth 64)).getD s.res

/-- `DECODE` of a file with an accepted table and as many codes as its size says, into a sink that takes them, completes
with `DONE = 1`: the sink is the decoded bytes, all of it forced to persist, whatever follows the last code is left
unread, and every other element is as R183 says (R100, R152, R182, R183). -/
def Obligations.DecodeReadsFile : Prop :=
  ∀ (s : State) (entries es : List DecEntry) (rest : List Bool), s.err = false → StatusOk s →
    AcceptedTable entries → es.length < 2 ^ 32 → (∀ e ∈ es, e ∈ entries) →
    streamOf s.source = headerBits entries es.length ++ es.flatMap DecEntry.bits ++ rest →
    (∀ cap, s.cfg.snkCap = some cap → es.length ≤ cap.toNat) →
    ∃ t, exec .decodeJob s = .next t ∧
      t = { State.reset with srcPos := t.srcPos, brByte := t.brByte, brCnt := t.brCnt, snk := es.map DecEntry.sym,
                             snkSync := BitVec.ofNat 64 es.length, dt := entries, res := t.res, status := 0x0001,
                             src := s.src, srcLen := s.srcLen, cfg := s.cfg, host := s.host, faults := s.faults } ∧
      t.unread = rest ∧ t.res = ((es.map DecEntry.sym).getLast?.map (·.setWidth 64)).getD 0

/-! ### The whole jobs -/

/-- The round trip: for every input of 1 to `2^32 - 1` bytes and a sink large enough, `ENCODE` ends with `DONE = 1`, and
with its output as the source buffer of any unfaulted engine whose sink takes the input, `DECODE` ends with `DONE = 1`
and the original bytes in the sink (R185, whose engine terms are the spec's own inference from R173, R183, R101 and
R144). -/
def Obligations.RoundTrip : Prop :=
  ∀ s : State, s.err = false → 1 ≤ s.srcLen.toNat → s.srcLen.toNat ≤ 2 ^ 32 - 1 →
    (∀ cap, s.cfg.snkCap = some cap → 2476 + 8 * s.srcLen.toNat ≤ cap.toNat) →
    ∃ t, exec .encodeJob s = .next t ∧ t.done = true ∧ t.err = false ∧
      ∀ u : State, u.err = false → u.source = t.snk →
        (∀ cap, u.cfg.snkCap = some cap → s.srcLen.toNat ≤ cap.toNat) →
        ∃ v, exec .decodeJob u = .next v ∧ v.done = true ∧ v.err = false ∧ v.snk = s.source

/-- `TREE.BUILD` is `TREE.INIT` and then `TREE.MERGE` until `PQ` has one member; a fault of a step is the fault of the
whole (R68 a). -/
def Obligations.TreeBuildComposes : Prop :=
  ∀ s t : State, s.err = false →
    runAll (.treeInit :: List.replicate ((present s.hist).length - 1) .treeMerge) s = .next t →
    ∃ v, exec .treeBuild s = .next v ∧ v.status = t.status ∧ (t.err = false → v = t)

/-- `HIST.SCAN` is `HIST.CLR` and then `HIST.ACC` of every source byte; `ENC.BODY` is `ENC.SYM` of every source byte; a
fault of a step is the fault of the whole. Of no source byte, `ENC.BODY` still clears `DONE` (R68 b, c). -/
def Obligations.PassesCompose : Prop :=
  (∀ s t : State, s.err = false →
    runAll (.histClr :: s.source.map (fun y => .histAcc y.toNat)) s = .next t →
    ∃ v, exec .histScan s = .next v ∧ v.status = t.status ∧ (t.err = false → v = t)) ∧
  ∀ s t : State, s.err = false → runAll (s.source.map (fun y => .encSym y.toNat)) s = .next t →
    ∃ v, exec .encBody s = .next v ∧ v.status = t.clearDone.status ∧ (t.err = false → v = t.clearDone)

/-- `DEC.BODY` is `DEC.SYM` repeated `DEC_REM` times; a fault of a step is the fault of the whole. With `DEC_REM = 0` it
still clears `DONE` (R68 d). -/
def Obligations.DecBodyComposes : Prop :=
  ∀ s t : State, s.err = false → runAll (List.replicate s.decRem.toNat .decSym) s = .next t →
    ∃ v, exec .decBody s = .next v ∧ v.status = t.clearDone.status ∧ (t.err = false → v = t.clearDone)

/-- `ENCODE` of 1 to `2^32 - 1` bytes is `CTL.RESET`, `HIST.SCAN`, `TREE.BUILD`, `CODE.WALK`, `HDR.WRITE`, `ENC.BODY`,
`BW.FLUSH`, but for `DONE`; `DECODE` is `CTL.RESET`, `HDR.PARSE`, `DEC.BODY`, but for `SNK_SYNC` and `DONE`; a fault of a
step is the fault of the whole (R68 e, f). -/
def Obligations.JobsCompose : Prop :=
  (∀ s t : State, s.err = false → StatusOk s → 1 ≤ s.srcLen.toNat → s.srcLen.toNat ≤ 2 ^ 32 - 1 →
    runAll [.ctlReset, .histScan, .treeBuild, .codeWalk, .hdrWrite, .encBody, .bwFlush] s = .next t →
    ∃ v, exec .encodeJob s = .next v ∧
      (t.err = true → v.status = t.status) ∧ (t.err = false → v = { t with status := 0x0001 })) ∧
  ∀ s t : State, s.err = false → StatusOk s → runAll [.ctlReset, .hdrParse, .decBody] s = .next t →
    ∃ v, exec .decodeJob s = .next v ∧
      (t.err = true → v.status = t.status) ∧
      (t.err = false → v = { t with snkSync := t.snkLen, status := 0x0001 })

/-- A job's result depends on the source buffer and the sink's capacity alone: two unfaulted states that agree in them
end the job with the same `STATUS` and sink, and without a fault with the same value of every engine-owned element
(R174, R231). -/
def Obligations.JobsDependOnSourceAlone : Prop :=
  ∀ (i : Instr) (s u t v : State), i = .encodeJob ∨ i = .decodeJob → s.err = false → u.err = false →
    StatusOk s → StatusOk u → s.srcLen = u.srcLen → s.source = u.source → s.cfg.snkCap = u.cfg.snkCap →
    exec i s = .next t → exec i u = .next v →
    t.status = v.status ∧ t.fcmd = v.fcmd ∧ t.snk = v.snk ∧ t.snkSync = v.snkSync ∧
    (t.err = false → t.toEngine = v.toEngine)

/-- Every command ends, in a next state: in a state whose tree has the shape of R20 to R22 (which `TreeKept` says every
step keeps) no command stops the machine (R200, R237). -/
def Obligations.EveryCommandEnds : Prop :=
  ∀ (i : Instr) (s : State), TreeOk s → ∃ t, exec i s = .next t
end

