-- ==== Sys2Proof/Laws/BitString.lean ====
section
/-! SUPPORT. Bit strings (00_scope.md R6): lengths, splitting, and that a value and its bit string determine one
another (40_bitstream.md R91, R97). -/

namespace Sys2Proof.Machine

open Sys2Proof

@[simp] theorem bitString_zero (v : Nat) : bitString v 0 = [] := rfl
theorem bitString_succ (v n : Nat) : bitString v (n + 1) = v.testBit n :: bitString v n := rfl

@[simp] theorem bitString_length (v n : Nat) : (bitString v n).length = n := by
  induction n with
  | zero => rfl
  | succ n ih => simp [bitString_succ, ih]

/-- Two numbers with the same low `n` bits have the same bit string. -/
theorem bitString_congr {v w n : Nat} (h : ∀ i < n, v.testBit i = w.testBit i) :
    bitString v n = bitString w n := by
  induction n with
  | zero => rfl
  | succ n ih =>
    rw [bitString_succ, bitString_succ, h n (by omega), ih fun i hi => h i (by omega)]

/-- One more bit at the end of the bit string: the value is shifted left (R90). -/
theorem bitString_shift (v n : Nat) (b : Bool) :
    bitString (2 * v + b.toNat) (n + 1) = bitString v n ++ [b] := by
  induction n with
  | zero => cases b <;> simp [bitString_succ, Nat.testBit_zero]
  | succ n ih =>
    rw [bitString_succ, ih, bitString_succ v n]
    cases b <;> simp [Nat.testBit_succ]
    congr 1; omega

@[simp] theorem byteBits_length (b : Byte) : (byteBits b).length = 8 := bitString_length _ _

@[simp] theorem streamOf_nil : streamOf [] = [] := rfl
@[simp] theorem streamOf_cons (b : Byte) (l : List Byte) : streamOf (b :: l) = byteBits b ++ streamOf l := by
  simp [streamOf]
@[simp] theorem streamOf_append (l m : List Byte) : streamOf (l ++ m) = streamOf l ++ streamOf m := by
  simp [streamOf]
@[simp] theorem streamOf_length (l : List Byte) : (streamOf l).length = 8 * l.length := by
  induction l with
  | nil => rfl
  | cons b l ih => simp [ih]; omega

/-- The loop of `GetBits` from a value already read (R97). -/
theorem bitsValue_foldl (bits : List Bool) (v : Nat) :
    bits.foldl (fun v b => 2 * v + b.toNat) v = v * 2 ^ bits.length + bitsValue bits := by
  unfold bitsValue
  induction bits generalizing v with
  | nil => simp
  | cons b bits ih =>
    rw [List.foldl_cons, ih, List.foldl_cons, ih (2 * 0 + b.toNat), List.length_cons, Nat.pow_succ,
      Nat.add_mul, Nat.mul_comm 2 v, Nat.mul_assoc v 2, Nat.mul_comm 2 (2 ^ bits.length)]
    simp only [Nat.mul_zero, Nat.zero_add]
    omega

theorem bitsValue_cons (b : Bool) (bits : List Bool) :
    bitsValue (b :: bits) = b.toNat * 2 ^ bits.length + bitsValue bits := by
  rw [← bitsValue_foldl bits b.toNat]; simp [bitsValue]

@[simp] theorem bitsValue_nil : bitsValue [] = 0 := rfl

/-- A bit string of `n` bits spells a number below `2^n` (R97). -/
theorem bitsValue_lt (bits : List Bool) : bitsValue bits < 2 ^ bits.length := by
  induction bits with
  | nil => simp
  | cons b bits ih =>
    rw [bitsValue_cons, List.length_cons, Nat.pow_succ]
    have : b.toNat ≤ 1 := by cases b <;> simp
    have : b.toNat * 2 ^ bits.length ≤ 1 * 2 ^ bits.length := Nat.mul_le_mul_right _ this
    omega

/-- Reading back what a number spells gives its low `n` bits (R97, R101). -/
theorem bitsValue_bitString (v n : Nat) : bitsValue (bitString v n) = v % 2 ^ n := by
  induction n with
  | zero => simp [Nat.mod_one]
  | succ n ih =>
    rw [bitString_succ, bitsValue_cons, bitString_length, ih, Nat.mod_pow_succ, Nat.testBit_eq_decide_div_mod_eq]
    rcases Nat.mod_two_eq_zero_or_one (v / 2 ^ n) with h | h
    · simp [h]
    · simp [h]; omega

theorem bitsValue_bitString_of_lt {v n : Nat} (h : v < 2 ^ n) : bitsValue (bitString v n) = v := by
  rw [bitsValue_bitString, Nat.mod_eq_of_lt h]

/-- A bit string is the one its number spells. -/
theorem bitString_bitsValue (bits : List Bool) : bitString (bitsValue bits) bits.length = bits := by
  have key : ∀ (bs : List Bool) (v : Nat),
      bitString (v * 2 ^ bs.length + bitsValue bs) bs.length = bs := by
    intro bs
    induction bs with
    | nil => intro v; rfl
    | cons b bs ih =>
      intro v
      have hlt := bitsValue_lt bs
      rw [List.length_cons, bitString_succ, bitsValue_cons]
      have e : v * 2 ^ (bs.length + 1) + (b.toNat * 2 ^ bs.length + bitsValue bs)
          = (2 * v + b.toNat) * 2 ^ bs.length + bitsValue bs := by ring
      rw [e, ih (2 * v + b.toNat)]
      congr 1
      rw [Nat.testBit_eq_decide_div_mod_eq,
        show ((2 * v + b.toNat) * 2 ^ bs.length + bitsValue bs) / 2 ^ bs.length = 2 * v + b.toNat by
          rw [Nat.mul_comm, Nat.mul_add_div (Nat.two_pow_pos _), Nat.div_eq_of_lt hlt]; omega]
      cases b <;> simp
  simpa using key bits 0

theorem bitString_bitsValue_of_length {bits : List Bool} {n : Nat} (h : bits.length = n) :
    bitString (bitsValue bits) n = bits := by rw [← h, bitString_bitsValue]

/-- A number below `2^n` is determined by its bit string. -/
theorem bitString_inj {v w n : Nat} (hv : v < 2 ^ n) (hw : w < 2 ^ n) (h : bitString v n = bitString w n) :
    v = w := by
  rw [← bitsValue_bitString_of_lt hv, h, bitsValue_bitString_of_lt hw]

end Sys2Proof.Machine
end

