-- ==== Sys2Proof/Laws/State.lean ====
section
/-! SUPPORT. The state's updates field by field: one lemma per field per update, true by definition, so that
no proof unfolds a record update; and how pieces of pseudocode run one after another. -/

namespace Sys2Proof.Machine

open Sys2Proof

/-! ### Sequencing -/

@[simp] theorem ok_bind {α β : Type} (a : α) (f : α → Exec β) : ((.ok a : Exec α) >>= f) = f a := rfl
@[simp] theorem error_bind {α β : Type} (e : Stop) (f : α → Exec β) :
    ((.error e : Exec α) >>= f) = .error e := rfl

/-- A sequence ends well exactly when its first piece does and the rest does from there. -/
theorem bind_eq_ok {α β : Type} {x : Exec α} {f : α → Exec β} {b : β} :
    (x >>= f) = .ok b ↔ ∃ a, x = .ok a ∧ f a = .ok b := by
  cases x <;> simp

/-- A sequence ends early exactly when its first piece does or the rest does from there. -/
theorem bind_eq_error {α β : Type} {x : Exec α} {f : α → Exec β} {e : Stop} :
    (x >>= f) = .error e ↔ x = .error e ∨ ∃ a, x = .ok a ∧ f a = .error e := by
  cases x <;> simp

theorem raise_ne_ok {α : Type} {t : Trap} {a : α} : (raise t : Exec α) ≠ .ok a := by simp

/-! ### The reset values of the engine-owned elements (R29) -/

@[simp] theorem Engine.reset_srcPos  : Engine.reset.srcPos = 0 := rfl
@[simp] theorem Engine.reset_brByte  : Engine.reset.brByte = 0 := rfl
@[simp] theorem Engine.reset_brCnt  : Engine.reset.brCnt = 0 := rfl
@[simp] theorem Engine.reset_bwAcc  : Engine.reset.bwAcc = 0 := rfl
@[simp] theorem Engine.reset_bwCnt  : Engine.reset.bwCnt = 0 := rfl
@[simp] theorem Engine.reset_res  : Engine.reset.res = 0 := rfl
@[simp] theorem Engine.reset_hist  : Engine.reset.hist = Vector.replicate 256 0 := rfl
@[simp] theorem Engine.reset_histTotal  : Engine.reset.histTotal = 0 := rfl
@[simp] theorem Engine.reset_node  : Engine.reset.node = [] := rfl
@[simp] theorem Engine.reset_pq  : Engine.reset.pq = [] := rfl
@[simp] theorem Engine.reset_root  : Engine.reset.root = 0 := rfl
@[simp] theorem Engine.reset_rootValid  : Engine.reset.rootValid = false := rfl
@[simp] theorem Engine.reset_ct  : Engine.reset.ct = Vector.replicate 256 none := rfl
@[simp] theorem Engine.reset_dt  : Engine.reset.dt = [] := rfl
@[simp] theorem Engine.reset_decRem  : Engine.reset.decRem = 0 := rfl

/-! ### The reset state (R29) -/

@[simp] theorem State.reset_toEngine  : State.reset.toEngine = Engine.reset := rfl
@[simp] theorem State.reset_src  : State.reset.src = [] := rfl
@[simp] theorem State.reset_srcLen  : State.reset.srcLen = 0 := rfl
@[simp] theorem State.reset_snk  : State.reset.snk = [] := rfl
@[simp] theorem State.reset_snkSync  : State.reset.snkSync = 0 := rfl
@[simp] theorem State.reset_status  : State.reset.status = 0 := rfl
@[simp] theorem State.reset_fcmd  : State.reset.fcmd = 0 := rfl
@[simp] theorem State.reset_cfg  : State.reset.cfg = Config.standard := rfl
@[simp] theorem State.reset_host  : State.reset.host = [] := rfl
@[simp] theorem State.reset_faults  : State.reset.faults = 0 := rfl

/-! ### `STATUS.DONE <- 0` -/

@[simp] theorem State.clearDone_toEngine (s : State) : (s.clearDone).toEngine = s.toEngine := rfl
@[simp] theorem State.clearDone_src (s : State) : (s.clearDone).src = s.src := rfl
@[simp] theorem State.clearDone_srcLen (s : State) : (s.clearDone).srcLen = s.srcLen := rfl
@[simp] theorem State.clearDone_snk (s : State) : (s.clearDone).snk = s.snk := rfl
@[simp] theorem State.clearDone_snkSync (s : State) : (s.clearDone).snkSync = s.snkSync := rfl
@[simp] theorem State.clearDone_status (s : State) : (s.clearDone).status = s.status &&& 0xFFFE#16 := rfl
@[simp] theorem State.clearDone_fcmd (s : State) : (s.clearDone).fcmd = s.fcmd := rfl
@[simp] theorem State.clearDone_cfg (s : State) : (s.clearDone).cfg = s.cfg := rfl
@[simp] theorem State.clearDone_host (s : State) : (s.clearDone).host = s.host := rfl
@[simp] theorem State.clearDone_faults (s : State) : (s.clearDone).faults = s.faults := rfl


/-! ### `STATUS.DONE <- 1` -/

@[simp] theorem State.setDone_toEngine (s : State) : (s.setDone).toEngine = s.toEngine := rfl
@[simp] theorem State.setDone_src (s : State) : (s.setDone).src = s.src := rfl
@[simp] theorem State.setDone_srcLen (s : State) : (s.setDone).srcLen = s.srcLen := rfl
@[simp] theorem State.setDone_snk (s : State) : (s.setDone).snk = s.snk := rfl
@[simp] theorem State.setDone_snkSync (s : State) : (s.setDone).snkSync = s.snkSync := rfl
@[simp] theorem State.setDone_status (s : State) : (s.setDone).status = s.status ||| 0x0001#16 := rfl
@[simp] theorem State.setDone_fcmd (s : State) : (s.setDone).fcmd = s.fcmd := rfl
@[simp] theorem State.setDone_cfg (s : State) : (s.setDone).cfg = s.cfg := rfl
@[simp] theorem State.setDone_host (s : State) : (s.setDone).host = s.host := rfl
@[simp] theorem State.setDone_faults (s : State) : (s.setDone).faults = s.faults := rfl

/-! ### `RES <- v` -/

@[simp] theorem setRes_srcPos (v : Nat) (s : State) : (setRes v s).srcPos = s.srcPos := rfl
@[simp] theorem setRes_brByte (v : Nat) (s : State) : (setRes v s).brByte = s.brByte := rfl
@[simp] theorem setRes_brCnt (v : Nat) (s : State) : (setRes v s).brCnt = s.brCnt := rfl
@[simp] theorem setRes_bwAcc (v : Nat) (s : State) : (setRes v s).bwAcc = s.bwAcc := rfl
@[simp] theorem setRes_bwCnt (v : Nat) (s : State) : (setRes v s).bwCnt = s.bwCnt := rfl
@[simp] theorem setRes_res (v : Nat) (s : State) : (setRes v s).res = BitVec.ofNat 64 v := rfl
@[simp] theorem setRes_hist (v : Nat) (s : State) : (setRes v s).hist = s.hist := rfl
@[simp] theorem setRes_histTotal (v : Nat) (s : State) : (setRes v s).histTotal = s.histTotal := rfl
@[simp] theorem setRes_node (v : Nat) (s : State) : (setRes v s).node = s.node := rfl
@[simp] theorem setRes_pq (v : Nat) (s : State) : (setRes v s).pq = s.pq := rfl
@[simp] theorem setRes_root (v : Nat) (s : State) : (setRes v s).root = s.root := rfl
@[simp] theorem setRes_rootValid (v : Nat) (s : State) : (setRes v s).rootValid = s.rootValid := rfl
@[simp] theorem setRes_ct (v : Nat) (s : State) : (setRes v s).ct = s.ct := rfl
@[simp] theorem setRes_dt (v : Nat) (s : State) : (setRes v s).dt = s.dt := rfl
@[simp] theorem setRes_decRem (v : Nat) (s : State) : (setRes v s).decRem = s.decRem := rfl
@[simp] theorem setRes_src (v : Nat) (s : State) : (setRes v s).src = s.src := rfl
@[simp] theorem setRes_srcLen (v : Nat) (s : State) : (setRes v s).srcLen = s.srcLen := rfl
@[simp] theorem setRes_snk (v : Nat) (s : State) : (setRes v s).snk = s.snk := rfl
@[simp] theorem setRes_snkSync (v : Nat) (s : State) : (setRes v s).snkSync = s.snkSync := rfl
@[simp] theorem setRes_status (v : Nat) (s : State) : (setRes v s).status = s.status := rfl
@[simp] theorem setRes_fcmd (v : Nat) (s : State) : (setRes v s).fcmd = s.fcmd := rfl
@[simp] theorem setRes_cfg (v : Nat) (s : State) : (setRes v s).cfg = s.cfg := rfl
@[simp] theorem setRes_host (v : Nat) (s : State) : (setRes v s).host = s.host := rfl
@[simp] theorem setRes_faults (v : Nat) (s : State) : (setRes v s).faults = s.faults := rfl

/-! ### `HistClear()` -/

@[simp] theorem histClear_srcPos (s : State) : (histClear s).srcPos = s.srcPos := rfl
@[simp] theorem histClear_brByte (s : State) : (histClear s).brByte = s.brByte := rfl
@[simp] theorem histClear_brCnt (s : State) : (histClear s).brCnt = s.brCnt := rfl
@[simp] theorem histClear_bwAcc (s : State) : (histClear s).bwAcc = s.bwAcc := rfl
@[simp] theorem histClear_bwCnt (s : State) : (histClear s).bwCnt = s.bwCnt := rfl
@[simp] theorem histClear_res (s : State) : (histClear s).res = s.res := rfl
@[simp] theorem histClear_hist (s : State) : (histClear s).hist = Vector.replicate 256 0 := rfl
@[simp] theorem histClear_histTotal (s : State) : (histClear s).histTotal = 0 := rfl
@[simp] theorem histClear_node (s : State) : (histClear s).node = s.node := rfl
@[simp] theorem histClear_pq (s : State) : (histClear s).pq = s.pq := rfl
@[simp] theorem histClear_root (s : State) : (histClear s).root = s.root := rfl
@[simp] theorem histClear_rootValid (s : State) : (histClear s).rootValid = s.rootValid := rfl
@[simp] theorem histClear_ct (s : State) : (histClear s).ct = s.ct := rfl
@[simp] theorem histClear_dt (s : State) : (histClear s).dt = s.dt := rfl
@[simp] theorem histClear_decRem (s : State) : (histClear s).decRem = s.decRem := rfl
@[simp] theorem histClear_src (s : State) : (histClear s).src = s.src := rfl
@[simp] theorem histClear_srcLen (s : State) : (histClear s).srcLen = s.srcLen := rfl
@[simp] theorem histClear_snk (s : State) : (histClear s).snk = s.snk := rfl
@[simp] theorem histClear_snkSync (s : State) : (histClear s).snkSync = s.snkSync := rfl
@[simp] theorem histClear_status (s : State) : (histClear s).status = s.status := rfl
@[simp] theorem histClear_fcmd (s : State) : (histClear s).fcmd = s.fcmd := rfl
@[simp] theorem histClear_cfg (s : State) : (histClear s).cfg = s.cfg := rfl
@[simp] theorem histClear_host (s : State) : (histClear s).host = s.host := rfl
@[simp] theorem histClear_faults (s : State) : (histClear s).faults = s.faults := rfl

/-! ### The tree discarded -/

@[simp] theorem discardTree_srcPos (s : State) : (discardTree s).srcPos = s.srcPos := rfl
@[simp] theorem discardTree_brByte (s : State) : (discardTree s).brByte = s.brByte := rfl
@[simp] theorem discardTree_brCnt (s : State) : (discardTree s).brCnt = s.brCnt := rfl
@[simp] theorem discardTree_bwAcc (s : State) : (discardTree s).bwAcc = s.bwAcc := rfl
@[simp] theorem discardTree_bwCnt (s : State) : (discardTree s).bwCnt = s.bwCnt := rfl
@[simp] theorem discardTree_res (s : State) : (discardTree s).res = s.res := rfl
@[simp] theorem discardTree_hist (s : State) : (discardTree s).hist = s.hist := rfl
@[simp] theorem discardTree_histTotal (s : State) : (discardTree s).histTotal = s.histTotal := rfl
@[simp] theorem discardTree_node (s : State) : (discardTree s).node = [] := rfl
@[simp] theorem discardTree_pq (s : State) : (discardTree s).pq = [] := rfl
@[simp] theorem discardTree_root (s : State) : (discardTree s).root = 0 := rfl
@[simp] theorem discardTree_rootValid (s : State) : (discardTree s).rootValid = false := rfl
@[simp] theorem discardTree_ct (s : State) : (discardTree s).ct = s.ct := rfl
@[simp] theorem discardTree_dt (s : State) : (discardTree s).dt = s.dt := rfl
@[simp] theorem discardTree_decRem (s : State) : (discardTree s).decRem = s.decRem := rfl
@[simp] theorem discardTree_src (s : State) : (discardTree s).src = s.src := rfl
@[simp] theorem discardTree_srcLen (s : State) : (discardTree s).srcLen = s.srcLen := rfl
@[simp] theorem discardTree_snk (s : State) : (discardTree s).snk = s.snk := rfl
@[simp] theorem discardTree_snkSync (s : State) : (discardTree s).snkSync = s.snkSync := rfl
@[simp] theorem discardTree_status (s : State) : (discardTree s).status = s.status := rfl
@[simp] theorem discardTree_fcmd (s : State) : (discardTree s).fcmd = s.fcmd := rfl
@[simp] theorem discardTree_cfg (s : State) : (discardTree s).cfg = s.cfg := rfl
@[simp] theorem discardTree_host (s : State) : (discardTree s).host = s.host := rfl
@[simp] theorem discardTree_faults (s : State) : (discardTree s).faults = s.faults := rfl

/-! ### `Init()` -/

@[simp] theorem State.init_toEngine (s : State) : (s.init).toEngine = Engine.reset := rfl
@[simp] theorem State.init_src (s : State) : (s.init).src = s.src := rfl
@[simp] theorem State.init_srcLen (s : State) : (s.init).srcLen = s.srcLen := rfl
@[simp] theorem State.init_snk (s : State) : (s.init).snk = [] := rfl
@[simp] theorem State.init_snkSync (s : State) : (s.init).snkSync = 0 := rfl
@[simp] theorem State.init_status (s : State) : (s.init).status = s.status := rfl
@[simp] theorem State.init_fcmd (s : State) : (s.init).fcmd = s.fcmd := rfl
@[simp] theorem State.init_cfg (s : State) : (s.init).cfg = s.cfg := rfl
@[simp] theorem State.init_host (s : State) : (s.init).host = s.host := rfl
@[simp] theorem State.init_faults (s : State) : (s.init).faults = s.faults := rfl

/-! ### The way back, `CTL.RESET` -/

@[simp] theorem State.leaveFault_toEngine (s : State) : (s.leaveFault).toEngine = Engine.reset := rfl
@[simp] theorem State.leaveFault_src (s : State) : (s.leaveFault).src = s.src := rfl
@[simp] theorem State.leaveFault_srcLen (s : State) : (s.leaveFault).srcLen = s.srcLen := rfl
@[simp] theorem State.leaveFault_snk (s : State) : (s.leaveFault).snk = [] := rfl
@[simp] theorem State.leaveFault_snkSync (s : State) : (s.leaveFault).snkSync = 0 := rfl
@[simp] theorem State.leaveFault_status (s : State) : (s.leaveFault).status = 0 := rfl
@[simp] theorem State.leaveFault_fcmd (s : State) : (s.leaveFault).fcmd = 0 := rfl
@[simp] theorem State.leaveFault_cfg (s : State) : (s.leaveFault).cfg = s.cfg := rfl
@[simp] theorem State.leaveFault_host (s : State) : (s.leaveFault).host = s.host := rfl
@[simp] theorem State.leaveFault_faults (s : State) : (s.leaveFault).faults = s.faults := rfl

/-! ### Fault entry -/

@[simp] theorem State.enterFault_toEngine (t : Trap) (w : Word) (s : State) : (s.enterFault t w).toEngine = Config.afterFault s w := rfl
@[simp] theorem State.enterFault_src (t : Trap) (w : Word) (s : State) : (s.enterFault t w).src = s.src := rfl
@[simp] theorem State.enterFault_srcLen (t : Trap) (w : Word) (s : State) : (s.enterFault t w).srcLen = s.srcLen := rfl
@[simp] theorem State.enterFault_snk (t : Trap) (w : Word) (s : State) : (s.enterFault t w).snk = [] := rfl
@[simp] theorem State.enterFault_snkSync (t : Trap) (w : Word) (s : State) : (s.enterFault t w).snkSync = 0 := rfl
@[simp] theorem State.enterFault_status (t : Trap) (w : Word) (s : State) : (s.enterFault t w).status = t.status := rfl
@[simp] theorem State.enterFault_fcmd (t : Trap) (w : Word) (s : State) : (s.enterFault t w).fcmd = w := rfl
@[simp] theorem State.enterFault_cfg (t : Trap) (w : Word) (s : State) : (s.enterFault t w).cfg = s.cfg := rfl
@[simp] theorem State.enterFault_host (t : Trap) (w : Word) (s : State) : (s.enterFault t w).host = s.host := rfl
@[simp] theorem State.enterFault_faults (t : Trap) (w : Word) (s : State) : (s.enterFault t w).faults = s.faults + 1 := rfl

/-! ### `STATUS` as a whole -/

@[simp] theorem State.clearDone_err (s : State) : s.clearDone.err = s.err := by
  simp [State.err]
@[simp] theorem State.clearDone_done (s : State) : s.clearDone.done = false := by
  simp [State.done]
@[simp] theorem State.setDone_err (s : State) : s.setDone.err = s.err := by
  simp [State.err]
@[simp] theorem State.setDone_done (s : State) : s.setDone.done = true := by
  simp [State.done]
@[simp] theorem State.init_err (s : State) : s.init.err = s.err := rfl
@[simp] theorem State.init_done (s : State) : s.init.done = s.done := rfl
@[simp] theorem State.leaveFault_err (s : State) : s.leaveFault.err = false := by simp [State.err]
@[simp] theorem State.leaveFault_done (s : State) : s.leaveFault.done = false := by simp [State.done]

/-- `STATUS` after a fault has `ERR = 1` and `DONE = 0` (R203). -/
theorem Trap.status_flags (t : Trap) : t.status.getLsbD 1 = true ∧ t.status.getLsbD 0 = false := by
  cases t with
  | truncated tag => cases tag <;> decide
  | _ => decide

/-- `STATUS` after a fault has its reserved bits 0 (R17, R203). -/
theorem Trap.status_reserved (t : Trap) : t.status &&& ~~~statusFieldMask = 0 := by
  cases t with
  | truncated tag => cases tag <;> decide
  | _ => decide

/-- `STATUS` after a fault reports the cause and the sub-cause (R203). -/
theorem Trap.status_fields (t : Trap) :
    t.status.extractLsb' 4 3 = t.cause ∧ t.status.extractLsb' 8 4 = t.sub := by
  cases t with
  | truncated tag => cases tag <;> decide
  | _ => decide

@[simp] theorem State.enterFault_err (t : Trap) (w : Word) (s : State) : (s.enterFault t w).err = true :=
  t.status_flags.1
@[simp] theorem State.enterFault_done (t : Trap) (w : Word) (s : State) : (s.enterFault t w).done = false :=
  t.status_flags.2

end Sys2Proof.Machine
end

