-- ==== Sys2Proof/Laws/Histogram.lean ====
section
/-! SUPPORT. Tables indexed by a symbol, the passes over the source buffer, and the histogram's primitives
(41_histogram.md R110, R111, R114). -/

namespace Sys2Proof.Machine

open Sys2Proof

/-! ### Tables indexed by a symbol -/

@[simp] theorem tableGet_tableSet_same {α : Type} (t : Vector α 256) (y : Byte) (v : α) :
    tableGet (tableSet t y v) y = v := by simp [tableGet, tableSet]

theorem tableGet_tableSet_other {α : Type} (t : Vector α 256) {y z : Byte} (v : α) (h : z ≠ y) :
    tableGet (tableSet t y v) z = tableGet t z := by
  have : y.toNat ≠ z.toNat := fun e => h (BitVec.eq_of_toNat_eq e.symm)
  simp [tableGet, tableSet, Vector.getElem_set_ne, this]

theorem tableGet_tableSet {α : Type} (t : Vector α 256) (y z : Byte) (v : α) :
    tableGet (tableSet t y v) z = if z = y then v else tableGet t z := by
  split
  · rename_i h; subst h; simp
  · rename_i h; exact tableGet_tableSet_other t v h

@[simp] theorem tableGet_replicate {α : Type} (v : α) (y : Byte) :
    tableGet (Vector.replicate 256 v) y = v := by simp [tableGet]

/-- Two tables with the same entries are equal. -/
theorem table_ext {α : Type} {t u : Vector α 256} (h : ∀ y, tableGet t y = tableGet u y) : t = u := by
  apply Vector.ext
  intro i hi
  have := h (BitVec.ofNat 8 i)
  simpa [tableGet, Nat.mod_eq_of_lt hi] using this

/-! ### The symbols -/

theorem mem_symbols (y : Byte) : y ∈ symbols :=
  List.mem_map.2 ⟨y.toNat, by simpa using y.isLt, by simp⟩

theorem symbols_rising : symbols.Pairwise (· < ·) := by
  unfold symbols
  rw [List.pairwise_map]
  refine List.Pairwise.imp_of_mem ?_ List.pairwise_lt_range
  intro a b ha hb h
  rw [List.mem_range] at ha hb
  simp [BitVec.lt_def]
  omega

theorem symbols_nodup : symbols.Nodup :=
  symbols_rising.imp fun h => by rintro rfl; exact absurd h (by simp)

@[simp] theorem symbols_length : symbols.length = 256 := by simp [symbols]

/-! ### Passes over the source buffer -/

/-- A pass that leaves `SRC` alone runs its command over the source buffer, byte by byte. -/
theorem overSource_eq {f : Byte → State → Exec State} (hf : ∀ y s t, f y s = .ok t → t.src = s.src)
    (n i : Nat) (s : State) :
    overSource f n i s = ((List.range' i n).map s.srcRead).foldlM (fun s y => f y s) s := by
  induction n generalizing i s with
  | zero => rfl
  | succ n ih =>
    rw [overSource, List.range'_succ, List.map_cons, List.foldlM_cons]
    match h : f (s.srcRead i) s with
    | .error e => rfl
    | .ok t =>
      have hs : t.srcRead = s.srcRead := by funext j; simp [State.srcRead, hf _ _ _ h]
      simp only [ok_bind]
      rw [ih, hs]

theorem overSource_source {f : Byte → State → Exec State} (hf : ∀ y s t, f y s = .ok t → t.src = s.src)
    (s : State) : overSource f s.srcLen.toNat 0 s = s.source.foldlM (fun s y => f y s) s := by
  rw [overSource_eq hf, List.range'_eq_map_range]
  simp [State.source]

/-! ### `HistAcc` -/

theorem allOnes_toNat_64 : (BitVec.allOnes 64).toNat = 2 ^ 64 - 1 := by decide

/-- From `s` to `t` the bytes listed were counted, and nothing else has changed. -/
structure Counted (bytes : List Byte) (s t : State) : Prop where
  frame : t = { s with hist := t.hist, histTotal := t.histTotal }
  counts : ∀ y, (tableGet t.hist y).toNat = (tableGet s.hist y).toNat + occurrences y bytes
  total : t.histTotal.toNat = s.histTotal.toNat + bytes.length

theorem Counted.refl (s : State) : Counted [] s s := ⟨rfl, fun y => by simp [occurrences], by simp⟩

theorem Counted.trans {b c : List Byte} {s t u : State} (h : Counted b s t) (h' : Counted c t u) :
    Counted (b ++ c) s u where
  frame := by
    have e := h'.frame
    rw [h.frame] at e
    exact e
  counts y := by rw [h'.counts, h.counts]; simp [occurrences, Nat.add_assoc]
  total := by rw [h'.total, h.total]; simp [Nat.add_assoc]

theorem count_succ {c : Count} (h : c ≠ BitVec.allOnes 64) : (c + 1).toNat = c.toNat + 1 := by
  have : c.toNat ≠ 2 ^ 64 - 1 := fun e => h (BitVec.eq_of_toNat_eq (by rw [e]; decide))
  have := c.isLt
  rw [BitVec.toNat_add]
  simp; omega

/-- `HistAcc(s)` when it ends well (R111). -/
theorem histAcc_ok {y : Byte} {s t : State} (h : histAcc y s = .ok t) : Counted [y] s t := by
  unfold histAcc at h
  split at h
  · cases h
  · rename_i hn
    rw [not_or] at hn
    cases h
    refine ⟨rfl, fun z => ?_, count_succ hn.2⟩
    simp only [tableGet_tableSet]
    split
    · rename_i e; subst e; rw [count_succ hn.1]; simp [occurrences]
    · rename_i e; simp [occurrences, Ne.symm e]

/-- `HistAcc(s)` ends well below the top of both counters (R111). -/
theorem histAcc_succeeds {y : Byte} {s : State} (h : (tableGet s.hist y).toNat < 2 ^ 64 - 1)
    (ht : s.histTotal.toNat < 2 ^ 64 - 1) : ∃ t, histAcc y s = .ok t := by
  have h1 : tableGet s.hist y ≠ BitVec.allOnes 64 := fun e => by rw [e, allOnes_toNat_64] at h; omega
  have h2 : s.histTotal ≠ BitVec.allOnes 64 := fun e => by rw [e, allOnes_toNat_64] at ht; omega
  exact ⟨_, if_neg (not_or.2 ⟨h1, h2⟩)⟩

/-- `HistAcc(s)` can only overflow (R111). -/
theorem histAcc_error {y : Byte} {s : State} {e : Stop} (h : histAcc y s = .error e) :
    e = .trap .countOverflow := by
  unfold histAcc at h
  split at h
  · cases h; rfl
  · cases h

theorem histAcc_src {y : Byte} {s t : State} (h : histAcc y s = .ok t) : t.src = s.src := by
  rw [(histAcc_ok h).frame]

/-- The count pass over a list of bytes that still fits: it ends well and counts each of them (R111). -/
theorem countBytes {bytes : List Byte} {s : State}
    (hb : ∀ y, (tableGet s.hist y).toNat + occurrences y bytes ≤ 2 ^ 64 - 1)
    (ht : s.histTotal.toNat + bytes.length ≤ 2 ^ 64 - 1) :
    ∃ t, bytes.foldlM (fun s y => histAcc y s) s = .ok t ∧ Counted bytes s t := by
  induction bytes generalizing s with
  | nil => exact ⟨s, rfl, Counted.refl s⟩
  | cons y bytes ih =>
    have hy := hb y
    simp [occurrences] at hy ht
    obtain ⟨u, hu⟩ := histAcc_succeeds (y := y) (s := s) (by omega) (by omega)
    have hc := histAcc_ok hu
    obtain ⟨t, ht', hct⟩ := ih (s := u)
      (fun z => by
        have := hb z
        have := hc.counts z
        simp [occurrences, List.count_cons] at *
        omega)
      (by have := hc.total; simp at this; omega)
    exact ⟨t, by simp [hu, ht'], hc.trans hct⟩

/-- The count pass always ends well, with the counts of the source buffer and its length as the total
(R114). -/
theorem countPass_counts (s : State) : ∃ t, countPass s = .ok t ∧
    t = { s with hist := t.hist, histTotal := t.histTotal } ∧
    (∀ y, (tableGet t.hist y).toNat = occurrences y s.source) ∧ t.histTotal = s.srcLen := by
  have hlen : s.source.length = s.srcLen.toNat := by simp [State.source]
  have hlt := s.srcLen.isLt
  have hsrc : (histClear s).source = s.source := rfl
  obtain ⟨t, ht, hc⟩ := countBytes (bytes := s.source) (s := histClear s)
    (fun y => by
      have := List.count_le_length (a := y) (l := s.source)
      simp [occurrences]; omega)
    (by simp; omega)
  refine ⟨t, ?_, hc.frame, fun y => by simpa using hc.counts y, BitVec.eq_of_toNat_eq ?_⟩
  · unfold countPass
    rw [show s.srcLen = (histClear s).srcLen from rfl, overSource_source (fun _ _ _ => histAcc_src), hsrc]
    exact ht
  · simpa [hlen] using hc.total

end Sys2Proof.Machine
end

