-- ==== Sys2Proof/Laws/Queue.lean ====
section
/-! SUPPORT. The order on nodes and the priority queue (42_tree_builder.md R120 to R122), and the leaves that
`TREE.INIT` makes (R124). -/

namespace Sys2Proof.Machine

open Sys2Proof

/-! ### The order on nodes (R120) -/

theorem keyLt_iff {nodes : List Node} {i j : NodeIdx} : keyLt nodes i j = true ↔ Before nodes i j := by
  simp [keyLt, Before, BitVec.lt_def, ← BitVec.toNat_inj]

theorem Before.trans {nodes : List Node} {i j k : NodeIdx} (h : Before nodes i j) (h' : Before nodes j k) :
    Before nodes i k := by
  unfold Before at *; omega

theorem Before.irrefl {nodes : List Node} {i : NodeIdx} : ¬ Before nodes i i := by
  unfold Before; omega

/-- `Key` is a strict total order: no two nodes tie (R120). -/
theorem before_or_eq_or_before (nodes : List Node) (i j : NodeIdx) :
    Before nodes i j ∨ i = j ∨ Before nodes j i := by
  unfold Before
  rcases Nat.lt_trichotomy i.toNat j.toNat with h | h | h
  · omega
  · exact .inr (.inl (BitVec.eq_of_toNat_eq h))
  · omega

/-! ### `PqExtractMin` (R122) -/

theorem pqLeast_mem (nodes : List Node) (i : NodeIdx) (q : List NodeIdx) : pqLeast nodes i q ∈ i :: q := by
  induction q generalizing i with
  | nil => simp [pqLeast]
  | cons j q ih =>
    rw [pqLeast]
    rcases List.mem_cons.1 (ih (if keyLt nodes j i then j else i)) with h | h
    · rw [h]; split <;> simp
    · exact List.mem_cons_of_mem _ (List.mem_cons_of_mem _ h)

theorem pqLeast_least (nodes : List Node) (i : NodeIdx) (q : List NodeIdx) :
    ∀ j ∈ i :: q, j = pqLeast nodes i q ∨ Before nodes (pqLeast nodes i q) j := by
  induction q generalizing i with
  | nil => simp [pqLeast]
  | cons k q ih =>
    intro j hj
    rw [pqLeast]
    by_cases hk : keyLt nodes k i = true
    · rw [if_pos hk]
      rcases List.mem_cons.1 hj with rfl | hj
      · right
        rcases ih k k (by simp) with h | h
        · rw [← h]; exact keyLt_iff.1 hk
        · exact h.trans (keyLt_iff.1 hk)
      · exact ih k j hj
    · rw [if_neg hk]
      rcases List.mem_cons.1 hj with rfl | hj
      · exact ih _ _ (by simp)
      · rcases List.mem_cons.1 hj with rfl | hj
        · rcases before_or_eq_or_before nodes i j with h | h | h
          · rcases ih i i (by simp) with h' | h'
            · right; rw [← h']; exact h
            · right; exact h'.trans h
          · subst h; exact ih _ _ (by simp)
          · exact absurd (keyLt_iff.2 h) hk
        · exact ih i j (by simp [hj])

theorem pqExtractMin_eq_none {nodes : List Node} {pq : List NodeIdx} :
    pqExtractMin nodes pq = none ↔ pq = [] := by
  cases pq <;> simp [pqExtractMin]

/-- `PqExtractMin()` gives the member with the least `Key` and takes it out (R122). -/
theorem pqExtractMin_some {nodes : List Node} {pq rest : List NodeIdx} {a : NodeIdx}
    (h : pqExtractMin nodes pq = some (a, rest)) :
    a ∈ pq ∧ rest = pq.erase a ∧ ∀ j ∈ pq, j = a ∨ Before nodes a j := by
  cases pq with
  | nil => simp [pqExtractMin] at h
  | cons i q =>
    simp only [pqExtractMin, Option.some.injEq, Prod.mk.injEq] at h
    obtain ⟨rfl, rfl⟩ := h
    exact ⟨pqLeast_mem _ _ _, rfl, pqLeast_least _ _ _⟩

/-! ### `PqInsert` (R121) -/

/-- A node newer than every member goes to the end. -/
theorem pqInsert_newest {i : NodeIdx} {q : List NodeIdx} (h : ∀ j ∈ q, j < i) : pqInsert i q = q ++ [i] := by
  induction q with
  | nil => rfl
  | cons j q ih =>
    have hj := h j (by simp)
    rw [BitVec.lt_def] at hj
    have h1 : ¬ i < j := by rw [BitVec.lt_def]; omega
    have h2 : ¬ i = j := by rintro rfl; omega
    rw [pqInsert, if_neg h1, if_neg h2, ih fun k hk => h k (by simp [hk])]
    rfl

/-! ### The leaves of `TREE.INIT` (R124) -/

theorem leafOf_eq_some {hist : Histogram} {y : Byte} {n : Node} :
    leafOf hist y = some n ↔ tableGet hist y ≠ 0 ∧ n = .leaf (tableGet hist y) y := by
  unfold leafOf
  split <;> simp_all [eq_comm]

theorem leafOf_absent {hist : Histogram} {y : Byte} (h : tableGet hist y = 0) : leafOf hist y = none :=
  if_pos h

theorem leafOf_present {hist : Histogram} {y : Byte} (h : tableGet hist y ≠ 0) :
    leafOf hist y = some (.leaf (tableGet hist y) y) := if_neg h

theorem mem_leavesOf {hist : Histogram} {n : Node} :
    n ∈ leavesOf hist ↔ ∃ y, tableGet hist y ≠ 0 ∧ n = .leaf (tableGet hist y) y := by
  simp [leavesOf, List.mem_filterMap, leafOf_eq_some, mem_symbols]

theorem leavesOf_eq_map (hist : Histogram) :
    leavesOf hist = (present hist).map (fun y => .leaf (tableGet hist y) y) := by
  unfold leavesOf present
  induction symbols with
  | nil => rfl
  | cons y l ih =>
    by_cases h : tableGet hist y = 0
    · rw [List.filterMap_cons_none (leafOf_absent h), ih, List.filter_cons_of_neg (by simpa using h)]
    · rw [List.filterMap_cons_some (leafOf_present h), ih, List.filter_cons_of_pos (by simpa using h)]
      rfl

theorem leavesOf_length (hist : Histogram) : (leavesOf hist).length = (present hist).length := by
  simp [leavesOf_eq_map]

theorem leavesOf_ascending (hist : Histogram) : ((leavesOf hist).map Node.sym).Pairwise (· < ·) := by
  have e : (leavesOf hist).map Node.sym = present hist := by
    simp [leavesOf_eq_map, Function.comp_def, Node.sym]
  rw [e]
  exact symbols_rising.sublist List.filter_sublist

theorem present_length_le (hist : Histogram) : (present hist).length ≤ 256 := by
  have := List.length_filter_le (fun y => decide (tableGet hist y ≠ 0)) symbols
  rwa [symbols_length] at this

theorem leavesOf_length_le (hist : Histogram) : (leavesOf hist).length ≤ 256 := by
  rw [leavesOf_length]; exact present_length_le hist

/-- The counts of the leaves add up to the counts of the histogram (R124). -/
theorem leavesOf_sum (hist : Histogram) :
    ((leavesOf hist).map (fun n => n.cnt.toNat)).sum = (symbols.map (fun y => (tableGet hist y).toNat)).sum := by
  unfold leavesOf
  induction symbols with
  | nil => rfl
  | cons y l ih =>
    by_cases h : tableGet hist y = 0
    · rw [List.filterMap_cons_none (leafOf_absent h), ih, List.map_cons, h]
      simp
    · rw [List.filterMap_cons_some (leafOf_present h), List.map_cons, List.sum_cons, ih]
      rfl

theorem mem_firstIndices {n : Nat} (hn : n ≤ 512) {i : NodeIdx} : i ∈ firstIndices n ↔ i.toNat < n := by
  unfold firstIndices
  constructor
  · intro h
    obtain ⟨k, hk, rfl⟩ := List.mem_map.1 h
    rw [List.mem_range] at hk
    simpa [Nat.mod_eq_of_lt (show k < 512 by omega)] using hk
  · intro h
    exact List.mem_map.2 ⟨i.toNat, by simpa using h, by simp⟩

theorem firstIndices_rising {n : Nat} (hn : n ≤ 512) : (firstIndices n).Pairwise (· < ·) := by
  unfold firstIndices
  rw [List.pairwise_map]
  refine List.Pairwise.imp_of_mem ?_ List.pairwise_lt_range
  intro a b ha hb h
  rw [List.mem_range] at ha hb
  simp [BitVec.lt_def]
  omega

@[simp] theorem firstIndices_length (n : Nat) : (firstIndices n).length = n := by simp [firstIndices]

end Sys2Proof.Machine
end

