-- ==== Sys2Proof/Laws/Tree.lean ====
section
/-! SUPPORT. The tree builder (42_tree_builder.md R124 to R130): what a merge does, and that `TREE.INIT` makes
and every merge keeps the shape of R20 to R22. -/

namespace Sys2Proof.Machine

open Sys2Proof

/-- The count of a node as a number. -/
abbrev cntOf (nodes : List Node) (i : NodeIdx) : Nat := (nodeAt nodes i).cnt.toNat

/-! ### `TreeMerge` (R125) -/

/-- From `s` to `t` the two least nodes, `a` then `b`, were merged, and nothing else has changed. -/
structure Merged (a b : NodeIdx) (s t : State) : Prop where
  frame : t = { s with node := t.node, pq := t.pq, root := t.root, rootValid := t.rootValid }
  aMem : a ∈ s.pq
  aLeast : ∀ j ∈ s.pq, j = a ∨ Before s.node a j
  bMem : b ∈ s.pq.erase a
  bLeast : ∀ j ∈ s.pq.erase a, j = b ∨ Before s.node b j
  fits : cntOf s.node a + cntOf s.node b ≤ 2 ^ 64 - 1
  node : t.node = s.node ++ [.internal (BitVec.ofNat 64 (cntOf s.node a + cntOf s.node b)) a b]
  pq : t.pq = pqInsert (BitVec.ofNat 9 s.node.length) ((s.pq.erase a).erase b)
  rooted : t.pq.length = 1 → t.root = BitVec.ofNat 9 s.node.length ∧ t.rootValid = true
  unrooted : t.pq.length ≠ 1 → t.root = s.root ∧ t.rootValid = s.rootValid

/-- `TreeMerge()` when it ends well (R125). -/
theorem treeMerge_ok {s t : State} (h : treeMerge s = .ok t) : ∃ a b, Merged a b s t := by
  unfold treeMerge at h
  split at h
  · cases h
  · rename_i a pq1 ha
    split at h
    · cases h
    · rename_i b pq2 hb
      obtain ⟨aMem, rfl, aLeast⟩ := pqExtractMin_some ha
      obtain ⟨bMem, rfl, bLeast⟩ := pqExtractMin_some hb
      unfold joinNodes at h
      simp only at h
      split at h
      · cases h
      · rename_i hfits
        refine ⟨a, b, ?_⟩
        split at h
        · rename_i h1
          cases h
          exact ⟨rfl, aMem, aLeast, bMem, bLeast, by simpa using hfits, rfl, rfl, fun _ => ⟨rfl, rfl⟩,
            fun hne => absurd h1 hne⟩
        · rename_i h1
          cases h
          exact ⟨rfl, aMem, aLeast, bMem, bLeast, by simpa using hfits, rfl, rfl, fun he => absurd he h1,
            fun _ => ⟨rfl, rfl⟩⟩

/-- `TreeMerge()` raises PQ_UNDERFLOW exactly with fewer than two nodes in `PQ` (R125). -/
theorem treeMerge_underflow {s : State} (h : s.pq.length < 2) : treeMerge s = raise .pqUnderflow := by
  unfold treeMerge
  match hp : s.pq with
  | [] => rfl
  | [a] => simp [pqExtractMin, pqLeast]
  | a :: b :: q => rw [hp] at h; simp at h

/-- With two nodes or more, `TreeMerge()` joins two of them (R125). -/
theorem treeMerge_eq {s : State} (h : 2 ≤ s.pq.length) : ∃ a b,
    a ∈ s.pq ∧ b ∈ s.pq.erase a ∧ treeMerge s = joinNodes a b ((s.pq.erase a).erase b) s := by
  match ha : pqExtractMin s.node s.pq with
  | none => rw [pqExtractMin_eq_none] at ha; simp [ha] at h
  | some (a, pq1) =>
    obtain ⟨aMem, rfl, -⟩ := pqExtractMin_some ha
    have hl := List.length_erase_of_mem aMem
    match hb : pqExtractMin s.node (s.pq.erase a) with
    | none => rw [pqExtractMin_eq_none] at hb; simp [hb] at hl; omega
    | some (b, pq2) =>
      obtain ⟨bMem, rfl, -⟩ := pqExtractMin_some hb
      exact ⟨a, b, aMem, bMem, by simp only [treeMerge, ha, hb]⟩

/-- The join ends well exactly where the sum fits (R125). -/
theorem joinNodes_fits {a b : NodeIdx} {rest : List NodeIdx} {s : State}
    (h : cntOf s.node a + cntOf s.node b ≤ 2 ^ 64 - 1) : ∃ t, joinNodes a b rest s = .ok t := by
  simp only [joinNodes]
  rw [if_neg (by simpa using h)]
  split <;> exact ⟨_, rfl⟩

/-- The join of two counts whose sum does not fit raises COUNT_OVERFLOW (R125). -/
theorem joinNodes_overflow {a b : NodeIdx} {rest : List NodeIdx} {s : State}
    (h : 2 ^ 64 - 1 < cntOf s.node a + cntOf s.node b) : joinNodes a b rest s = raise .countOverflow := by
  simp only [joinNodes]
  rw [if_pos (by simpa using h)]

/-- `TreeMerge()` with two nodes or more ends well, or the sum overflows (R125). -/
theorem treeMerge_two {s : State} (h : 2 ≤ s.pq.length) :
    (∃ t, treeMerge s = .ok t) ∨ treeMerge s = raise .countOverflow := by
  obtain ⟨a, b, -, -, e⟩ := treeMerge_eq h
  rw [e]
  rcases Nat.lt_or_ge (2 ^ 64 - 1) (cntOf s.node a + cntOf s.node b) with hc | hc
  · exact .inr (joinNodes_overflow hc)
  · exact .inl (joinNodes_fits hc)

/-- Where two least nodes have a sum that fits, `TreeMerge()` ends well (R125). -/
theorem treeMerge_succeeds {s : State} (h : 2 ≤ s.pq.length)
    (hfit : ∀ a ∈ s.pq, ∀ b ∈ s.pq.erase a, cntOf s.node a + cntOf s.node b ≤ 2 ^ 64 - 1) :
    ∃ t, treeMerge s = .ok t := by
  obtain ⟨a, b, aMem, bMem, e⟩ := treeMerge_eq h
  rw [e]
  exact joinNodes_fits (hfit a aMem b bMem)

theorem treeMerge_error {s : State} {e : Stop} (h : treeMerge s = .error e) :
    e = .trap .pqUnderflow ∧ s.pq.length < 2 ∨ e = .trap .countOverflow ∧ 2 ≤ s.pq.length := by
  by_cases h2 : s.pq.length < 2
  · rw [treeMerge_underflow h2] at h; cases h; exact .inl ⟨rfl, h2⟩
  · rcases treeMerge_two (s := s) (by omega) with ⟨t, ht⟩ | ht
    · rw [ht] at h; cases h
    · rw [ht] at h; cases h; exact .inr ⟨rfl, by omega⟩

/-! ### Nodes of a longer arena -/

theorem nodeAt_append {nodes more : List Node} {i : NodeIdx} (h : i.toNat < nodes.length) :
    nodeAt (nodes ++ more) i = nodeAt nodes i := by
  simp [nodeAt, List.getElem?_append_left h]

theorem nodeAt_eq {nodes : List Node} {i : NodeIdx} {n : Node} (h : nodes[i.toNat]? = some n) :
    nodeAt nodes i = n := by simp [nodeAt, h]

theorem nodeAt_newest {nodes : List Node} {n : Node} {i : NodeIdx} (h : i.toNat = nodes.length) :
    nodeAt (nodes ++ [n]) i = n := by simp [nodeAt, h]

theorem getElem?_of_nodeAt {nodes : List Node} {i : NodeIdx} (h : i.toNat < nodes.length) :
    nodes[i.toNat]? = some (nodeAt nodes i) := by simp [nodeAt, h]

/-- A node of an arena one longer is an old one or the new one. -/
theorem getElem?_newest {nodes : List Node} {n m : Node} {i : Nat} (h : (nodes ++ [n])[i]? = some m) :
    i < nodes.length ∧ nodes[i]? = some m ∨ i = nodes.length ∧ m = n := by
  rcases Nat.lt_trichotomy i nodes.length with hi | hi | hi
  · rw [List.getElem?_append_left hi] at h; exact .inl ⟨hi, h⟩
  · subst hi; simp at h; exact .inr ⟨rfl, h.symm⟩
  · rw [List.getElem?_append_right (by omega), List.getElem?_eq_none (by simp; omega)] at h; cases h

/-! ### The shape (R20 to R22) -/

/-- The empty arena has the shape. -/
theorem TreeShape.none : TreeShape [] [] [] [] 0 false where
  split := rfl
  areLeaves := by simp
  areInner := by simp
  ascending := by simp
  children := by simp
  oneParent := by simp
  rising := by simp
  members := by simp
  size := rfl
  bound := by simp
  valid := by simp
  rootIs := by simp
  rootZero := fun _ => rfl

section
variable {nodes leaves inner : List Node} {pq : List NodeIdx} {root : NodeIdx} {rv : Bool}

theorem TreeShape.nodup (sh : TreeShape nodes leaves inner pq root rv) : pq.Nodup :=
  sh.rising.imp fun h => by rintro rfl; rw [BitVec.lt_def] at h; omega

theorem TreeShape.memLt (sh : TreeShape nodes leaves inner pq root rv) {i : NodeIdx} (h : i ∈ pq) :
    i.toNat < nodes.length := ((sh.members i).1 h).1

/-- At most 511 nodes once `PQ` is not empty, at most 510 while two are left to merge (R129). -/
theorem TreeShape.roomFor (sh : TreeShape nodes leaves inner pq root rv) (h : 2 ≤ pq.length) :
    nodes.length ≤ 510 := by
  have := sh.size
  have := sh.bound
  omega

/-- A Leaf of the shape stands among the leaves, at its own index. -/
theorem TreeShape.leafAt (sh : TreeShape nodes leaves inner pq root rv) {i : Nat} {c : Count} {y : Byte}
    (h : nodes[i]? = some (.leaf c y)) : i < leaves.length ∧ leaves[i]? = some (.leaf c y) := by
  rw [sh.split] at h
  rcases Nat.lt_or_ge i leaves.length with hi | hi
  · rw [List.getElem?_append_left hi] at h; exact ⟨hi, h⟩
  · rw [List.getElem?_append_right hi] at h
    obtain ⟨c', l, r, e⟩ := sh.areInner _ (List.mem_of_getElem? h)
    cases e

/-- Every count is positive: the leaves' by R124, the Internal nodes' as sums. -/
theorem TreeShape.cnt_pos (sh : TreeShape nodes leaves inner pq root rv) :
    ∀ (k : Nat) (i : NodeIdx), i.toNat = k → i.toNat < nodes.length → 1 ≤ cntOf nodes i := by
  intro k
  induction k using Nat.strong_induction_on with
  | _ k ih =>
    intro i hk hi
    have hg := getElem?_of_nodeAt hi
    match hn : nodeAt nodes i with
    | .leaf c y =>
      rw [hn] at hg
      obtain ⟨c', y', e, h0⟩ := sh.areLeaves _ (List.mem_of_getElem? (sh.leafAt hg).2)
      cases e
      have : c.toNat ≠ 0 := fun e => h0 (BitVec.eq_of_toNat_eq (by simpa using e))
      simp only [cntOf, hn, Node.cnt]; omega
    | .internal c l r =>
      rw [hn] at hg
      obtain ⟨hl, -, -, hc⟩ := sh.children _ _ _ _ hg
      have := ih l.toNat (by omega) l rfl (by omega)
      simp only [cntOf, hn, Node.cnt] at *; omega

/-- The shape that `TREE.INIT` makes of two leaves or more, or of one (R124). -/
theorem TreeShape.ofLeaves (hist : Histogram) (h : 1 ≤ (leavesOf hist).length) :
    TreeShape (leavesOf hist) (leavesOf hist) [] (firstIndices (leavesOf hist).length) 0
      (decide ((leavesOf hist).length = 1)) where
  split := by simp
  areLeaves n hn := by
    obtain ⟨y, hy, rfl⟩ := mem_leavesOf.1 hn
    exact ⟨_, y, rfl, hy⟩
  areInner := by simp
  ascending := leavesOf_ascending hist
  children i c l r e := by
    obtain ⟨y, -, e'⟩ := mem_leavesOf.1 (List.mem_of_getElem? e); cases e'
  oneParent i j c l r c' l' r' e := by
    obtain ⟨y, -, e'⟩ := mem_leavesOf.1 (List.mem_of_getElem? e); cases e'
  rising := firstIndices_rising (by have := leavesOf_length_le hist; omega)
  members i := by
    rw [mem_firstIndices (by have := leavesOf_length_le hist; omega)]
    refine ⟨fun hi => ⟨hi, fun j c l r e => ?_⟩, fun hi => hi.1⟩
    obtain ⟨y, -, e'⟩ := mem_leavesOf.1 (List.mem_of_getElem? e); cases e'
  size := by simp; omega
  bound := leavesOf_length_le hist
  valid := by simp; omega
  rootIs e := by
    have e : (leavesOf hist).length = 1 := by simpa using e
    simp [e, firstIndices]
  rootZero _ := rfl

end

/-! ### A merge keeps the shape -/

section
variable {s t : State} {a b : NodeIdx} {leaves inner : List Node}

theorem Merged.distinct (m : Merged a b s t) (sh : TreeShape s.node leaves inner s.pq s.root s.rootValid) :
    b ∈ s.pq ∧ b ≠ a := by
  have := (List.Nodup.mem_erase_iff sh.nodup).1 m.bMem
  exact ⟨this.2, this.1⟩

theorem Merged.two (m : Merged a b s t) : 2 ≤ s.pq.length := by
  have h1 := List.length_erase_of_mem m.aMem
  have h2 := List.length_pos_of_mem m.bMem
  omega

theorem Merged.rest_length (m : Merged a b s t) :
    ((s.pq.erase a).erase b).length = s.pq.length - 2 := by
  rw [List.length_erase_of_mem m.bMem, List.length_erase_of_mem m.aMem]
  omega

theorem Merged.newest (m : Merged a b s t) (sh : TreeShape s.node leaves inner s.pq s.root s.rootValid) :
    (BitVec.ofNat 9 s.node.length : NodeIdx).toNat = s.node.length := by
  have := sh.roomFor m.two
  simp; omega

theorem Merged.mem_rest (sh : TreeShape s.node leaves inner s.pq s.root s.rootValid) {i : NodeIdx} :
    i ∈ (s.pq.erase a).erase b ↔ i ∈ s.pq ∧ i ≠ a ∧ i ≠ b := by
  rw [List.Nodup.mem_erase_iff (sh.nodup.erase a), List.Nodup.mem_erase_iff sh.nodup]
  tauto

/-- After a merge of a tree of the shape the new node is last in `PQ` (R121, R125). -/
theorem Merged.pq_eq (m : Merged a b s t) (sh : TreeShape s.node leaves inner s.pq s.root s.rootValid) :
    t.pq = (s.pq.erase a).erase b ++ [BitVec.ofNat 9 s.node.length] := by
  rw [m.pq, pqInsert_newest]
  intro j hj
  have := sh.memLt ((Merged.mem_rest sh).1 hj).1
  rw [BitVec.lt_def, m.newest sh]
  exact this

theorem Merged.sum_toNat (m : Merged a b s t) :
    (BitVec.ofNat 64 (cntOf s.node a + cntOf s.node b)).toNat = cntOf s.node a + cntOf s.node b := by
  have := m.fits
  simp; omega

/-- A merge keeps the shape of R20 to R22, and lowers `|PQ|` by one (R125). -/
theorem Merged.shape (m : Merged a b s t) (sh : TreeShape s.node leaves inner s.pq s.root s.rootValid) :
    TreeShape t.node leaves
      (inner ++ [.internal (BitVec.ofNat 64 (cntOf s.node a + cntOf s.node b)) a b]) t.pq t.root t.rootValid ∧
    t.pq.length + 1 = s.pq.length := by
  have hnew := m.newest sh
  have hpq := m.pq_eq sh
  have hb := m.distinct sh
  have ha := sh.memLt m.aMem
  have hb' := sh.memLt hb.1
  have pa := ((sh.members a).1 m.aMem).2
  have pb := ((sh.members b).1 hb.1).2
  have hlen : t.pq.length + 1 = s.pq.length := by
    rw [hpq, List.length_append, m.rest_length]
    have := m.two
    simp; omega
  have hnlen : t.node.length = s.node.length + 1 := by simp [m.node]
  have hrv : s.rootValid = false := by
    by_contra h
    have := (sh.valid.1 (by simpa using h)).2
    have := m.two
    omega
  refine ⟨?_, hlen⟩
  constructor
  · rw [m.node, ← List.append_assoc, ← sh.split]
  · exact sh.areLeaves
  · intro n hn
    rcases List.mem_append.1 hn with hn | hn
    · exact sh.areInner n hn
    · rw [List.mem_singleton] at hn; exact ⟨_, a, b, hn⟩
  · exact sh.ascending
  · intro i c l r e
    rw [m.node] at e ⊢
    rcases getElem?_newest e with ⟨hi, e⟩ | ⟨rfl, e1⟩
    · obtain ⟨hl, hr, hne, hc⟩ := sh.children i c l r e
      refine ⟨hl, hr, hne, ?_⟩
      rw [nodeAt_append (by omega), nodeAt_append (by omega)]
      exact hc
    · cases e1
      refine ⟨ha, hb', hb.2.symm, ?_⟩
      rw [nodeAt_append ha, nodeAt_append hb']
      exact m.sum_toNat
  · intro i j c l r c' l' r' e e' hij
    rw [m.node] at e e'
    rcases getElem?_newest e with ⟨hi, e⟩ | ⟨rfl, e1⟩ <;> rcases getElem?_newest e' with ⟨hj, e'⟩ | ⟨rfl, e1'⟩
    · exact sh.oneParent i j c l r c' l' r' e e' hij
    · cases e1'
      have h1 := pa i c l r e
      have h2 := pb i c l r e
      exact ⟨h1.1, h2.1, h1.2, h2.2⟩
    · cases e1
      have h1 := pa j c' l' r' e'
      have h2 := pb j c' l' r' e'
      exact ⟨h1.1.symm, h1.2.symm, h2.1.symm, h2.2.symm⟩
    · exact absurd rfl hij
  · rw [hpq, List.pairwise_append]
    refine ⟨(sh.rising.sublist List.erase_sublist).sublist List.erase_sublist, by simp, ?_⟩
    intro x hx y hy
    rw [List.mem_singleton] at hy
    subst hy
    rw [BitVec.lt_def, hnew]
    exact sh.memLt ((Merged.mem_rest sh).1 hx).1
  · intro i
    rw [hpq, List.mem_append, List.mem_singleton, Merged.mem_rest sh, sh.members i, hnlen, m.node]
    constructor
    · rintro (⟨⟨hi, hp⟩, hia, hib⟩ | rfl)
      · refine ⟨by omega, fun j c l r e => ?_⟩
        rcases getElem?_newest e with ⟨hj, e⟩ | ⟨rfl, e1⟩
        · exact hp j c l r e
        · cases e1; exact ⟨hia.symm, hib.symm⟩
      · refine ⟨by omega, fun j c l r e => ?_⟩
        rcases getElem?_newest e with ⟨hj, e⟩ | ⟨rfl, e1⟩
        · obtain ⟨hl, hr, -, -⟩ := sh.children j c l r e
          constructor <;> (rintro rfl; omega)
        · cases e1
          constructor <;> (rintro rfl; omega)
    · rintro ⟨hi, hp⟩
      rcases Nat.lt_or_ge i.toNat s.node.length with hlt | hge
      · left
        refine ⟨⟨hlt, fun j c l r e => ?_⟩, ?_⟩
        · have hj := (List.getElem?_eq_some_iff.1 e).1
          exact hp j c l r (by rw [List.getElem?_append_left hj]; exact e)
        · have := hp s.node.length _ a b (by rw [List.getElem?_append_right (Nat.le_refl _)]; simp; rfl)
          exact ⟨this.1.symm, this.2.symm⟩
      · right
        exact BitVec.eq_of_toNat_eq (by omega)
  · have := sh.size
    omega
  · exact sh.bound
  · constructor
    · intro h
      by_contra hn
      have h1 : t.pq.length ≠ 1 := fun h1 => hn ⟨by omega, h1⟩
      rw [(m.unrooted h1).2, hrv] at h
      cases h
    · exact fun h => (m.rooted h.2).2
  · intro h
    have h1 : t.pq.length = 1 := by
      by_contra h1
      rw [(m.unrooted h1).2, hrv] at h
      cases h
    have hr := (m.rooted h1).1
    rw [hr, hpq]
    have : ((s.pq.erase a).erase b).length = 0 := by
      have e := congrArg List.length hpq
      rw [List.length_append, h1] at e
      simpa using e
    rw [List.length_eq_zero_iff.1 this]
    exact ⟨rfl, by omega⟩
  · intro h
    have h1 : t.pq.length ≠ 1 := fun h1 => by rw [(m.rooted h1).2] at h; cases h
    rw [(m.unrooted h1).1]
    exact sh.rootZero hrv

end

/-! ### `TreeInit` (R124) -/

/-- `TreeInit()` when it ends well: the leaves, all of them in `PQ`, and the root where there is one leaf. -/
theorem treeInit_ok {s t : State} (h : treeInit s = .ok t) :
    t = { s with node := leavesOf s.hist, pq := firstIndices (leavesOf s.hist).length, root := 0,
                 rootValid := decide ((leavesOf s.hist).length = 1) } ∧ 1 ≤ (leavesOf s.hist).length := by
  unfold treeInit at h
  simp only at h
  split at h
  · cases h
  · split at h
    · cases h; rename_i h1; simp [h1]
    · cases h; rename_i h0 h1; simp [h1]; omega

theorem treeInit_shape {s t : State} (h : treeInit s = .ok t) :
    TreeShape t.node (leavesOf s.hist) [] t.pq t.root t.rootValid := by
  obtain ⟨rfl, h1⟩ := treeInit_ok h
  exact TreeShape.ofLeaves s.hist h1

/-- `TreeInit()` ends well with a present symbol (R124). -/
theorem treeInit_succeeds {s : State} (h : present s.hist ≠ []) : ∃ t, treeInit s = .ok t := by
  have h0 : (leavesOf s.hist).length ≠ 0 := by
    rw [leavesOf_length]; exact fun e => h (List.length_eq_zero_iff.1 e)
  unfold treeInit
  simp only [h0, if_false]
  split <;> exact ⟨_, rfl⟩

/-- `TreeInit()` raises EMPTY without one, and nothing else (R124). -/
theorem treeInit_error {s : State} {e : Stop} (h : treeInit s = .error e) :
    e = .trap .empty ∧ present s.hist = [] := by
  by_cases hp : present s.hist = []
  · refine ⟨?_, hp⟩
    have h0 : (leavesOf s.hist).length = 0 := by rw [leavesOf_length, hp]; rfl
    unfold treeInit at h
    simp only [h0, if_true] at h
    cases h; rfl
  · obtain ⟨t, ht⟩ := treeInit_succeeds hp
    rw [ht] at h; cases h

end Sys2Proof.Machine
end

