-- ==== Sys2Proof/Laws/Build.lean ====
section
/-! SUPPORT. The whole tree (42_tree_builder.md R126 to R130): what the merges keep, how they end, the sum of
the counts, and the bound of 43_code_table.md R143 on how deep a leaf can lie. -/

namespace Sys2Proof.Machine

open Sys2Proof

/-! ### The counts in `PQ` (R130 c) -/

/-- The counts of the members of `PQ`, added up. -/
abbrev pqSum (nodes : List Node) (pq : List NodeIdx) : Nat := (pq.map (cntOf nodes)).sum

section
variable {s t : State} {a b : NodeIdx} {leaves inner : List Node}

/-- A merge keeps the sum of the counts in `PQ` (R130). -/
theorem Merged.sum (m : Merged a b s t) (sh : TreeShape s.node leaves inner s.pq s.root s.rootValid) :
    pqSum t.node t.pq = pqSum s.node s.pq := by
  have e1 := List.sum_map_erase (cntOf s.node) m.aMem
  have e2 := List.sum_map_erase (cntOf s.node) m.bMem
  have hnew : cntOf t.node (BitVec.ofNat 9 s.node.length) = cntOf s.node a + cntOf s.node b := by
    rw [cntOf, m.node, nodeAt_newest (m.newest sh)]
    exact m.sum_toNat
  have hrest : ((s.pq.erase a).erase b).map (cntOf t.node) = ((s.pq.erase a).erase b).map (cntOf s.node) := by
    refine List.map_congr_left fun i hi => ?_
    rw [cntOf, m.node, nodeAt_append (sh.memLt ((Merged.mem_rest sh).1 hi).1)]
  rw [pqSum, m.pq_eq sh, List.map_append, List.sum_append, hrest]
  simp only [List.map_cons, List.map_nil, List.sum_cons, List.sum_nil, hnew]
  unfold pqSum
  omega

/-- The two least counts are part of the sum, so they fit where the sum does (R125, R130). -/
theorem two_le_sum {nodes : List Node} {pq : List NodeIdx} (ha : a ∈ pq) (hb : b ∈ pq.erase a) :
    cntOf nodes a + cntOf nodes b ≤ pqSum nodes pq := by
  have e1 := List.sum_map_erase (cntOf nodes) ha
  have e2 := List.sum_map_erase (cntOf nodes) hb
  unfold pqSum
  omega

/-! ### How deep a leaf can lie (R143) -/

/-- The children of a node weigh no more than any other member of `PQ`. -/
def Greedy (nodes : List Node) (pq : List NodeIdx) : Prop :=
  ∀ (i : NodeIdx) c l r, nodes[i.toNat]? = some (.internal c l r) →
    ∀ d ∈ pq, d ≠ i → cntOf nodes l ≤ cntOf nodes d ∧ cntOf nodes r ≤ cntOf nodes d

/-- A node with a leaf at depth `n` below it weighs at least the Fibonacci number `F(n+2)` (R143). -/
def Heavy (nodes : List Node) : Prop :=
  ∀ (i : NodeIdx) (bits : List Bool) (y : Byte), leafAlong nodes bits i = some y →
    Nat.fib (bits.length + 2) ≤ cntOf nodes i

theorem leafAlong_lt {nodes : List Node} {bits : List Bool} {i : NodeIdx} {y : Byte}
    (h : leafAlong nodes bits i = some y) : i.toNat < nodes.length := by
  by_contra hn
  have e : nodes[i.toNat]? = none := List.getElem?_eq_none (by omega)
  cases bits <;> simp [leafAlong, e] at h

theorem leafAlong_nil {nodes : List Node} {i : NodeIdx} {y : Byte} :
    leafAlong nodes [] i = some y ↔ ∃ c, nodes[i.toNat]? = some (.leaf c y) := by
  unfold leafAlong
  constructor
  · intro h
    split at h
    · rename_i c z e; cases h; exact ⟨c, e⟩
    · cases h
  · rintro ⟨c, e⟩; rw [e]

theorem leafAlong_cons {nodes : List Node} {b : Bool} {bits : List Bool} {i : NodeIdx} {y : Byte} :
    leafAlong nodes (b :: bits) i = some y ↔
      ∃ c l r, nodes[i.toNat]? = some (.internal c l r) ∧ leafAlong nodes bits (if b then r else l) = some y := by
  rw [leafAlong]
  constructor
  · intro h
    split at h
    · rename_i c l r e; exact ⟨c, l, r, e, h⟩
    · cases h
  · rintro ⟨c, l, r, e, h⟩; rw [e]; exact h

/-- Paths in an arena stay what they are when nodes are added. -/
theorem leafAlong_append {nodes more : List Node} (hc : ∀ (i : Nat) c l r,
      nodes[i]? = some (.internal c l r) → l.toNat < nodes.length ∧ r.toNat < nodes.length)
    {bits : List Bool} {i : NodeIdx} {y : Byte} (hi : i.toNat < nodes.length) :
    leafAlong (nodes ++ more) bits i = some y ↔ leafAlong nodes bits i = some y := by
  induction bits generalizing i with
  | nil => rw [leafAlong_nil, leafAlong_nil, List.getElem?_append_left hi]
  | cons b bits ih =>
    rw [leafAlong_cons, leafAlong_cons, List.getElem?_append_left hi]
    constructor
    · rintro ⟨c, l, r, e, h⟩
      refine ⟨c, l, r, e, ?_⟩
      have := hc _ c l r e
      exact (ih (by cases b <;> simp [this])).1 h
    · rintro ⟨c, l, r, e, h⟩
      refine ⟨c, l, r, e, ?_⟩
      have := hc _ c l r e
      exact (ih (by cases b <;> simp [this])).2 h

theorem TreeShape.childrenLt {nodes pqs root rv} (sh : TreeShape nodes leaves inner pqs root rv) (i : Nat) (c : Count)
    (l r : NodeIdx) (e : nodes[i]? = some (.internal c l r)) : l.toNat < nodes.length ∧ r.toNat < nodes.length := by
  have hi := (List.getElem?_eq_some_iff.1 e).1
  obtain ⟨hl, hr, -, -⟩ := sh.children i c l r e
  omega

theorem before_le {nodes : List Node} {i j : NodeIdx} (h : j = i ∨ Before nodes i j) :
    cntOf nodes i ≤ cntOf nodes j := by
  rcases h with rfl | h | h
  · exact Nat.le_refl _
  · exact Nat.le_of_lt h
  · exact Nat.le_of_eq h.1

/-- A merge keeps `Greedy`: what was merged before weighs no more than what is left. -/
theorem Merged.greedy (m : Merged a b s t) (sh : TreeShape s.node leaves inner s.pq s.root s.rootValid)
    (g : Greedy s.node s.pq) : Greedy t.node t.pq := by
  have hb := m.distinct sh
  have ha' := sh.memLt m.aMem
  have hb' := sh.memLt hb.1
  have hnew := m.newest sh
  have cN : cntOf t.node (BitVec.ofNat 9 s.node.length) = cntOf s.node a + cntOf s.node b := by
    rw [cntOf, m.node, nodeAt_newest hnew]; exact m.sum_toNat
  have cOld : ∀ j : NodeIdx, j.toNat < s.node.length → cntOf t.node j = cntOf s.node j := by
    intro j hj; rw [cntOf, m.node, nodeAt_append hj]
  intro i c l r e d hd hdi
  rw [m.pq_eq sh, List.mem_append, List.mem_singleton, Merged.mem_rest sh] at hd
  rw [m.node] at e
  rcases getElem?_newest e with ⟨hi, e⟩ | ⟨hi, e1⟩
  · obtain ⟨hl, hr⟩ := sh.childrenLt _ c l r e
    rw [cOld l hl, cOld r hr]
    rcases hd with ⟨hd, -, -⟩ | rfl
    · rw [cOld d (sh.memLt hd)]; exact g i c l r e d hd hdi
    · rw [cN]
      by_cases hai : a = i
      · have := g i c l r e b hb.1 (by rintro rfl; exact hb.2 hai.symm)
        omega
      · have := g i c l r e a m.aMem hai
        omega
  · cases e1
    rw [cOld _ ha', cOld _ hb']
    rcases hd with ⟨hd, hda, hdb⟩ | rfl
    · rw [cOld d (sh.memLt hd)]
      refine ⟨before_le (m.aLeast d hd), before_le (m.bLeast d ?_)⟩
      exact (List.Nodup.mem_erase_iff sh.nodup).2 ⟨hda, hd⟩
    · exact absurd (BitVec.eq_of_toNat_eq (by omega)) hdi

/-- A merge keeps `Heavy` (R143). -/
theorem Merged.heavy (m : Merged a b s t) (sh : TreeShape s.node leaves inner s.pq s.root s.rootValid)
    (g : Greedy s.node s.pq) (hv : Heavy s.node) : Heavy t.node := by
  have hb := m.distinct sh
  have ha' := sh.memLt m.aMem
  have hb' := sh.memLt hb.1
  have hnew := m.newest sh
  have cOld : ∀ j : NodeIdx, j.toNat < s.node.length → cntOf t.node j = cntOf s.node j := by
    intro j hj; rw [cntOf, m.node, nodeAt_append hj]
  intro i bits y h
  have hlt := leafAlong_lt h
  rw [m.node] at h hlt
  rcases Nat.lt_or_ge i.toNat s.node.length with hi | hi
  · rw [leafAlong_append sh.childrenLt hi] at h
    rw [cOld i hi]
    exact hv i bits y h
  · have hi : i.toNat = s.node.length := by simp at hlt; omega
    have cN : cntOf t.node i = cntOf s.node a + cntOf s.node b := by
      rw [cntOf, m.node, nodeAt_newest hi]; exact m.sum_toNat
    rw [cN]
    cases bits with
    | nil => rw [leafAlong_nil, hi] at h; simp at h
    | cons x bits =>
      rw [leafAlong_cons, hi] at h
      obtain ⟨c, l, r, e, h⟩ := h
      simp only [List.getElem?_append_right (Nat.le_refl _), Nat.sub_self, List.getElem?_cons_zero,
        Option.some.injEq, Node.internal.injEq] at e
      obtain ⟨-, rfl, rfl⟩ := e
      -- the child on the path, and its sibling
      have key : ∀ p q : NodeIdx, p ∈ s.pq → q ∈ s.pq → q ≠ p → leafAlong s.node bits p = some y →
          Nat.fib ((x :: bits).length + 2) ≤ cntOf s.node p + cntOf s.node q := by
        intro p q hp hq hqp hleaf
        have h1 := hv p bits y hleaf
        have hq1 := sh.cnt_pos _ q rfl (sh.memLt hq)
        cases bits with
        | nil =>
          have hp1 := sh.cnt_pos _ p rfl (sh.memLt hp)
          have : Nat.fib 3 = 2 := by decide
          show Nat.fib 3 ≤ _
          omega
        | cons z bits =>
          rw [leafAlong_cons] at hleaf
          obtain ⟨c, l', r', e, hleaf⟩ := hleaf
          have h2 := hv _ bits y hleaf
          have h3 := g p c l' r' e q hq hqp
          have h4 : cntOf s.node (if z then r' else l') ≤ cntOf s.node q := by
            cases z
            · exact h3.1
            · exact h3.2
          have hf := Nat.fib_add_two (n := bits.length + 2)
          simp only [List.length_cons] at h1 ⊢
          have e1 : bits.length + 1 + 1 + 2 = bits.length + 2 + 2 := by omega
          have e2 : bits.length + 1 + 2 = bits.length + 2 + 1 := by omega
          rw [e1, hf]
          rw [e2] at h1
          omega
      cases x with
      | false =>
        have hle : leafAlong s.node bits a = some y := by
          rw [← leafAlong_append sh.childrenLt ha']; simpa using h
        exact key a b m.aMem hb.1 hb.2 hle
      | true =>
        have hle : leafAlong s.node bits b = some y := by
          rw [← leafAlong_append sh.childrenLt hb']; simpa using h
        have := key b a hb.1 m.aMem (Ne.symm hb.2) hle
        omega

/-! ### All the merges (R126) -/

/-- From `s` to `t` merges were made until at most one node was left in `PQ`. -/
structure Built (leaves : List Node) (s t : State) : Prop where
  frame : t = { s with node := t.node, pq := t.pq, root := t.root, rootValid := t.rootValid }
  shape : ∃ inner, TreeShape t.node leaves inner t.pq t.root t.rootValid
  one : t.pq.length ≤ 1
  some : 1 ≤ s.pq.length → 1 ≤ t.pq.length
  sum : pqSum t.node t.pq = pqSum s.node s.pq
  heavy : Greedy s.node s.pq → Heavy s.node → Heavy t.node

/-- The merges when they end well. -/
theorem mergeAll_ok {n : Nat} (sh : TreeShape s.node leaves inner s.pq s.root s.rootValid)
    (hn : s.pq.length ≤ n + 1) (h : mergeAll n s = .ok t) : Built leaves s t := by
  induction n generalizing s inner with
  | zero => cases h; exact ⟨rfl, ⟨inner, sh⟩, by omega, id, rfl, fun _ => id⟩
  | succ n ih =>
    rw [mergeAll] at h
    split at h
    · obtain ⟨u, hu, ht⟩ := bind_eq_ok.1 h
      obtain ⟨a, b, m⟩ := treeMerge_ok hu
      obtain ⟨sh', hl⟩ := m.shape sh
      have w := ih sh' (by omega) ht
      refine ⟨?_, w.shape, w.one, fun _ => w.some (by omega), w.sum.trans (m.sum sh), fun g hv => ?_⟩
      · have e := w.frame
        rw [m.frame] at e
        exact e
      · exact w.heavy (m.greedy sh g) (m.heavy sh g hv)
    · cases h; exact ⟨rfl, ⟨inner, sh⟩, by omega, id, rfl, fun _ => id⟩

/-- The merges end well where the counts add up to a count (R125, R130). -/
theorem mergeAll_succeeds (n : Nat) (sh : TreeShape s.node leaves inner s.pq s.root s.rootValid)
    (hsum : pqSum s.node s.pq ≤ 2 ^ 64 - 1) : ∃ t, mergeAll n s = .ok t := by
  induction n generalizing s inner with
  | zero => exact ⟨s, rfl⟩
  | succ n ih =>
    rw [mergeAll]
    split
    · rename_i h2
      obtain ⟨u, hu⟩ := treeMerge_succeeds h2 fun a ha b hb => (two_le_sum ha hb).trans hsum
      obtain ⟨a, b, m⟩ := treeMerge_ok hu
      obtain ⟨t, ht⟩ := ih (m.shape sh).1 (by rw [m.sum sh]; exact hsum)
      exact ⟨t, by rw [hu]; exact ht⟩
    · exact ⟨s, rfl⟩

/-- The merges can only overflow (R126). -/
theorem mergeAll_error {n : Nat} {e : Stop} (h : mergeAll n s = .error e) : e = .trap .countOverflow := by
  induction n generalizing s with
  | zero => cases h
  | succ n ih =>
    rw [mergeAll] at h
    split at h
    · rcases bind_eq_error.1 h with h | ⟨u, -, h⟩
      · rcases treeMerge_error h with ⟨-, h⟩ | ⟨h, -⟩
        · omega
        · exact h
      · exact ih h
    · cases h

/-! ### `TreeBuild` (R126) -/

theorem treeInit_sum (h : treeInit s = .ok t) :
    pqSum t.node t.pq = (symbols.map (fun y => (tableGet s.hist y).toNat)).sum := by
  obtain ⟨rfl, -⟩ := treeInit_ok h
  rw [← leavesOf_sum]
  simp only [pqSum]
  congr 1
  refine List.ext_getElem (by simp) fun i hi _ => ?_
  have hl : i < (leavesOf s.hist).length := by simpa using hi
  have h5 : i < 512 := by have := leavesOf_length_le s.hist; omega
  simp [firstIndices, cntOf, nodeAt, Nat.mod_eq_of_lt h5, hl]

theorem treeInit_greedy (h : treeInit s = .ok t) : Greedy t.node t.pq := by
  obtain ⟨rfl, -⟩ := treeInit_ok h
  intro i c l r e
  obtain ⟨y, -, e'⟩ := mem_leavesOf.1 (List.mem_of_getElem? e); cases e'

theorem treeInit_heavy (h : treeInit s = .ok t) : Heavy t.node := by
  have sh := treeInit_shape h
  obtain ⟨rfl, -⟩ := treeInit_ok h
  intro i bits y hl
  cases bits with
  | nil => exact sh.cnt_pos _ i rfl (leafAlong_lt hl)
  | cons b bits =>
    rw [leafAlong_cons] at hl
    obtain ⟨c, l, r, e, -⟩ := hl
    obtain ⟨y, -, e'⟩ := mem_leavesOf.1 (List.mem_of_getElem? e); cases e'

/-- `TreeBuild()` when it ends well (R126): a finished tree over the leaves of the histogram. -/
structure TreeBuilt (s t : State) : Prop where
  frame : t = { s with node := t.node, pq := t.pq, root := t.root, rootValid := t.rootValid }
  shape : ∃ inner, TreeShape t.node (leavesOf s.hist) inner t.pq t.root t.rootValid
  rooted : t.rootValid = true
  size : t.node.length + 1 = 2 * (present s.hist).length
  queue : t.pq = [t.root]
  last : t.root.toNat + 1 = t.node.length
  total : cntOf t.node t.root = (symbols.map (fun y => (tableGet s.hist y).toNat)).sum
  heavy : Heavy t.node

theorem treeBuild_ok (h : treeBuild s = .ok t) : TreeBuilt s t := by
  obtain ⟨u, hu, ht⟩ := bind_eq_ok.1 h
  have sh := treeInit_shape hu
  have b := mergeAll_ok sh (Nat.le_succ _) ht
  obtain ⟨inner, sh'⟩ := b.shape
  obtain ⟨eu, h1⟩ := treeInit_ok hu
  have hpq : 1 ≤ t.pq.length := b.some (by rw [eu]; simpa using h1)
  have h1' : t.pq.length = 1 := by have := b.one; omega
  have hsize := sh'.size
  have hv : t.rootValid = true := sh'.valid.2 ⟨by omega, h1'⟩
  have hr := sh'.rootIs hv
  refine ⟨?_, b.shape, hv, ?_, hr.1, hr.2, ?_, b.heavy (treeInit_greedy hu) (treeInit_heavy hu)⟩
  · have e := b.frame
    rw [eu] at e
    exact e
  · rw [← leavesOf_length]; omega
  · have e := b.sum.trans (treeInit_sum hu)
    rw [hr.1] at e
    simpa [pqSum] using e

/-- `TreeBuild()` ends well with a present symbol and counts that add up to a count (R126, R130). -/
theorem treeBuild_succeeds (hp : present s.hist ≠ [])
    (hsum : (symbols.map (fun y => (tableGet s.hist y).toNat)).sum ≤ 2 ^ 64 - 1) : ∃ t, treeBuild s = .ok t := by
  obtain ⟨u, hu⟩ := treeInit_succeeds hp
  obtain ⟨t, ht⟩ := mergeAll_succeeds u.pq.length (treeInit_shape hu) (by rw [treeInit_sum hu]; exact hsum)
  exact ⟨t, by rw [treeBuild, hu]; exact ht⟩

/-- `TreeBuild()` can only find no symbol, or overflow (R126). -/
theorem treeBuild_error {e : Stop} (h : treeBuild s = .error e) :
    e = .trap .empty ∧ present s.hist = [] ∨ e = .trap .countOverflow := by
  rcases bind_eq_error.1 h with h | ⟨u, -, h⟩
  · exact .inl (treeInit_error h)
  · exact .inr (mergeAll_error h)

end

end Sys2Proof.Machine
end

