-- ==== Sys2Proof/Laws/PerInstr.lean ====
section
/-! SUPPORT. Statements about every command as syntax, one lemma per constructor. `Fields`: the four fields of the
command word of a well-formed command hold its opcode, zero, its length and its value (30_encoding.md R61). -/

namespace Sys2Proof.Laws.Fields

open Sys2Proof

/-- The fields of the command word hold what the command says (R61, R62). -/
def Statement (i : Instr) : Prop :=
  i.wellFormed = true → (opField (encode i)).toNat = i.opcode ∧ rsvField (encode i) = 0 ∧
    (lenField (encode i)).toNat = i.lenOperand ∧ (valField (encode i)).toNat = i.valOperand

/-- A word put together from four fields is cut into the same four fields (R61). -/
theorem fields_append (a : BitVec 8) (b : BitVec 18) (c : BitVec 6) (d : BitVec 32) :
    opField (a ++ (b ++ (c ++ d))) = a ∧ rsvField (a ++ (b ++ (c ++ d))) = b ∧
      lenField (a ++ (b ++ (c ++ d))) = c ∧ valField (a ++ (b ++ (c ++ d))) = d := by
  refine ⟨?_, ?_, ?_, ?_⟩ <;>
  · ext i hi
    simp only [opField, rsvField, lenField, valField, BitVec.getElem_extractLsb', BitVec.getLsbD_append]
    grind

/-- The fields of a command word whose parts fit them (R61). -/
theorem commandWord_fields {op len val : Nat} (ho : op < 2 ^ 8) (hl : len < 2 ^ 6) (hv : val < 2 ^ 32) :
    (opField (commandWord op len val)).toNat = op ∧ rsvField (commandWord op len val) = 0 ∧
      (lenField (commandWord op len val)).toNat = len ∧ (valField (commandWord op len val)).toNat = val := by
  obtain ⟨e1, e2, e3, e4⟩ := fields_append (BitVec.ofNat 8 op) 0#18 (BitVec.ofNat 6 len) (BitVec.ofNat 32 val)
  unfold commandWord
  rw [e1, e2, e3, e4]
  simp only [BitVec.toNat_ofNat]
  exact ⟨Nat.mod_eq_of_lt ho, rfl, Nat.mod_eq_of_lt hl, Nat.mod_eq_of_lt hv⟩

/-- Every opcode is a byte (R61). -/
theorem opcode_lt (i : Instr) : i.opcode < 2 ^ 8 := by
  cases i <;> simp [Instr.opcode]

/-- The statement of a command follows from the bounds of its parts. -/
theorem of_bounds {i : Instr} (h : i.wellFormed = true → i.lenOperand < 2 ^ 6 ∧
    i.valOperand < 2 ^ 32) : Statement i := fun hw => commandWord_fields (opcode_lt i) (h hw).1 (h hw).2

theorem ctlNop : Statement (.ctlNop) := of_bounds fun _ => by decide
theorem ctlReset : Statement (.ctlReset) := of_bounds fun _ => by decide
theorem bwBit (val : Nat) : Statement (.bwBit val) :=
  of_bounds fun h => by simp_all [Instr.wellFormed, fitsVal, Instr.lenOperand, Instr.valOperand]
theorem bwBits (val : Nat) (len : Nat) : Statement (.bwBits val len) :=
  of_bounds fun h => by simp_all [Instr.wellFormed, fitsVal, fitsLen, Instr.lenOperand, Instr.valOperand]
theorem bwFlush : Statement (.bwFlush) := of_bounds fun _ => by decide
theorem brBit : Statement (.brBit) := of_bounds fun _ => by decide
theorem brBits (len : Nat) : Statement (.brBits len) :=
  of_bounds fun h => by simp_all [Instr.wellFormed, fitsLen, Instr.lenOperand, Instr.valOperand]
theorem histClr : Statement (.histClr) := of_bounds fun _ => by decide
theorem histAcc (sym : Nat) : Statement (.histAcc sym) :=
  of_bounds fun h => by
    simp only [Instr.wellFormed, fitsSym, decide_eq_true_eq] at h
    simp only [Instr.lenOperand, Instr.valOperand]; omega
theorem histScan : Statement (.histScan) := of_bounds fun _ => by decide
theorem treeInit : Statement (.treeInit) := of_bounds fun _ => by decide
theorem treeMerge : Statement (.treeMerge) := of_bounds fun _ => by decide
theorem treeBuild : Statement (.treeBuild) := of_bounds fun _ => by decide
theorem codeWalk : Statement (.codeWalk) := of_bounds fun _ => by decide
theorem hdrWrite : Statement (.hdrWrite) := of_bounds fun _ => by decide
theorem hdrParse : Statement (.hdrParse) := of_bounds fun _ => by decide
theorem encSym (sym : Nat) : Statement (.encSym sym) :=
  of_bounds fun h => by
    simp only [Instr.wellFormed, fitsSym, decide_eq_true_eq] at h
    simp only [Instr.lenOperand, Instr.valOperand]; omega
theorem encBody : Statement (.encBody) := of_bounds fun _ => by decide
theorem encodeJob : Statement (.encodeJob) := of_bounds fun _ => by decide
theorem decSym : Statement (.decSym) := of_bounds fun _ => by decide
theorem decBody : Statement (.decBody) := of_bounds fun _ => by decide
theorem decodeJob : Statement (.decodeJob) := of_bounds fun _ => by decide

end Sys2Proof.Laws.Fields
end

