-- ==== Sys2Proof/Laws/Decode.lean ====
section
/-! SUPPORT. The five formats of the command word, one lemma each: when a format accepts a word and what it then
spells (30_encoding.md R62); and that a word is what its four fields make (R61). -/

namespace Sys2Proof

variable {w : Word} {i j : Instr}

/-- A word is its four fields put together (R61). -/
theorem word_of_fields (w : Word) : opField w ++ (rsvField w ++ (lenField w ++ valField w)) = w := by
  ext i hi
  simp only [opField, rsvField, lenField, valField]
  grind

/-- With `rsv = 0` a word is the command word of its fields (R61). -/
theorem commandWord_of_fields (h : rsvField w = 0) :
    commandWord (opField w).toNat (lenField w).toNat (valField w).toNat = w := by
  have e := word_of_fields w
  rw [h] at e
  simpa [commandWord] using e

/-- A word from which decoding starts has `rsv = 0` (R65). -/
theorem decode_ok_iff : decode w = .ok i ↔ rsvField w = 0 ∧ decodeOp w = .ok i := by
  by_cases h : rsvField w = 0#18 <;> simp [decode, h]

theorem formatZ_ok_iff : formatZ w i = .ok j ↔ lenField w = 0 ∧ valField w = 0 ∧ j = i := by
  by_cases h : lenField w = 0#6 <;> by_cases h' : valField w = 0#32 <;> simp [formatZ, h, h', eq_comm]

theorem formatV32_ok_iff {mk : Nat → Instr} :
    formatV32 w mk = .ok j ↔ lenField w = 0 ∧ j = mk (valField w).toNat := by
  by_cases h : lenField w = 0#6 <;> simp [formatV32, h, eq_comm]

theorem formatV8_ok_iff {mk : Nat → Instr} :
    formatV8 w mk = .ok j ↔ lenField w = 0 ∧ (valField w).toNat < 2 ^ 8 ∧ j = mk (valField w).toNat := by
  by_cases h : lenField w = 0#6
  · by_cases h' : (valField w).toNat < 256
    · simp [formatV8, h, h', eq_comm]
    · simp [formatV8, h, h']
  · simp [formatV8, h]

theorem formatL_ok_iff {mk : Nat → Instr} :
    formatL w mk = .ok j ↔ valField w = 0 ∧ j = mk (lenField w).toNat := by
  by_cases h : valField w = 0#32 <;> simp [formatL, h, eq_comm]

theorem formatVL_ok_iff {mk : Nat → Nat → Instr} :
    formatVL w mk = .ok j ↔ j = mk (valField w).toNat (lenField w).toNat := by
  simp [formatVL, eq_comm]

end Sys2Proof
end

