-- ==== Sys2Proof/Laws/Reader.lean ====
section
/-! SUPPORT. The bit reader, one lemma per primitive: what it does when it ends well, when it does, and how it
fails (40_bitstream.md R96, R97). -/

namespace Sys2Proof.Machine

open Sys2Proof

/-! ### The source as a list -/

@[simp] theorem source_length (s : State) : s.source.length = s.srcLen.toNat := by simp [State.source]

theorem source_drop {s : State} {i : Nat} (h : i < s.srcLen.toNat) :
    s.source.drop i = s.srcRead i :: s.source.drop (i + 1) := by
  rw [List.drop_eq_getElem_cons (by simpa using h)]
  simp [State.source]

/-! ### What the reader does -/

/-- From `s` to `t` the reader has given `bits`, and nothing else has changed. -/
structure Read (bits : List Bool) (s t : State) : Prop where
  frame : t = { s with srcPos := t.srcPos, brByte := t.brByte, brCnt := t.brCnt }
  stream : s.unread = bits ++ t.unread
  within : s.brCnt.toNat ≤ 8 → t.brCnt.toNat ≤ 8
  position : s.srcPos.toNat ≤ s.srcLen.toNat → t.srcPos.toNat ≤ t.srcLen.toNat

theorem Read.refl (s : State) : Read [] s s := ⟨rfl, rfl, id, id⟩

theorem Read.trans {b c : List Bool} {s t u : State} (h : Read b s t) (h' : Read c t u) :
    Read (b ++ c) s u where
  frame := by
    have e := h'.frame
    rw [h.frame] at e
    exact e
  stream := by rw [h.stream, h'.stream, List.append_assoc]
  within hs := h'.within (h.within hs)
  position hs := h'.position (h.position hs)

section
variable {bits : List Bool} {s t : State}

theorem Read.src (h : Read bits s t) : t.src = s.src := by rw [h.frame]
theorem Read.srcLen (h : Read bits s t) : t.srcLen = s.srcLen := by rw [h.frame]
theorem Read.snk (h : Read bits s t) : t.snk = s.snk := by rw [h.frame]
theorem Read.snkSync (h : Read bits s t) : t.snkSync = s.snkSync := by rw [h.frame]
theorem Read.status (h : Read bits s t) : t.status = s.status := by rw [h.frame]
theorem Read.fcmd (h : Read bits s t) : t.fcmd = s.fcmd := by rw [h.frame]
theorem Read.cfg (h : Read bits s t) : t.cfg = s.cfg := by rw [h.frame]
theorem Read.host (h : Read bits s t) : t.host = s.host := by rw [h.frame]
theorem Read.faults (h : Read bits s t) : t.faults = s.faults := by rw [h.frame]
theorem Read.bwAcc (h : Read bits s t) : t.bwAcc = s.bwAcc := by rw [h.frame]
theorem Read.bwCnt (h : Read bits s t) : t.bwCnt = s.bwCnt := by rw [h.frame]
theorem Read.res (h : Read bits s t) : t.res = s.res := by rw [h.frame]
theorem Read.hist (h : Read bits s t) : t.hist = s.hist := by rw [h.frame]
theorem Read.histTotal (h : Read bits s t) : t.histTotal = s.histTotal := by rw [h.frame]
theorem Read.node (h : Read bits s t) : t.node = s.node := by rw [h.frame]
theorem Read.pq (h : Read bits s t) : t.pq = s.pq := by rw [h.frame]
theorem Read.root (h : Read bits s t) : t.root = s.root := by rw [h.frame]
theorem Read.rootValid (h : Read bits s t) : t.rootValid = s.rootValid := by rw [h.frame]
theorem Read.ct (h : Read bits s t) : t.ct = s.ct := by rw [h.frame]
theorem Read.dt (h : Read bits s t) : t.dt = s.dt := by rw [h.frame]
theorem Read.decRem (h : Read bits s t) : t.decRem = s.decRem := by rw [h.frame]
theorem Read.err (h : Read bits s t) : t.err = s.err := by simp [State.err, h.status]
theorem Read.srcRead (h : Read bits s t) (i : Nat) : t.srcRead i = s.srcRead i := by
  simp [State.srcRead, h.src]
theorem Read.source (h : Read bits s t) : t.source = s.source := by
  simp [State.source, h.srcLen, funext h.srcRead]
theorem Read.takes (h : Read bits s t) (n : Nat) : t.sinkTakes n ↔ s.sinkTakes n := by
  simp [State.sinkTakes, h.cfg, h.snk]

end

/-! ### `ReadBit` -/

theorem brCnt_eq_zero {c : BitVec 4} : c = 0 ↔ c.toNat = 0 := by revert c; decide

theorem brCnt_pred {c : BitVec 4} (h : c ≠ 0) : c.toNat = (c - 1).toNat + 1 := by revert c; decide

theorem unread_of_exhausted {s : State} (h : s.brCnt = 0) :
    s.unread = streamOf (s.source.drop s.srcPos.toNat) := by simp [State.unread, h]

/-- The refill when it ends well: no bit is lost, and one is there to be read (R96). -/
theorem refill_ok {tag : Field} {s t : State} (h : refill tag s = .ok t) : Read [] s t ∧ t.brCnt ≠ 0 := by
  unfold refill at h
  split at h
  · rename_i h0
    split at h
    · cases h
    · rename_i hlt
      have hp : s.srcPos.toNat < s.srcLen.toNat := by
        simpa [BitVec.le_def, Nat.not_le] using hlt
      have hs : (s.srcPos + 1).toNat = s.srcPos.toNat + 1 := by
        rw [BitVec.toNat_add]
        have := s.srcLen.isLt
        simp; omega
      cases h
      refine ⟨⟨rfl, ?_, fun _ => by simp, fun _ => ?_⟩, by simp⟩
      · rw [unread_of_exhausted h0, source_drop hp, streamOf_cons]
        simp only [State.unread, hs]
        rfl
      · simp only [hs]; omega
  · rename_i h0
    cases h
    exact ⟨Read.refl _, h0⟩

/-- `ReadBit(tag)` when it ends well (R96). -/
theorem readBit_ok {tag : Field} {s t : State} {b : Bool} (h : readBit tag s = .ok (b, t)) :
    Read [b] s t := by
  obtain ⟨u, hu, ht⟩ := bind_eq_ok.1 h
  obtain ⟨hr, h0⟩ := refill_ok hu
  cases ht
  have hc := brCnt_pred h0
  refine hr.trans ⟨rfl, ?_, fun h8 => ?_, id⟩
  · simp only [State.unread]
    rw [hc, bitString_succ]
    rfl
  · simp only; omega

/-- An exhausted byte is loaded first, and its bit 7 read (R96). -/
theorem readBit_loads (tag : Field) {s : State} (h : s.brCnt = 0) (hp : s.srcPos.toNat < s.srcLen.toNat) :
    readBit tag s = .ok ((s.srcRead s.srcPos.toNat).getLsbD 7,
      { s with brByte := s.srcRead s.srcPos.toNat, srcPos := s.srcPos + 1, brCnt := 7 }) := by
  unfold readBit refill
  rw [if_pos h, if_neg (by rw [BitVec.le_def]; omega), ok_bind, show (8 - 1 : BitVec 4) = 7 from rfl]
  rfl

/-- Otherwise the next bit of the byte is read (R96). -/
theorem readBit_next (tag : Field) {s : State} (h : s.brCnt ≠ 0) :
    readBit tag s = .ok (s.brByte.getLsbD (s.brCnt - 1).toNat, { s with brCnt := s.brCnt - 1 }) := by
  unfold readBit refill
  rw [if_neg h]
  rfl

/-- With the byte exhausted and no byte left TruncatedStream(tag) is raised (R96). -/
theorem readBit_truncated (tag : Field) {s : State} (h : s.brCnt = 0) (hp : s.srcLen.toNat ≤ s.srcPos.toNat) :
    readBit tag s = raise (.truncated tag) := by
  unfold readBit refill
  rw [if_pos h, if_pos (by rw [BitVec.le_def]; exact hp)]
  rfl

/-- `ReadBit(tag)` ends well exactly where a bit is left (R96). -/
theorem readBit_succeeds (tag : Field) {s : State} (h : s.unread ≠ []) :
    ∃ b t, readBit tag s = .ok (b, t) := by
  have : ∃ u, refill tag s = .ok u := by
    unfold refill
    split
    · rename_i h0
      split
      · rename_i hle
        refine absurd ?_ h
        rw [unread_of_exhausted h0, List.drop_of_length_le (by simpa [BitVec.le_def] using hle)]
        rfl
      · exact ⟨_, rfl⟩
    · exact ⟨_, rfl⟩
  obtain ⟨u, hu⟩ := this
  exact ⟨_, _, by simp [readBit, hu]; exact ⟨rfl, rfl⟩⟩

/-- `ReadBit(tag)` can only find the source exhausted (R96). -/
theorem readBit_error {tag : Field} {s : State} {e : Stop} (h : readBit tag s = .error e) :
    e = .trap (.truncated tag) ∧ s.unread = [] := by
  rcases bind_eq_error.1 h with h | ⟨u, -, h⟩
  · refine ⟨?_, ?_⟩
    · unfold refill at h
      split at h
      · split at h
        · cases h; rfl
        · cases h
      · cases h
    · by_contra hne
      obtain ⟨b, t, ht⟩ := readBit_succeeds tag hne
      obtain ⟨u, hu, -⟩ := bind_eq_ok.1 ht
      rw [h] at hu; cases hu
  · cases h

/-! ### `GetBits` -/

theorem getBitsFrom_ok {tag : Field} {n v w : Nat} {s t : State}
    (h : getBitsFrom tag n v s = .ok (w, t)) :
    ∃ bits : List Bool, bits.length = n ∧ Read bits s t ∧
      w = bits.foldl (fun v b => 2 * v + b.toNat) v := by
  induction n generalizing v s with
  | zero => cases h; exact ⟨[], rfl, Read.refl _, rfl⟩
  | succ n ih =>
    obtain ⟨⟨b, u⟩, hu, ht⟩ := bind_eq_ok.1 h
    obtain ⟨bits, hl, hr, hw⟩ := ih ht
    exact ⟨b :: bits, by simp [hl], (readBit_ok hu).trans hr, hw⟩

/-- `GetBits(n, tag)` when it ends well: it gives the next `n` bits as a number (R97). -/
theorem getBits_ok {tag : Field} {n w : Nat} {s t : State} (h : getBits n tag s = .ok (w, t)) :
    ∃ bits : List Bool, bits.length = n ∧ Read bits s t ∧ w = bitsValue bits :=
  getBitsFrom_ok h

theorem getBitsFrom_succeeds (tag : Field) {n : Nat} (v : Nat) {s : State} (h : n ≤ s.unread.length) :
    ∃ w t, getBitsFrom tag n v s = .ok (w, t) := by
  induction n generalizing v s with
  | zero => exact ⟨v, s, rfl⟩
  | succ n ih =>
    obtain ⟨b, u, hu⟩ := readBit_succeeds tag (s := s) (by intro e; simp [e] at h)
    have hl : n ≤ u.unread.length := by
      have := congrArg List.length (readBit_ok hu).stream
      simp at this; omega
    obtain ⟨w, t, ht⟩ := ih (2 * v + b.toNat) hl
    exact ⟨w, t, by simp [getBitsFrom, hu, ht]⟩

/-- `GetBits(n, tag)` gives the bits that stand next, wherever they do (R97). -/
theorem getBits_of_unread (tag : Field) {s : State} {bits rest : List Bool} (h : s.unread = bits ++ rest) :
    ∃ t, getBits bits.length tag s = .ok (bitsValue bits, t) ∧ Read bits s t ∧ t.unread = rest := by
  obtain ⟨w, t, ht⟩ := getBitsFrom_succeeds tag (n := bits.length) 0 (s := s) (by simp [h])
  obtain ⟨bits', hl, hr, hw⟩ := getBits_ok ht
  have e := hr.stream
  rw [h] at e
  obtain ⟨rfl, hrest⟩ := List.append_inj e hl.symm
  exact ⟨t, by rw [← hw]; exact ht, hr, hrest.symm⟩

/-- `GetBits(n, tag)` fails only where fewer than `n` bits are left (R97). -/
theorem getBits_error {tag : Field} {n : Nat} {s : State} {e : Stop} (h : getBits n tag s = .error e) :
    e = .trap (.truncated tag) ∧ s.unread.length < n := by
  have key : ∀ (n v : Nat) (s : State), getBitsFrom tag n v s = .error e → e = .trap (.truncated tag) := by
    intro n
    induction n with
    | zero => intro v s h; cases h
    | succ n ih =>
      intro v s h
      rcases bind_eq_error.1 h with h | ⟨⟨b, u⟩, -, h⟩
      · exact (readBit_error h).1
      · exact ih _ _ h
  refine ⟨key _ _ _ h, ?_⟩
  by_contra hn
  obtain ⟨w, t, ht⟩ := getBitsFrom_succeeds tag (n := n) 0 (s := s) (by omega)
  rw [getBits, ht] at h
  cases h

/-- Where fewer than `n` bits are left, `GetBits(n, tag)` raises TruncatedStream(tag) (R96, R97). -/
theorem getBits_truncated (tag : Field) {n : Nat} {s : State} (h : s.unread.length < n) :
    getBits n tag s = raise (.truncated tag) := by
  match hg : getBits n tag s with
  | .ok (w, t) =>
    obtain ⟨bits, hl, hr, -⟩ := getBits_ok hg
    have := congrArg List.length hr.stream
    simp at this; omega
  | .error e => rw [(getBits_error hg).1]

end Sys2Proof.Machine
end

