-- ==== Sys2Proof/Laws/Walk.lean ====
section
/-! SUPPORT. The walk (43_code_table.md R140 to R144): what it records, when it ends well, that every leaf of a
finished tree is reached by exactly one path, and that the codes are prefix-free. -/

namespace Sys2Proof.Machine

open Sys2Proof

/-! ### Paths -/

/-- The node reached from node `i` along a bit string. -/
def nodeAlong (nodes : List Node) : List Bool → NodeIdx → Option NodeIdx
  | [], i => some i
  | b :: bits, i =>
    match nodes[i.toNat]? with
    | some (.internal _ l r) => nodeAlong nodes bits (if b then r else l)
    | _ => none

theorem nodeAlong_cons {nodes : List Node} {b : Bool} {bits : List Bool} {i k : NodeIdx} :
    nodeAlong nodes (b :: bits) i = some k ↔
      ∃ c l r, nodes[i.toNat]? = some (.internal c l r) ∧ nodeAlong nodes bits (if b then r else l) = some k := by
  rw [nodeAlong]
  constructor
  · intro h
    split at h
    · rename_i c l r e; exact ⟨c, l, r, e, h⟩
    · cases h
  · rintro ⟨c, l, r, e, h⟩; rw [e]; exact h

/-- The last branch of a path leaves from the node's parent. -/
theorem nodeAlong_snoc {nodes : List Node} {bits : List Bool} {b : Bool} {i k : NodeIdx} :
    nodeAlong nodes (bits ++ [b]) i = some k ↔ ∃ p c l r, nodeAlong nodes bits i = some p ∧
      nodes[p.toNat]? = some (.internal c l r) ∧ (if b then r else l) = k := by
  induction bits generalizing i with
  | nil =>
    rw [List.nil_append, nodeAlong_cons]
    simp only [nodeAlong, Option.some.injEq]
    constructor
    · rintro ⟨c, l, r, e, h⟩; exact ⟨i, c, l, r, rfl, e, h⟩
    · rintro ⟨p, c, l, r, rfl, e, h⟩; exact ⟨c, l, r, e, h⟩
  | cons x bits ih =>
    rw [List.cons_append, nodeAlong_cons]
    constructor
    · rintro ⟨c, l, r, e, h⟩
      obtain ⟨p, c', l', r', hp, e', hk⟩ := ih.1 h
      exact ⟨p, c', l', r', nodeAlong_cons.2 ⟨c, l, r, e, hp⟩, e', hk⟩
    · rintro ⟨p, c', l', r', hp, e', hk⟩
      obtain ⟨c, l, r, e, h⟩ := nodeAlong_cons.1 hp
      exact ⟨c, l, r, e, ih.2 ⟨p, c', l', r', h, e', hk⟩⟩

/-- The leaf along a path is the node along it, where that is a Leaf. -/
theorem leafAlong_iff_nodeAlong {nodes : List Node} {bits : List Bool} {i : NodeIdx} {y : Byte} :
    leafAlong nodes bits i = some y ↔
      ∃ k c, nodeAlong nodes bits i = some k ∧ nodes[k.toNat]? = some (.leaf c y) := by
  induction bits generalizing i with
  | nil => rw [leafAlong_nil]; simp [nodeAlong]
  | cons b bits ih =>
    rw [leafAlong_cons]
    constructor
    · rintro ⟨c, l, r, e, h⟩
      obtain ⟨k, c', hk, e'⟩ := ih.1 h
      exact ⟨k, c', nodeAlong_cons.2 ⟨c, l, r, e, hk⟩, e'⟩
    · rintro ⟨k, c', hk, e'⟩
      obtain ⟨c, l, r, e, h⟩ := nodeAlong_cons.1 hk
      exact ⟨c, l, r, e, ih.2 ⟨k, c', h, e'⟩⟩

/-- No path goes on beyond a leaf. -/
theorem leafAlong_beyond {nodes : List Node} {bits more : List Bool} {i : NodeIdx} {y z : Byte}
    (h : leafAlong nodes bits i = some y) (h' : leafAlong nodes (bits ++ more) i = some z) :
    more = [] ∧ y = z := by
  induction bits generalizing i with
  | nil =>
    obtain ⟨c, e⟩ := leafAlong_nil.1 h
    cases more with
    | nil => rw [List.append_nil, h] at h'; cases h'; exact ⟨rfl, rfl⟩
    | cons b more =>
      obtain ⟨c', l, r, e', -⟩ := leafAlong_cons.1 h'
      rw [e] at e'; cases e'
  | cons b bits ih =>
    obtain ⟨c, l, r, e, h⟩ := leafAlong_cons.1 h
    obtain ⟨c', l', r', e', h'⟩ := leafAlong_cons.1 h'
    rw [e] at e'; cases e'
    exact ih h h'

/-! ### Paths in a tree of the shape -/

section
variable {nodes leaves inner : List Node} {pq : List NodeIdx} {root : NodeIdx} {rv : Bool}

theorem TreeShape.length_le (sh : TreeShape nodes leaves inner pq root rv) : nodes.length ≤ 512 := by
  have := sh.size
  have := sh.bound
  omega

/-- A path leads to smaller indices (R130). -/
theorem TreeShape.nodeAlong_le (sh : TreeShape nodes leaves inner pq root rv) {bits : List Bool} {i k : NodeIdx}
    (h : nodeAlong nodes bits i = some k) : k.toNat + bits.length ≤ i.toNat := by
  induction bits generalizing i with
  | nil => cases h; simp
  | cons b bits ih =>
    obtain ⟨c, l, r, e, h⟩ := nodeAlong_cons.1 h
    obtain ⟨hl, hr, -, -⟩ := sh.children _ c l r e
    have := ih h
    cases b <;> simp at this ⊢ <;> omega

/-- Two paths to one node are one path (R130 b). -/
theorem TreeShape.path_unique (sh : TreeShape nodes leaves inner pq root rv) {bits bits' : List Bool}
    {i k : NodeIdx} (h : nodeAlong nodes bits i = some k) (h' : nodeAlong nodes bits' i = some k) :
    bits = bits' := by
  induction bits using List.reverseRecOn generalizing bits' k with
  | nil =>
    cases h
    have := sh.nodeAlong_le h'
    exact (List.length_eq_zero_iff.1 (by omega)).symm
  | append_singleton bits b ih =>
    obtain ⟨p, c, l, r, hp, e, hk⟩ := nodeAlong_snoc.1 h
    rcases List.eq_nil_or_concat bits' with rfl | ⟨bits'', b', rfl⟩
    · cases h'
      have := sh.nodeAlong_le h
      simp at this
    · rw [List.concat_eq_append] at h'
      obtain ⟨p', c', l', r', hp', e', hk'⟩ := nodeAlong_snoc.1 h'
      have hpp : p = p' := by
        by_contra hne
        have hne : p.toNat ≠ p'.toNat := fun e => hne (BitVec.eq_of_toNat_eq e)
        have := sh.oneParent _ _ _ _ _ _ _ _ e e' hne
        subst hk
        cases b <;> cases b' <;> simp at hk' <;> simp [hk'] at this
      subst hpp
      rw [e] at e'; cases e'
      have hlr := (sh.children _ _ _ _ e).2.2.1
      have hbb : b = b' := by
        subst hk
        cases b <;> cases b' <;> simp at hk' ⊢
        · exact hlr hk'.symm
        · exact hlr hk'
      subst hbb
      rw [ih hp hp', List.concat_eq_append]

/-- A leaf of the shape is the only one of its symbol. -/
theorem TreeShape.leaf_unique (sh : TreeShape nodes leaves inner pq root rv) {i j : NodeIdx} {c d : Count}
    {y : Byte} (h : nodes[i.toNat]? = some (.leaf c y)) (h' : nodes[j.toNat]? = some (.leaf d y)) : i = j := by
  obtain ⟨hi, ei⟩ := sh.leafAt h
  obtain ⟨hj, ej⟩ := sh.leafAt h'
  have nd : (leaves.map Node.sym).Nodup := sh.ascending.imp fun h => by rintro rfl; exact absurd h (by simp)
  refine BitVec.eq_of_toNat_eq ?_
  refine (List.nodup_iff_getElem?_ne_getElem?.1 nd |> fun nd' => ?_)
  by_contra hne
  rcases Nat.lt_or_gt_of_ne hne with hlt | hlt
  · exact nd' _ _ hlt (by simpa using hj) (by simp [ei, ej, Node.sym])
  · exact nd' _ _ hlt (by simpa using hi) (by simp [ei, ej, Node.sym])

/-- Two paths to leaves of one symbol are one path. -/
theorem TreeShape.code_unique (sh : TreeShape nodes leaves inner pq root rv) {bits bits' : List Bool}
    {i : NodeIdx} {y : Byte} (h : leafAlong nodes bits i = some y) (h' : leafAlong nodes bits' i = some y) :
    bits = bits' := by
  obtain ⟨k, c, hk, e⟩ := leafAlong_iff_nodeAlong.1 h
  obtain ⟨k', c', hk', e'⟩ := leafAlong_iff_nodeAlong.1 h'
  have := sh.leaf_unique e e'
  subst this
  exact sh.path_unique hk hk'

/-- In a finished tree every node is reached from the root (R130 b). -/
theorem TreeShape.reached (sh : TreeShape nodes leaves inner pq root true) {k : NodeIdx}
    (hk : k.toNat < nodes.length) : ∃ bits, nodeAlong nodes bits root = some k := by
  have hroot := sh.rootIs rfl
  have key : ∀ (d : Nat) (k : NodeIdx), nodes.length - k.toNat = d → k.toNat < nodes.length →
      ∃ bits, nodeAlong nodes bits root = some k := by
    intro d
    induction d using Nat.strong_induction_on with
    | _ d ih =>
      intro k hd hk
      by_cases hr : k = root
      · subst hr; exact ⟨[], rfl⟩
      · have hnot : k ∉ pq := by rw [hroot.1]; simpa using hr
        rw [sh.members] at hnot
        have : ∃ (j : Nat) (c : Count) (l r : NodeIdx),
            nodes[j]? = some (.internal c l r) ∧ (l = k ∨ r = k) := by
          by_contra hno
          refine hnot ⟨hk, fun j c l r e => ?_⟩
          constructor <;> intro e'
          · exact hno ⟨j, c, l, r, e, .inl e'⟩
          · exact hno ⟨j, c, l, r, e, .inr e'⟩
        obtain ⟨j, c, l, r, e, hlr⟩ := this
        have hj := (List.getElem?_eq_some_iff.1 e).1
        obtain ⟨hl, hr', -, -⟩ := sh.children j c l r e
        have hjn : (BitVec.ofNat 9 j : NodeIdx).toNat = j := by
          have := sh.length_le
          simp; omega
        have hkj : k.toNat < j := by rcases hlr with rfl | rfl <;> assumption
        obtain ⟨bits, hb⟩ := ih (nodes.length - j) (by omega) (BitVec.ofNat 9 j) (by rw [hjn]) (by omega)
        refine ⟨bits ++ [decide (r = k)], nodeAlong_snoc.2 ⟨_, c, l, r, hb, by rw [hjn]; exact e, ?_⟩⟩
        by_cases h2 : r = k
        · simp [h2]
        · simp [h2]; exact hlr.resolve_right h2
  exact key _ k rfl hk

end

/-! ### What the walk records (R140) -/

/-- The entry of a bit string. -/
def entryOf (bits : List Bool) : CodeEntry :=
  { code := BitVec.ofNat 63 (bitsValue bits), len := BitVec.ofNat 6 bits.length }

theorem entryOf_bits {bits : List Bool} (h : bits.length ≤ 63) :
    bitString (entryOf bits).code.toNat (entryOf bits).len.toNat = bits := by
  have hv := bitsValue_lt bits
  have : 2 ^ bits.length ≤ 2 ^ 63 := Nat.pow_le_pow_right (by omega) h
  have e1 : (entryOf bits).code.toNat = bitsValue bits := by
    simp only [entryOf, BitVec.toNat_ofNat]; rw [Nat.mod_eq_of_lt (by omega)]
  have e2 : (entryOf bits).len.toNat = bits.length := by
    simp only [entryOf, BitVec.toNat_ofNat]; rw [Nat.mod_eq_of_lt (by omega)]
  rw [e1, e2, bitString_bitsValue]

theorem entryOf_range {bits : List Bool} (h : bits.length ≤ 63) :
    (entryOf bits).len.toNat = bits.length ∧ (entryOf bits).code.toNat < 2 ^ (entryOf bits).len.toNat := by
  have hv := bitsValue_lt bits
  have : 2 ^ bits.length ≤ 2 ^ 63 := Nat.pow_le_pow_right (by omega) h
  have e2 : (entryOf bits).len.toNat = bits.length := by
    simp only [entryOf, BitVec.toNat_ofNat]; rw [Nat.mod_eq_of_lt (by omega)]
  refine ⟨e2, ?_⟩
  rw [e2]
  simp only [entryOf, BitVec.toNat_ofNat]
  exact Nat.lt_of_le_of_lt (Nat.mod_le _ _) hv

theorem bitsValue_snoc (bits : List Bool) (b : Bool) :
    bitsValue (bits ++ [b]) = 2 * bitsValue bits + b.toNat := by
  simp [bitsValue]

/-- The walk below node `i`, reached along `pre`, when it ends well: each symbol with a leaf below has the code
of a path to it, and every other entry is as before (R140). -/
theorem walk_ok {nodes : List Node} {fuel : Nat} {i : NodeIdx} {pre : List Bool} {ct ct' : CodeTable}
    (h : walk nodes fuel i (bitsValue pre) pre.length ct = .ok ct') (hlen : i.toNat < nodes.length)
    (hc : ∀ (i : Nat) c l r, nodes[i]? = some (.internal c l r) → l.toNat < nodes.length ∧ r.toNat < nodes.length)
    (y : Byte) :
    (∃ bits, leafAlong nodes bits i = some y ∧ tableGet ct' y = some (entryOf (pre ++ bits)) ∧
      (pre ++ bits).length ≤ 63) ∨
    ((∀ bits, leafAlong nodes bits i ≠ some y) ∧ tableGet ct' y = tableGet ct y) := by
  induction fuel generalizing i pre ct ct' with
  | zero => cases h
  | succ fuel ih =>
    rw [walk] at h
    have hget := getElem?_of_nodeAt hlen
    split at h
    · rename_i c z hz
      rw [hz] at hget
      split at h
      · cases h
      · rename_i hl
        cases h
        by_cases hy : y = z
        · subst hy
          refine .inl ⟨[], leafAlong_nil.2 ⟨c, hget⟩, ?_, ?_⟩
          · simp [setCode, entryOf]
          · simpa [Config.maxLen] using hl
        · refine .inr ⟨fun bits hb => ?_, ?_⟩
          · cases bits with
            | nil =>
              obtain ⟨c', e⟩ := leafAlong_nil.1 hb
              rw [hget] at e; cases e; exact hy rfl
            | cons b bits =>
              obtain ⟨c', l, r, e, -⟩ := leafAlong_cons.1 hb
              rw [hget] at e; cases e
          · simp [setCode, tableGet_tableSet, hy]
    · rename_i c l r hi
      rw [hi] at hget
      obtain ⟨hl, hr⟩ := hc _ c l r hget
      obtain ⟨ct1, h1, h2⟩ := bind_eq_ok.1 h
      have e1 : 2 * bitsValue pre = bitsValue (pre ++ [false]) := by simp [bitsValue_snoc]
      have e2 : 2 * bitsValue pre + 1 = bitsValue (pre ++ [true]) := by simp [bitsValue_snoc]
      have e3 : ∀ b : Bool, pre.length + 1 = (pre ++ [b]).length := by simp
      rw [e1, e3 false] at h1
      rw [e2, e3 true] at h2
      have hleaf : ∀ bits, leafAlong nodes bits i = some y ↔ ∃ b bits', bits = b :: bits' ∧
          leafAlong nodes bits' (if b then r else l) = some y := by
        intro bits
        cases bits with
        | nil => rw [leafAlong_nil]; simp [hget]
        | cons b bits =>
          rw [leafAlong_cons]
          constructor
          · rintro ⟨c', l', r', e, h⟩
            rw [hget] at e; cases e; exact ⟨b, bits, rfl, h⟩
          · rintro ⟨b', bits', e, h⟩
            cases e; exact ⟨c, l, r, hget, h⟩
      rcases ih h2 hr with ⟨bits, hb, he, hlen63⟩ | ⟨hno, hsame⟩
      · refine .inl ⟨true :: bits, (hleaf _).2 ⟨true, bits, rfl, by simpa using hb⟩, ?_, ?_⟩
        · simpa using he
        · simpa using hlen63
      · rcases ih h1 hl with ⟨bits, hb, he, hlen63⟩ | ⟨hno', hsame'⟩
        · refine .inl ⟨false :: bits, (hleaf _).2 ⟨false, bits, rfl, by simpa using hb⟩, ?_, ?_⟩
          · rw [hsame]; simpa using he
          · simpa using hlen63
        · refine .inr ⟨fun bits hb => ?_, by rw [hsame, hsame']⟩
          obtain ⟨b, bits', -, hb⟩ := (hleaf _).1 hb
          cases b
          · exact hno' _ (by simpa using hb)
          · exact hno _ (by simpa using hb)

/-- The walk ends well where no path is longer than 63 (R140). -/
theorem walk_succeeds {nodes : List Node} {fuel : Nat} {i : NodeIdx} {v l : Nat} (ct : CodeTable)
    (hf : i.toNat < fuel) (hlen : i.toNat < nodes.length)
    (hc : ∀ (i : Nat) c l r, nodes[i]? = some (.internal c l r) → l.toNat < i ∧ r.toNat < i)
    (hd : ∀ bits y, leafAlong nodes bits i = some y → l + bits.length ≤ 63) :
    ∃ ct', walk nodes fuel i v l ct = .ok ct' := by
  induction fuel generalizing i v l ct with
  | zero => omega
  | succ fuel ih =>
    rw [walk]
    have hget := getElem?_of_nodeAt hlen
    split
    · rename_i c z hz
      rw [hz] at hget
      have := hd [] z (leafAlong_nil.2 ⟨c, hget⟩)
      rw [if_neg (by simp [Config.maxLen] at this ⊢; omega)]
      exact ⟨_, rfl⟩
    · rename_i c a b hi
      rw [hi] at hget
      obtain ⟨ha, hb⟩ := hc _ c a b hget
      obtain ⟨ct1, h1⟩ := ih (v := 2 * v) (l := l + 1) ct (i := a) (by omega) (by omega) fun bits y h => by
        have := hd (false :: bits) y (leafAlong_cons.2 ⟨c, a, b, hget, by simpa using h⟩)
        simp at this; omega
      obtain ⟨ct2, h2⟩ := ih (v := 2 * v + 1) (l := l + 1) ct1 (i := b) (by omega) (by omega) fun bits y h => by
        have := hd (true :: bits) y (leafAlong_cons.2 ⟨c, a, b, hget, by simpa using h⟩)
        simp at this; omega
      exact ⟨ct2, by rw [h1]; exact h2⟩

/-- In an arena whose children have smaller indices the walk can only find a leaf too deep (R140). -/
theorem walk_error {nodes : List Node} {fuel : Nat} {i : NodeIdx} {v l : Nat} {ct : CodeTable} {e : Stop}
    (hf : i.toNat < fuel) (hlen : i.toNat < nodes.length)
    (hc : ∀ (i : Nat) c l r, nodes[i]? = some (.internal c l r) → l.toNat < i ∧ r.toNat < i)
    (h : walk nodes fuel i v l ct = .error e) :
    e = .trap .codeTooLong ∧ ∃ bits y, leafAlong nodes bits i = some y ∧ 63 < l + bits.length := by
  induction fuel generalizing i v l ct with
  | zero => omega
  | succ fuel ih =>
    rw [walk] at h
    have hget := getElem?_of_nodeAt hlen
    split at h
    · rename_i c z hz
      rw [hz] at hget
      split at h
      · rename_i hl
        cases h
        exact ⟨rfl, [], z, leafAlong_nil.2 ⟨c, hget⟩, by simpa [Config.maxLen] using hl⟩
      · cases h
    · rename_i c a b hi
      rw [hi] at hget
      obtain ⟨ha, hb⟩ := hc _ c a b hget
      rcases bind_eq_error.1 h with h | ⟨ct1, -, h⟩
      · obtain ⟨he, bits, y, hl, h63⟩ := ih (i := a) (by omega) (by omega) h
        exact ⟨he, false :: bits, y, leafAlong_cons.2 ⟨c, a, b, hget, by simpa using hl⟩, by simp; omega⟩
      · obtain ⟨he, bits, y, hl, h63⟩ := ih (i := b) (by omega) (by omega) h
        exact ⟨he, true :: bits, y, leafAlong_cons.2 ⟨c, a, b, hget, by simpa using hl⟩, by simp; omega⟩


/-! ### `CodeWalk` (R141) -/

/-- From `s` to `t` the code table was derived from the finished tree and the tree discarded (R141, R145). -/
structure Coded (s t : State) : Prop where
  frame : t = discardTree { s with ct := t.ct }
  /-- the tree was one leaf, whose symbol has the code 0 of length 1 (R142), or every entry is a path of at most
  63 branches -/
  entries : (∃ c y, nodeAt s.node s.root = .leaf c y ∧
      t.ct = tableSet (Vector.replicate 256 none) y (some { code := 0, len := 1 })) ∨
    ((∃ c l r, nodeAt s.node s.root = .internal c l r) ∧ ∀ y,
      (∃ bits, leafAlong s.node bits s.root = some y ∧ tableGet t.ct y = some (entryOf bits) ∧
        1 ≤ bits.length ∧ bits.length ≤ 63) ∨
      ((∀ bits, leafAlong s.node bits s.root ≠ some y) ∧ tableGet t.ct y = none))

theorem codeWalk_rootValid {s t : State} (h : codeWalk s = .ok t) : s.rootValid = true := by
  unfold codeWalk at h
  split at h
  · cases h
  · rename_i hv; simpa using hv

section
variable {s t : State} {leaves inner : List Node}

theorem TreeShape.root_lt (sh : TreeShape s.node leaves inner s.pq s.root s.rootValid)
    (hv : s.rootValid = true) : s.root.toNat < s.node.length := by
  have := (sh.rootIs hv).2
  omega

/-- `CodeWalk()` when it ends well (R141). -/
theorem codeWalk_ok (sh : TreeShape s.node leaves inner s.pq s.root s.rootValid) (h : codeWalk s = .ok t) :
    Coded s t := by
  have hv := codeWalk_rootValid h
  have hroot := sh.root_lt hv
  have hget := getElem?_of_nodeAt hroot
  unfold codeWalk at h
  rw [if_neg (by simp [hv])] at h
  obtain ⟨ct, hct, ht⟩ := bind_eq_ok.1 h
  cases ht
  refine ⟨rfl, ?_⟩
  unfold codesOf at hct
  split at hct
  · rename_i c y hy
    cases hct
    exact .inl ⟨c, y, hy, rfl⟩
  · rename_i c l r hi
    refine .inr ⟨⟨c, l, r, hi⟩, fun y => ?_⟩
    rcases walk_ok (pre := []) hct hroot sh.childrenLt y with ⟨bits, hb, he, h63⟩ | ⟨hno, hsame⟩
    · refine .inl ⟨bits, hb, he, ?_, h63⟩
      cases bits with
      | nil =>
        obtain ⟨c', e⟩ := leafAlong_nil.1 hb
        rw [hget, hi] at e; cases e
      | cons b bits => simp
    · exact .inr ⟨hno, by rw [discardTree_ct, hsame]; simp⟩

/-- `CodeWalk()` ends well with a finished tree that has no leaf below depth 63 (R141). -/
theorem codeWalk_succeeds (sh : TreeShape s.node leaves inner s.pq s.root s.rootValid)
    (hv : s.rootValid = true) (hd : ∀ bits y, leafAlong s.node bits s.root = some y → bits.length ≤ 63) :
    ∃ t, codeWalk s = .ok t := by
  unfold codeWalk codesOf
  rw [if_neg (by simp [hv])]
  split
  · exact ⟨_, rfl⟩
  · obtain ⟨ct, hct⟩ := walk_succeeds (v := 0) (l := 0) (Vector.replicate 256 none) s.root.isLt
      (sh.root_lt hv) (fun i c l r e => ⟨(sh.children i c l r e).1, (sh.children i c l r e).2.1⟩)
      (fun bits y h => by have := hd bits y h; omega)
    exact ⟨_, by rw [walkFuel, hct]; rfl⟩

/-- `CodeWalk()` finds no tree, or a leaf too deep (R141). -/
theorem codeWalk_error {e : Stop} (sh : TreeShape s.node leaves inner s.pq s.root s.rootValid)
    (h : codeWalk s = .error e) :
    e = .trap .noTree ∧ s.rootValid = false ∨
    e = .trap .codeTooLong ∧ ∃ bits y, leafAlong s.node bits s.root = some y ∧ 63 < bits.length := by
  unfold codeWalk codesOf at h
  split at h
  · rename_i hv; cases h; exact .inl ⟨rfl, hv⟩
  · rename_i hv
    have hv : s.rootValid = true := by simpa using hv
    rcases bind_eq_error.1 h with h | ⟨ct, -, h⟩
    · split at h
      · cases h
      · obtain ⟨he, bits, y, hb, h63⟩ := walk_error s.root.isLt (sh.root_lt hv)
          (fun i c l r e => ⟨(sh.children i c l r e).1, (sh.children i c l r e).2.1⟩) h
        exact .inr ⟨he, bits, y, hb, by omega⟩
    · cases h

/-- A leaf symbol of a finished tree lies on a path from the root. -/
theorem TreeShape.leaf_reached (sh : TreeShape s.node leaves inner s.pq s.root s.rootValid)
    (hv : s.rootValid = true) {c : Count} {y : Byte} (h : Node.leaf c y ∈ leaves) :
    ∃ bits, leafAlong s.node bits s.root = some y := by
  obtain ⟨i, hi, e⟩ := List.getElem_of_mem h
  have hi5 : i < 512 := by have := sh.bound; omega
  have hin : (BitVec.ofNat 9 i : NodeIdx).toNat = i := by simp; omega
  have eg : s.node[(BitVec.ofNat 9 i : NodeIdx).toNat]? = some (.leaf c y) := by
    rw [hin, sh.split, List.getElem?_append_left hi]; simp [hi, e]
  have hlt := (List.getElem?_eq_some_iff.1 eg).1
  have sh' := sh
  rw [hv] at sh'
  obtain ⟨bits, hb⟩ := sh'.reached hlt
  exact ⟨bits, leafAlong_iff_nodeAlong.2 ⟨_, c, hb, eg⟩⟩

/-! ### The table that results -/

theorem Coded.entry_iff (w : Coded s t) (sh : TreeShape s.node leaves inner s.pq s.root s.rootValid)
    (hv : s.rootValid = true) (y : Byte) : (tableGet t.ct y).isSome ↔ ∃ c, Node.leaf c y ∈ leaves := by
  have hroot := sh.root_lt hv
  have hget := getElem?_of_nodeAt hroot
  rcases w.entries with ⟨c, z, hz, hct⟩ | ⟨⟨c, l, r, hi⟩, he⟩
  · rw [hz] at hget
    have hzl := sh.leafAt hget
    have hn : leaves.length = 1 := by
      have h1 := (sh.rootIs hv).2
      have h2 := sh.size
      have h3 := (sh.rootIs hv).1
      have h4 : s.node.length ≤ leaves.length := by omega
      rw [h3] at h2
      simp at h2; omega
    have hl : leaves = [.leaf c z] := by
      obtain ⟨x, hx⟩ := List.length_eq_one_iff.1 hn
      have := List.mem_of_getElem? hzl.2
      rw [hx, List.mem_singleton] at this
      rw [hx, this]
    rw [hct, tableGet_tableSet, hl]
    by_cases hy : y = z <;> simp [hy]
  · rcases he y with ⟨bits, hb, hent, -, -⟩ | ⟨hno, hnone⟩
    · rw [hent]
      refine ⟨fun _ => ?_, fun _ => rfl⟩
      obtain ⟨k, c', -, e⟩ := leafAlong_iff_nodeAlong.1 hb
      exact ⟨c', List.mem_of_getElem? (sh.leafAt e).2⟩
    · rw [hnone]
      refine ⟨by simp, fun ⟨c', h⟩ => ?_⟩
      obtain ⟨bits, hb⟩ := sh.leaf_reached hv h
      exact absurd hb (hno bits)

/-- Every entry has a length from 1 to 63 and its code in range (R23, R144). -/
theorem Coded.range (w : Coded s t) {y : Byte} {e : CodeEntry} (h : tableGet t.ct y = some e) :
    1 ≤ e.len.toNat ∧ e.code.toNat < 2 ^ e.len.toNat := by
  rcases w.entries with ⟨c, z, -, hct⟩ | ⟨-, he⟩
  · rw [hct, tableGet_tableSet] at h
    split at h
    · cases h; decide
    · simp at h
  · rcases he y with ⟨bits, -, hent, h1, h63⟩ | ⟨-, hnone⟩
    · rw [hent] at h; cases h
      have := entryOf_range h63
      exact ⟨by omega, this.2⟩
    · rw [hnone] at h; cases h

/-- No code is an initial part of another symbol's (R144). -/
theorem Coded.prefixFree (w : Coded s t) {y z : Byte} {d e : CodeEntry} (hy : tableGet t.ct y = some d)
    (hz : tableGet t.ct z = some e) (hne : y ≠ z) :
    ¬ bitString d.code.toNat d.len.toNat <+: bitString e.code.toNat e.len.toNat := by
  rcases w.entries with ⟨c, x, -, hct⟩ | ⟨-, he⟩
  · rw [hct, tableGet_tableSet] at hy hz
    split at hy
    · split at hz
      · rename_i h1 h2; exact absurd (h1.trans h2.symm) hne
      · simp at hz
    · simp at hy
  · rcases he y with ⟨bits, hb, hent, -, h63⟩ | ⟨-, hnone⟩
    · rcases he z with ⟨bits', hb', hent', -, h63'⟩ | ⟨-, hnone⟩
      · rw [hent] at hy; cases hy
        rw [hent'] at hz; cases hz
        rw [entryOf_bits h63, entryOf_bits h63']
        rintro ⟨more, rfl⟩
        exact hne (leafAlong_beyond hb hb').2
      · rw [hnone] at hz; cases hz
    · rw [hnone] at hy; cases hy

end

/-! ### The entries of a table in order (R155) -/

theorem mem_tableEntries {ct : CodeTable} {e : DecEntry} :
    e ∈ tableEntries ct ↔ tableGet ct e.sym = some { code := e.code, len := e.len } := by
  unfold tableEntries
  rw [List.mem_filterMap]
  constructor
  · rintro ⟨y, -, h⟩
    obtain ⟨d, hd, rfl⟩ := Option.map_eq_some_iff.1 h
    exact hd
  · intro h
    exact ⟨e.sym, mem_symbols _, by rw [h]; rfl⟩

/-- What holds of every two different symbols of a table holds of its entries in order. -/
theorem tableEntries_pairwise {ct : CodeTable} {R : DecEntry → DecEntry → Prop}
    (h : ∀ y z d e, y ≠ z → tableGet ct y = some d → tableGet ct z = some e →
      R { sym := y, len := d.len, code := d.code } { sym := z, len := e.len, code := e.code }) :
    (tableEntries ct).Pairwise R := by
  unfold tableEntries
  rw [List.pairwise_filterMap]
  refine symbols_nodup.imp fun hne d hd e he => ?_
  obtain ⟨d', hd', rfl⟩ := Option.map_eq_some_iff.1 hd
  obtain ⟨e', he', rfl⟩ := Option.map_eq_some_iff.1 he
  exact h _ _ _ _ hne hd' he'

theorem tableEntries_length (ct : CodeTable) : (tableEntries ct).length = ctCount ct := by
  unfold tableEntries ctCount
  induction symbols with
  | nil => rfl
  | cons y l ih =>
    cases h : tableGet ct y with
    | none => rw [List.filterMap_cons_none (by simp [h]), List.countP_cons_of_neg (by simp [h]), ih]
    | some e => rw [List.filterMap_cons_some (by simp [h]; rfl), List.countP_cons_of_pos (by simp [h]), List.length_cons, ih]

theorem ctCount_le (ct : CodeTable) : ctCount ct ≤ 256 := by
  have := List.countP_le_length (p := fun sym => (tableGet ct sym).isSome) (l := symbols)
  rwa [symbols_length] at this

/-- A table whose entries are in range and prefix-free is one that a header may carry (R72, R73, R154). -/
theorem accepted_of {ct : CodeTable} (h : 1 ≤ ctCount ct)
    (hr : ∀ y e, tableGet ct y = some e → 1 ≤ e.len.toNat ∧ e.code.toNat < 2 ^ e.len.toNat)
    (hp : ∀ y z d e, y ≠ z → tableGet ct y = some d → tableGet ct z = some e →
      ¬ bitString d.code.toNat d.len.toNat <+: bitString e.code.toNat e.len.toNat) :
    AcceptedTable (tableEntries ct) := by
  refine ⟨by rw [tableEntries_length]; exact h, by rw [tableEntries_length]; exact ctCount_le ct, ?_, ?_⟩
  · intro e he
    exact hr _ _ (mem_tableEntries.1 he)
  · rw [PrefixCode, List.pairwise_map]
    exact tableEntries_pairwise fun y z d e hne hd he => ⟨hp y z d e hne hd he, hp z y e d (Ne.symm hne) he hd⟩

end Sys2Proof.Machine
end

