-- ==== Sys2Proof/Laws/Writer.lean ====
section
/-! SUPPORT. The sink and the bit writer, one lemma per primitive: what it does when it ends well, when it does,
and how it fails (20_memory.md R42, 40_bitstream.md R90, R91, R95). -/

namespace Sys2Proof.Machine

open Sys2Proof

/-! ### The sink -/

theorem sinkFull_eq_false {s : State} : s.sinkFull = false ↔ s.sinkTakes 1 := by
  unfold State.sinkFull State.sinkTakes
  cases s.cfg.snkCap <;> simp

theorem snkPush_eq_ok {b : Byte} {s t : State} :
    snkPush b s = .ok t ↔ s.sinkTakes 1 ∧ t = { s with snk := s.snk ++ [b] } := by
  rw [← sinkFull_eq_false]
  unfold snkPush
  cases s.sinkFull <;> simp [eq_comm]

theorem snkPush_error {b : Byte} {s : State} {e : Stop} (h : snkPush b s = .error e) :
    e = .trap .sinkFull := by
  unfold snkPush at h
  split at h
  · cases h; rfl
  · cases h

theorem State.sinkTakes_mono {s : State} {m n : Nat} (h : s.sinkTakes n) (hmn : m ≤ n) : s.sinkTakes m :=
  fun cap hc => by have := h cap hc; omega

/-! ### What the writer does -/

/-- From `s` to `t` the writer has accepted `bits`, and nothing else has changed. -/
structure Wrote (bits : List Bool) (s t : State) : Prop where
  frame : t = { s with bwAcc := t.bwAcc, bwCnt := t.bwCnt, snk := t.snk }
  stream : t.written = s.written ++ bits
  grows : s.snk <+: t.snk
  /-- the bits above the pending ones stay 0 (R14) -/
  tidy : s.bwAcc.toNat < 2 ^ s.bwCnt.toNat → t.bwAcc.toNat < 2 ^ t.bwCnt.toNat
  /-- no byte went past the capacity (R42) -/
  room : s.sinkTakes 0 → t.sinkTakes 0

theorem Wrote.refl (s : State) : Wrote [] s s := ⟨rfl, by simp, List.prefix_refl _, id, id⟩

theorem Wrote.trans {b c : List Bool} {s t u : State} (h : Wrote b s t) (h' : Wrote c t u) :
    Wrote (b ++ c) s u where
  frame := by
    have e := h'.frame
    rw [h.frame] at e
    exact e
  stream := by rw [h'.stream, h.stream, List.append_assoc]
  grows := h.grows.trans h'.grows
  tidy hs := h'.tidy (h.tidy hs)
  room hs := h'.room (h.room hs)

section
variable {bits : List Bool} {s t : State}

theorem Wrote.src (h : Wrote bits s t) : t.src = s.src := by rw [h.frame]
theorem Wrote.srcLen (h : Wrote bits s t) : t.srcLen = s.srcLen := by rw [h.frame]
theorem Wrote.snkSync (h : Wrote bits s t) : t.snkSync = s.snkSync := by rw [h.frame]
theorem Wrote.status (h : Wrote bits s t) : t.status = s.status := by rw [h.frame]
theorem Wrote.fcmd (h : Wrote bits s t) : t.fcmd = s.fcmd := by rw [h.frame]
theorem Wrote.cfg (h : Wrote bits s t) : t.cfg = s.cfg := by rw [h.frame]
theorem Wrote.host (h : Wrote bits s t) : t.host = s.host := by rw [h.frame]
theorem Wrote.faults (h : Wrote bits s t) : t.faults = s.faults := by rw [h.frame]
theorem Wrote.srcPos (h : Wrote bits s t) : t.srcPos = s.srcPos := by rw [h.frame]
theorem Wrote.brByte (h : Wrote bits s t) : t.brByte = s.brByte := by rw [h.frame]
theorem Wrote.brCnt (h : Wrote bits s t) : t.brCnt = s.brCnt := by rw [h.frame]
theorem Wrote.res (h : Wrote bits s t) : t.res = s.res := by rw [h.frame]
theorem Wrote.hist (h : Wrote bits s t) : t.hist = s.hist := by rw [h.frame]
theorem Wrote.histTotal (h : Wrote bits s t) : t.histTotal = s.histTotal := by rw [h.frame]
theorem Wrote.node (h : Wrote bits s t) : t.node = s.node := by rw [h.frame]
theorem Wrote.pq (h : Wrote bits s t) : t.pq = s.pq := by rw [h.frame]
theorem Wrote.root (h : Wrote bits s t) : t.root = s.root := by rw [h.frame]
theorem Wrote.rootValid (h : Wrote bits s t) : t.rootValid = s.rootValid := by rw [h.frame]
theorem Wrote.ct (h : Wrote bits s t) : t.ct = s.ct := by rw [h.frame]
theorem Wrote.dt (h : Wrote bits s t) : t.dt = s.dt := by rw [h.frame]
theorem Wrote.decRem (h : Wrote bits s t) : t.decRem = s.decRem := by rw [h.frame]
theorem Wrote.err (h : Wrote bits s t) : t.err = s.err := by simp [State.err, h.status]
theorem Wrote.done (h : Wrote bits s t) : t.done = s.done := by simp [State.done, h.status]
theorem Wrote.srcRead (h : Wrote bits s t) (i : Nat) : t.srcRead i = s.srcRead i := by
  simp [State.srcRead, h.src]

/-- The sink grows by the bytes completed, and the rest is pending (R14, R90). -/
theorem Wrote.count (h : Wrote bits s t) :
    8 * t.snk.length + t.bwCnt.toNat = 8 * s.snk.length + s.bwCnt.toNat + bits.length := by
  have := congrArg List.length h.stream
  simpa [State.written, Nat.add_assoc] using this

theorem Wrote.snk_length (h : Wrote bits s t) :
    t.snk.length = s.snk.length + (s.bwCnt.toNat + bits.length) / 8 := by
  have := h.count
  have := t.bwCnt.isLt
  omega

theorem Wrote.bwCnt (h : Wrote bits s t) : t.bwCnt.toNat = (s.bwCnt.toNat + bits.length) % 8 := by
  have := h.count
  have := t.bwCnt.isLt
  omega

end

/-! ### `WriteBit` -/

/-- The byte the writer makes of its pending bits and one more (R90). -/
theorem shiftIn_toNat (acc : Byte) (b : Bool) :
    ((acc <<< 1) ||| (BitVec.ofBool b).setWidth 8 : Byte).toNat = (2 * acc.toNat + b.toNat) % 256 := by
  revert acc b; decide

/-- The low bits after one more bit (R14, R90). -/
theorem bitString_shiftIn (acc : Byte) (b : Bool) {n : Nat} (hn : n ≤ 7) :
    bitString ((acc <<< 1) ||| (BitVec.ofBool b).setWidth 8 : Byte).toNat (n + 1) =
      bitString acc.toNat n ++ [b] := by
  rw [shiftIn_toNat, ← bitString_shift]
  refine bitString_congr fun i hi => ?_
  rw [show (256 : Nat) = 2 ^ 8 from rfl, Nat.testBit_mod_two_pow]
  simp [show i < 8 by omega]

theorem bwCnt_lt (s : State) : s.bwCnt.toNat < 8 := s.bwCnt.isLt

theorem bwCnt_eq_seven {c : BitVec 3} : c = 7 ↔ c.toNat = 7 := by revert c; decide

theorem bwCnt_succ {c : BitVec 3} (h : c ≠ 7) : (c + 1).toNat = c.toNat + 1 := by revert c; decide

/-- `WriteBit(b)` when it ends well (R90). -/
theorem writeBit_ok {b : Bool} {s t : State} (h : writeBit b s = .ok t) : Wrote [b] s t := by
  unfold writeBit at h
  simp only at h
  split at h
  · rename_i h7
    obtain ⟨u, hu, ht⟩ := bind_eq_ok.1 h
    obtain ⟨h1, rfl⟩ := snkPush_eq_ok.1 hu
    cases ht
    refine ⟨rfl, ?_, List.prefix_append _ _, fun _ => by simp, fun _ cap hc => by simpa using h1 cap hc⟩
    have e := bitString_shiftIn s.bwAcc b (n := 7) (by omega)
    have hc := bwCnt_eq_seven.1 h7
    have hb : byteBits ((s.bwAcc <<< 1) ||| (BitVec.ofBool b).setWidth 8) = bitString s.bwAcc.toNat 7 ++ [b] := e
    simp only [State.written, streamOf_append, streamOf_cons, streamOf_nil, hb, hc]
    simp
  · rename_i h7
    cases h
    have hc := bwCnt_succ h7
    have hlt : s.bwCnt.toNat ≤ 7 := by have := bwCnt_lt s; omega
    refine ⟨rfl, ?_, List.prefix_refl _, fun hs => ?_, id⟩
    · have e := bitString_shiftIn s.bwAcc b hlt
      simp only [State.written, hc, e, List.append_assoc]
    · simp only [hc, shiftIn_toNat, Nat.pow_succ]
      have := Nat.mod_le (2 * s.bwAcc.toNat + b.toNat) 256
      have : b.toNat ≤ 1 := by cases b <;> simp
      omega

/-- The eighth bit pushes its byte (R90). -/
theorem writeBit_eighth (b : Bool) {s : State} (h : s.bwCnt = 7) (hr : s.sinkTakes 1) :
    writeBit b s = .ok { s with
      bwAcc := 0, bwCnt := 0, snk := s.snk ++ [BitVec.ofNat 8 (2 * s.bwAcc.toNat + b.toNat)] } := by
  have e : ((s.bwAcc <<< 1) ||| (BitVec.ofBool b).setWidth 8 : Byte) = BitVec.ofNat 8 (2 * s.bwAcc.toNat + b.toNat) :=
    BitVec.eq_of_toNat_eq (by rw [shiftIn_toNat]; simp)
  simp only [writeBit, e]
  rw [if_pos h, snkPush_eq_ok.2 ⟨hr, rfl⟩]
  rfl

/-- Any other bit is held (R90). -/
theorem writeBit_held (b : Bool) {s : State} (h : s.bwCnt ≠ 7) :
    writeBit b s = .ok { s with
      bwAcc := BitVec.ofNat 8 (2 * s.bwAcc.toNat + b.toNat), bwCnt := s.bwCnt + 1 } := by
  have e : ((s.bwAcc <<< 1) ||| (BitVec.ofBool b).setWidth 8 : Byte) = BitVec.ofNat 8 (2 * s.bwAcc.toNat + b.toNat) :=
    BitVec.eq_of_toNat_eq (by rw [shiftIn_toNat]; simp)
  simp only [writeBit, e]
  rw [if_neg h]

/-- `SnkPush(b)` raises SINK_FULL where the sink takes no byte (R42). -/
theorem snkPush_full (b : Byte) {s : State} (h : ¬ s.sinkTakes 1) : snkPush b s = raise .sinkFull := by
  match hp : snkPush b s with
  | .ok t => exact absurd (snkPush_eq_ok.1 hp).1 h
  | .error e => rw [snkPush_error hp]

/-- The eighth bit finds the sink full (R90). -/
theorem writeBit_full (b : Bool) {s : State} (h : s.bwCnt = 7) (hr : ¬ s.sinkTakes 1) :
    writeBit b s = raise .sinkFull := by
  simp only [writeBit]
  rw [if_pos h, snkPush_full _ hr]
  rfl

/-- `WriteBit(b)` ends well where the sink takes the byte it completes (R42, R90). -/
theorem writeBit_succeeds (b : Bool) {s : State} (h : s.takesBits 1) : ∃ t, writeBit b s = .ok t := by
  unfold writeBit
  simp only
  split
  · rename_i h7
    have h1 : s.sinkTakes 1 := by
      have e : (s.bwCnt.toNat + 1) / 8 = 1 := by rw [bwCnt_eq_seven.1 h7]
      simpa [State.takesBits, e] using h
    rw [snkPush_eq_ok.2 ⟨h1, rfl⟩]
    exact ⟨_, rfl⟩
  · exact ⟨_, rfl⟩

/-- `WriteBit(b)` can only find the sink full (R90). -/
theorem writeBit_error {b : Bool} {s : State} {e : Stop} (h : writeBit b s = .error e) :
    e = .trap .sinkFull := by
  unfold writeBit at h
  simp only at h
  split at h
  · rcases bind_eq_error.1 h with h | ⟨u, -, h⟩
    · exact snkPush_error h
    · cases h
  · cases h

/-- Room for a run of bits leaves room for its rest after its first part is written. -/
theorem Wrote.takesBits {bits : List Bool} {s t : State} (h : Wrote bits s t) {n : Nat}
    (hr : s.takesBits (bits.length + n)) : t.takesBits n := by
  intro cap hc
  have := hr cap (by rw [← h.cfg]; exact hc)
  have := h.snk_length
  have := h.bwCnt
  omega

theorem State.takesBits_mono {s : State} {m n : Nat} (h : s.takesBits n) (hmn : m ≤ n) : s.takesBits m :=
  s.sinkTakes_mono h (Nat.div_le_div_right (by omega))

/-- Bits that were written from a sink within its capacity had room (R42). -/
theorem Wrote.had_room {bits : List Bool} {s t : State} (h : Wrote bits s t) (h0 : s.sinkTakes 0) :
    s.takesBits bits.length := by
  intro cap hc
  have := h.room h0 cap (by rw [h.cfg]; exact hc)
  have := h.snk_length
  omega

/-- A sink within its capacity stays so, and what was in it stays (R42). -/
theorem Wrote.snkRead {bits : List Bool} {s t : State} (h : Wrote bits s t) {j : Nat} (hj : j < s.snk.length) :
    t.snkRead j = s.snkRead j := by
  obtain ⟨more, e⟩ := h.grows
  rw [State.snkRead, State.snkRead, ← e, List.getElem?_append_left hj]

/-! ### `PutBits` -/

/-- `PutBits(v, n)` when it ends well: the bit string `(v, n)` is written (R91). -/
theorem putBits_ok {v n : Nat} {s t : State} (h : putBits v n s = .ok t) : Wrote (bitString v n) s t := by
  induction n generalizing s with
  | zero => cases h; exact Wrote.refl _
  | succ n ih =>
    obtain ⟨u, hu, ht⟩ := bind_eq_ok.1 h
    exact (writeBit_ok hu).trans (ih ht)

/-- `PutBits(v, n)` ends well where the sink takes the bytes it completes (R91). -/
theorem putBits_succeeds (v : Nat) {n : Nat} {s : State} (h : s.takesBits n) :
    ∃ t, putBits v n s = .ok t := by
  induction n generalizing s with
  | zero => exact ⟨s, rfl⟩
  | succ n ih =>
    obtain ⟨u, hu⟩ := writeBit_succeeds (v.testBit n) (s.takesBits_mono h (by omega))
    obtain ⟨t, ht⟩ := ih ((writeBit_ok hu).takesBits (n := n) (by simpa [Nat.add_comm] using h))
    exact ⟨t, by simp [putBits, hu, ht]⟩

/-- `PutBits(v, n)` can only find the sink full (R91). -/
theorem putBits_error {v n : Nat} {s : State} {e : Stop} (h : putBits v n s = .error e) :
    e = .trap .sinkFull := by
  induction n generalizing s with
  | zero => cases h
  | succ n ih =>
    rcases bind_eq_error.1 h with h | ⟨u, -, h⟩
    · exact writeBit_error h
    · exact ih h

/-! ### `Flush` -/

/-- The pad byte: the pending bits, then zeros (R95). -/
theorem byteBits_pad (acc : Byte) (c : BitVec 3) (h : c ≠ 0) :
    byteBits (acc <<< (8 - c.toNat)) = bitString acc.toNat c.toNat ++ List.replicate (8 - c.toNat) false := by
  revert acc c; decide

/-- `Flush()` when it ends well: the stream is padded with zeros to a byte boundary and the sink is marked
persistent (R95). -/
theorem flush_ok {s t : State} (h : flush s = .ok t) :
    streamOf t.snk = zeroPad s.written ∧ t.bwCnt = 0 ∧ t.snkSync = t.snkLen ∧ s.snk <+: t.snk ∧
    (s.bwCnt = 0 → t.bwAcc = s.bwAcc) ∧ (s.bwCnt ≠ 0 → t.bwAcc = 0) ∧
    (s.sinkTakes 0 → t.sinkTakes 0) ∧
    t = { s with bwAcc := t.bwAcc, bwCnt := t.bwCnt, snk := t.snk, snkSync := t.snkSync } := by
  unfold flush at h
  split at h
  · rename_i h0
    cases h
    refine ⟨?_, h0, rfl, List.prefix_refl _, fun _ => rfl, fun c => absurd h0 c, id, rfl⟩
    simp [h0, State.written, zeroPad]
  · rename_i h0
    obtain ⟨u, hu, ht⟩ := bind_eq_ok.1 h
    obtain ⟨h1, rfl⟩ := snkPush_eq_ok.1 hu
    cases ht
    have hp : s.bwCnt.toNat ≠ 0 := fun e => h0 (BitVec.eq_of_toNat_eq (by simpa using e))
    have e : (8 - s.written.length % 8) % 8 = 8 - s.bwCnt.toNat := by
      have hl : s.written.length = 8 * s.snk.length + s.bwCnt.toNat := by simp [State.written]
      have := bwCnt_lt s
      omega
    refine ⟨?_, rfl, rfl, List.prefix_append _ _, fun c => absurd c h0, fun _ => rfl,
      fun _ cap hc => by simpa using h1 cap hc, rfl⟩
    simp only [zeroPad, e, streamOf_append, streamOf_cons, streamOf_nil, List.append_nil]
    rw [byteBits_pad _ _ h0]
    simp [State.written]

/-- A flush at a byte boundary pushes nothing (R95). -/
theorem flush_aligned {s : State} (h : s.bwCnt = 0) : flush s = .ok { s with snkSync := s.snkLen } := if_pos h

/-- A flush of a partial byte pushes it, padded with zeros (R95). -/
theorem flush_partial {s : State} (h : s.bwCnt ≠ 0) (hr : s.sinkTakes 1) :
    flush s = .ok { s with
      bwAcc := 0, bwCnt := 0
      snk := s.snk ++ [BitVec.ofNat 8 (s.bwAcc.toNat * 2 ^ (8 - s.bwCnt.toNat))]
      snkSync := BitVec.ofNat 64 (s.snk.length + 1) } := by
  have e : s.bwAcc <<< (8 - s.bwCnt.toNat) = BitVec.ofNat 8 (s.bwAcc.toNat * 2 ^ (8 - s.bwCnt.toNat)) :=
    BitVec.eq_of_toNat_eq (by simp [Nat.shiftLeft_eq])
  unfold flush
  rw [if_neg h, e, snkPush_eq_ok.2 ⟨hr, rfl⟩, ok_bind]
  simp [State.snkLen]

/-- A flush of a partial byte finds the sink full (R95). -/
theorem flush_full {s : State} (h : s.bwCnt ≠ 0) (hr : ¬ s.sinkTakes 1) : flush s = raise .sinkFull := by
  unfold flush
  rw [if_neg h, snkPush_full _ hr]
  rfl

/-- `Flush()` ends well where the sink takes the partial byte (R95). -/
theorem flush_succeeds {s : State} (h : s.bwCnt ≠ 0 → s.sinkTakes 1) : ∃ t, flush s = .ok t := by
  unfold flush
  split
  · exact ⟨_, rfl⟩
  · rename_i h0
    rw [snkPush_eq_ok.2 ⟨h h0, rfl⟩]
    exact ⟨_, rfl⟩

/-- `Flush()` can only find the sink full (R95). -/
theorem flush_error {s : State} {e : Stop} (h : flush s = .error e) : e = .trap .sinkFull := by
  unfold flush at h
  split at h
  · cases h
  · rcases bind_eq_error.1 h with h | ⟨u, -, h⟩
    · exact snkPush_error h
    · cases h

end Sys2Proof.Machine
end

