-- ==== Sys2Proof/Laws/Header.lean ====
section
/-! SUPPORT. The header codec (44_format_codec.md): what `HdrWrite` writes, what `HdrParse` accepts and how it
fails, and that `PrefixFree` decides prefix codes. -/

namespace Sys2Proof.Machine

open Sys2Proof

/-! ### Bit strings that begin one another (R6) -/

/-- A bit string cut in two. -/
theorem bitString_split (v m k : Nat) : bitString v (m + k) = bitString (v >>> k) m ++ bitString v k := by
  induction m with
  | zero => simp
  | succ m ih =>
    rw [show m + 1 + k = (m + k) + 1 by omega, bitString_succ, ih, bitString_succ, List.cons_append,
      Nat.testBit_shiftRight, Nat.add_comm k m]

theorem shiftRight_lt {v m k : Nat} (h : v < 2 ^ (m + k)) : v >>> k < 2 ^ m := by
  rw [Nat.shiftRight_eq_div_pow]
  exact Nat.div_lt_of_lt_mul (by rwa [Nat.mul_comm, ← Nat.pow_add])

/-- `(v, m)` is a prefix of `(w, n)` exactly when `m <= n` and `w >> (n - m) = v` (R6). -/
theorem bitString_prefix_iff {v w m n : Nat} (hv : v < 2 ^ m) (hw : w < 2 ^ n) :
    bitString v m <+: bitString w n ↔ m ≤ n ∧ w >>> (n - m) = v := by
  constructor
  · intro h
    have hl := h.length_le
    rw [bitString_length, bitString_length] at hl
    refine ⟨hl, ?_⟩
    obtain ⟨k, rfl⟩ := Nat.exists_eq_add_of_le hl
    rw [bitString_split] at h
    obtain ⟨r, hr⟩ := h
    have := (List.append_inj hr (by simp)).1
    rw [Nat.add_sub_cancel_left]
    exact (bitString_inj hv (shiftRight_lt hw) this).symm
  · rintro ⟨hl, rfl⟩
    obtain ⟨k, rfl⟩ := Nat.exists_eq_add_of_le hl
    rw [Nat.add_sub_cancel_left, bitString_split]
    exact List.prefix_append _ _

/-- The test of R154 says whether one entry's bit string begins the other's. -/
theorem entryBegins_iff {d e : DecEntry} (hd : d.code.toNat < 2 ^ d.len.toNat)
    (he : e.code.toNat < 2 ^ e.len.toNat) : entryBegins d e = true ↔ d.bits <+: e.bits := by
  rw [DecEntry.bits, DecEntry.bits, bitString_prefix_iff hd he, entryBegins]
  simp [BitVec.le_def]

/-- `PrefixFree()` says whether the table is a prefix code (R154). -/
theorem prefixFree_iff {dt : List DecEntry} (h : ∀ e ∈ dt, e.code.toNat < 2 ^ e.len.toNat) :
    prefixFree dt = true ↔ PrefixCode (dt.map DecEntry.bits) := by
  induction dt with
  | nil => simp [prefixFree, PrefixCode]
  | cons d dt ih =>
    have hd := h d List.mem_cons_self
    have hdt : ∀ e ∈ dt, e.code.toNat < 2 ^ e.len.toNat := fun e he => h e (List.mem_cons_of_mem _ he)
    rw [prefixFree, Bool.and_eq_true, ih hdt, PrefixCode, PrefixCode, List.map_cons, List.pairwise_cons,
      List.all_eq_true]
    refine and_congr_left fun _ => ?_
    simp only [List.forall_mem_map]
    refine forall_congr' fun e => forall_congr' fun he => ?_
    have h1 := entryBegins_iff hd (hdt e he)
    have h2 := entryBegins_iff (hdt e he) hd
    rw [← h1, ← h2]
    simp

/-! ### `HdrWrite` -/

theorem putEntry_ok {y : Byte} {e : CodeEntry} {s t : State} (h : putEntry y e s = .ok t) :
    Wrote (DecEntry.inHeader { sym := y, len := e.len, code := e.code }) s t := by
  obtain ⟨u, hu, h⟩ := bind_eq_ok.1 h
  obtain ⟨v, hv, h⟩ := bind_eq_ok.1 h
  exact ((putBits_ok hu).trans (putBits_ok hv)).trans (putBits_ok h)

theorem putEntry_succeeds (y : Byte) (e : CodeEntry) {s : State}
    (h : s.takesBits (DecEntry.inHeader { sym := y, len := e.len, code := e.code }).length) :
    ∃ t, putEntry y e s = .ok t := by
  have hl : (DecEntry.inHeader { sym := y, len := e.len, code := e.code }).length = 8 + (6 + e.len.toNat) := by
    simp [DecEntry.inHeader, DecEntry.bits]
  rw [hl] at h
  obtain ⟨u, hu⟩ := putBits_succeeds y.toNat (n := 8) (s.takesBits_mono h (by omega))
  have h1 := (putBits_ok hu).takesBits (n := 6 + e.len.toNat) (by simpa using h)
  obtain ⟨v, hv⟩ := putBits_succeeds e.len.toNat (n := 6) (u.takesBits_mono h1 (by omega))
  have h2 := (putBits_ok hv).takesBits (n := e.len.toNat) (by simpa using h1)
  obtain ⟨t, ht⟩ := putBits_succeeds e.code.toNat h2
  exact ⟨t, by simp [putEntry, hu, hv, ht]⟩

theorem putEntry_error {y : Byte} {e : CodeEntry} {s : State} {x : Stop} (h : putEntry y e s = .error x) :
    x = .trap .sinkFull := by
  rcases bind_eq_error.1 h with h | ⟨u, -, h⟩
  · exact putBits_error h
  · rcases bind_eq_error.1 h with h | ⟨v, -, h⟩
    · exact putBits_error h
    · exact putBits_error h

/-- The entries of the listed symbols of a table, in order. -/
def entriesOf (ct : CodeTable) (l : List Byte) : List DecEntry :=
  l.filterMap fun y => (tableGet ct y).map fun e => { sym := y, len := e.len, code := e.code }

theorem putEntries_ok {ct : CodeTable} {l : List Byte} {s t : State} (h : putEntries ct l s = .ok t) :
    Wrote ((entriesOf ct l).flatMap DecEntry.inHeader) s t := by
  induction l generalizing s with
  | nil => cases h; exact Wrote.refl _
  | cons y l ih =>
    rw [putEntries] at h
    split at h
    · rename_i hy
      rw [entriesOf, List.filterMap_cons_none (by simp [hy])]
      exact ih h
    · rename_i e hy
      obtain ⟨u, hu, h⟩ := bind_eq_ok.1 h
      rw [entriesOf, List.filterMap_cons_some (by simp [hy]; rfl), List.flatMap_cons]
      exact (putEntry_ok hu).trans (ih h)

theorem putEntries_succeeds (ct : CodeTable) (l : List Byte) {s : State}
    (h : s.takesBits ((entriesOf ct l).flatMap DecEntry.inHeader).length) : ∃ t, putEntries ct l s = .ok t := by
  induction l generalizing s with
  | nil => exact ⟨s, rfl⟩
  | cons y l ih =>
    rw [putEntries]
    split
    · rename_i hy
      rw [entriesOf, List.filterMap_cons_none (by simp [hy])] at h
      exact ih h
    · rename_i e hy
      rw [entriesOf, List.filterMap_cons_some (by simp [hy]; rfl), List.flatMap_cons, List.length_append] at h
      obtain ⟨u, hu⟩ := putEntry_succeeds y e (s.takesBits_mono h (by omega))
      obtain ⟨t, ht⟩ := ih ((putEntry_ok hu).takesBits h)
      exact ⟨t, by rw [hu]; exact ht⟩

theorem putEntries_error {ct : CodeTable} {l : List Byte} {s : State} {x : Stop}
    (h : putEntries ct l s = .error x) : x = .trap .sinkFull := by
  induction l generalizing s with
  | nil => cases h
  | cons y l ih =>
    rw [putEntries] at h
    split at h
    · exact ih h
    · rcases bind_eq_error.1 h with h | ⟨u, -, h⟩
      · exact putEntry_error h
      · exact ih h

theorem headerBits_eq (ct : CodeTable) (size : Nat) :
    headerBits (tableEntries ct) size = bitString Config.magic 56 ++ (bitString (ctCount ct - 1) 8 ++
      ((entriesOf ct symbols).flatMap DecEntry.inHeader ++ bitString size 32)) := by
  have e : entriesOf ct symbols = tableEntries ct := rfl
  simp [headerBits, e, tableEntries_length, Config.magic]

/-- `HdrWrite()` when it ends well: parts 1 to 4 of the file are written (R150). -/
theorem hdrWrite_ok {s t : State} (h : hdrWrite s = .ok t) :
    Wrote (headerBits (tableEntries s.ct) s.histTotal.toNat) s t ∧ 1 ≤ ctCount s.ct ∧
      s.histTotal.toNat ≤ 2 ^ 32 - 1 := by
  unfold hdrWrite at h
  simp only at h
  split at h
  · cases h
  · split at h
    · cases h
    · rename_i h0 h1
      obtain ⟨a, ha, h⟩ := bind_eq_ok.1 h
      obtain ⟨b, hb, h⟩ := bind_eq_ok.1 h
      obtain ⟨c, hc, h⟩ := bind_eq_ok.1 h
      have wa := putBits_ok ha
      have wb := putBits_ok hb
      have wc := putEntries_ok hc
      have ws := putBits_ok h
      refine ⟨?_, by omega, by simpa [Config.maxSize] using h1⟩
      rw [headerBits_eq]
      rw [wb.ct, wa.ct] at wc
      rw [wc.histTotal, wb.histTotal, wa.histTotal] at ws
      exact wa.trans (wb.trans (wc.trans ws))

/-- `HdrWrite()` ends well with an entry, a size of 32 bits and room in the sink (R150). -/
theorem hdrWrite_succeeds {s : State} (h0 : 1 ≤ ctCount s.ct) (h1 : s.histTotal.toNat ≤ 2 ^ 32 - 1)
    (h : s.takesBits (headerBits (tableEntries s.ct) s.histTotal.toNat).length) : ∃ t, hdrWrite s = .ok t := by
  obtain ⟨k, hk⟩ : ∃ k, k = ((entriesOf s.ct symbols).flatMap DecEntry.inHeader).length := ⟨_, rfl⟩
  rw [headerBits_eq] at h
  simp only [List.length_append, bitString_length, ← hk] at h
  obtain ⟨a, ha⟩ := putBits_succeeds Config.magic (n := 56) (s.takesBits_mono h (by omega))
  have wa := putBits_ok ha
  have ra := wa.takesBits (n := 8 + (k + 32)) (by rw [bitString_length]; exact h)
  obtain ⟨b, hb⟩ := putBits_succeeds (ctCount s.ct - 1) (n := 8) (a.takesBits_mono ra (by omega))
  have wb := putBits_ok hb
  have rb := wb.takesBits (n := k + 32) (by rw [bitString_length]; exact ra)
  have ect : b.ct = s.ct := by rw [wb.ct, wa.ct]
  obtain ⟨c, hc⟩ := putEntries_succeeds b.ct symbols (s := b) (b.takesBits_mono rb (by rw [ect, ← hk]; omega))
  have wc := putEntries_ok hc
  rw [ect] at wc
  have rc := wc.takesBits (n := 32) (by rw [← hk]; exact rb)
  have etot : c.histTotal = s.histTotal := by rw [wc.histTotal, wb.histTotal, wa.histTotal]
  obtain ⟨t, ht⟩ := putBits_succeeds c.histTotal.toNat rc
  refine ⟨t, ?_⟩
  unfold hdrWrite
  simp only
  rw [if_neg (by omega), if_neg (show ¬ s.histTotal.toNat > Config.maxSize from Nat.not_lt.2 h1), ha, ok_bind, hb, ok_bind, hc, ok_bind]
  exact ht

/-- `HdrWrite()` finds an empty table, then a size too large, then the sink full (R150). -/
theorem hdrWrite_error {s : State} {e : Stop} (h : hdrWrite s = .error e) :
    e = .trap .empty ∧ ctCount s.ct = 0 ∨
    e = .trap .size ∧ 1 ≤ ctCount s.ct ∧ 2 ^ 32 - 1 < s.histTotal.toNat ∨
    e = .trap .sinkFull ∧ 1 ≤ ctCount s.ct ∧ s.histTotal.toNat ≤ 2 ^ 32 - 1 := by
  unfold hdrWrite at h
  simp only at h
  split at h
  · rename_i h0; cases h; exact .inl ⟨rfl, h0⟩
  · rename_i h0
    split at h
    · rename_i h1; cases h; exact .inr (.inl ⟨rfl, by omega, by simpa [Config.maxSize] using h1⟩)
    · rename_i h1
      refine .inr (.inr ⟨?_, by omega, by simpa [Config.maxSize] using h1⟩)
      rcases bind_eq_error.1 h with h | ⟨a, -, h⟩
      · exact putBits_error h
      · rcases bind_eq_error.1 h with h | ⟨b, -, h⟩
        · exact putBits_error h
        · rcases bind_eq_error.1 h with h | ⟨c, -, h⟩
          · exact putEntries_error h
          · exact putBits_error h

end Sys2Proof.Machine
end

