-- ==== Sys2Proof/Laws/Parse.lean ====
section
/-! SUPPORT. The header parser (44_format_codec.md R152): what it reads when it ends well, that it accepts every
header with an accepted table, and how it fails. -/

namespace Sys2Proof.Machine

open Sys2Proof

/-- Reading does not look at the decode table. -/
theorem Read.setDt {bits : List Bool} {s t : State} {d : List DecEntry} (h : Read bits { s with dt := d } t)
    (d' : List DecEntry) : Read bits { s with dt := d' } { t with dt := d' } ∧ t.dt = d :=
  ⟨⟨by have e := h.frame; rw [e], h.stream, h.within, h.position⟩, h.dt⟩

theorem Read.unread_setDt {u : State} (d : List DecEntry) : State.unread { u with dt := d } = u.unread := rfl

/-! ### One entry -/

theorem getEntry_ok {s t : State} (h : getEntry s = .ok t) :
    ∃ e u, EntryOk e ∧ Read e.inHeader s u ∧ t = { u with dt := s.dt ++ [e] } := by
  obtain ⟨⟨y, a⟩, ha, h⟩ := bind_eq_ok.1 h
  obtain ⟨⟨l, b⟩, hb, h⟩ := bind_eq_ok.1 h
  simp only at h
  split at h
  · cases h
  · rename_i hl
    obtain ⟨⟨c, u⟩, hu, h⟩ := bind_eq_ok.1 h
    cases h
    obtain ⟨by8, ly, ra, rfl⟩ := getBits_ok ha
    obtain ⟨bl6, ll, rb, rfl⟩ := getBits_ok hb
    obtain ⟨bc, lc, rc, rfl⟩ := getBits_ok hu
    have hy := bitsValue_lt by8
    have hlt := bitsValue_lt bl6
    have hc := bitsValue_lt bc
    rw [ly] at hy
    rw [ll] at hlt
    rw [lc] at hc
    have e1 : (BitVec.ofNat 8 (bitsValue by8)).toNat = bitsValue by8 := by simp; omega
    have e2 : (BitVec.ofNat 6 (bitsValue bl6)).toNat = bitsValue bl6 := by simp; omega
    have h63 : 2 ^ bitsValue bl6 ≤ 2 ^ 63 := Nat.pow_le_pow_right (by omega) (by omega)
    have e3 : (BitVec.ofNat 63 (bitsValue bc)).toNat = bitsValue bc := by
      simp only [BitVec.toNat_ofNat]; exact Nat.mod_eq_of_lt (by omega)
    refine ⟨⟨BitVec.ofNat 8 (bitsValue by8), BitVec.ofNat 6 (bitsValue bl6), BitVec.ofNat 63 (bitsValue bc)⟩, u,
      ⟨?_, ?_⟩, ?_, ?_⟩
    · rw [e2]; omega
    · rw [e2, e3]; exact hc
    · have := (ra.trans rb).trans rc
      simp only [DecEntry.inHeader, DecEntry.bits, e1, e2, e3, bitString_bitsValue_of_length ly,
        bitString_bitsValue_of_length ll, bitString_bitsValue_of_length lc]
      exact this
    · rw [rc.dt, rb.dt, ra.dt]

theorem getEntry_of_unread {s : State} {e : DecEntry} {rest : List Bool} (he : EntryOk e)
    (h : s.unread = e.inHeader ++ rest) :
    ∃ u, getEntry s = .ok { u with dt := s.dt ++ [e] } ∧ Read e.inHeader s u ∧ u.unread = rest := by
  simp only [DecEntry.inHeader, DecEntry.bits, List.append_assoc] at h
  obtain ⟨a, ha, ra, hra⟩ := getBits_of_unread .entrySym h
  obtain ⟨b, hb, rb, hrb⟩ := getBits_of_unread .entryLen hra
  obtain ⟨c, hc, rc, hrc⟩ := getBits_of_unread .entryCode hrb
  rw [bitString_length, bitsValue_bitString_of_lt e.sym.isLt] at ha
  rw [bitString_length, bitsValue_bitString_of_lt e.len.isLt] at hb
  rw [bitString_length, bitsValue_bitString_of_lt he.2] at hc
  refine ⟨c, ?_, by simpa [DecEntry.inHeader, DecEntry.bits] using (ra.trans rb).trans rc, hrc⟩
  have h0 : e.len.toNat ≠ 0 := by have := he.1; omega
  rw [getEntry, ha, ok_bind]
  simp only
  rw [hb, ok_bind]
  simp only [h0, if_false]
  rw [hc, ok_bind]
  simp only [BitVec.ofNat_toNat, BitVec.setWidth_eq]
  rw [rc.dt, rb.dt, ra.dt]

/-- The faults of one entry. -/
theorem getEntry_error {s : State} {x : Stop} (h : getEntry s = .error x) :
    x = .trap (.truncated .entrySym) ∨ x = .trap (.truncated .entryLen) ∨ x = .trap .badLen ∨
      x = .trap (.truncated .entryCode) := by
  rcases bind_eq_error.1 h with h | ⟨⟨y, a⟩, -, h⟩
  · exact .inl (getBits_error h).1
  · rcases bind_eq_error.1 h with h | ⟨⟨l, b⟩, -, h⟩
    · exact .inr (.inl (getBits_error h).1)
    · simp only at h
      split at h
      · cases h; exact .inr (.inr (.inl rfl))
      · rcases bind_eq_error.1 h with h | ⟨⟨c, u⟩, -, h⟩
        · exact .inr (.inr (.inr (getBits_error h).1))
        · cases h

/-! ### All entries -/

theorem getEntries_ok {n : Nat} {s t : State} (h : getEntries n s = .ok t) :
    ∃ es u, es.length = n ∧ (∀ e ∈ es, EntryOk e) ∧ Read (es.flatMap DecEntry.inHeader) s u ∧
      t = { u with dt := s.dt ++ es } := by
  induction n generalizing s with
  | zero => cases h; exact ⟨[], _, rfl, by simp, Read.refl _, by simp⟩
  | succ n ih =>
    obtain ⟨v, hv, h⟩ := bind_eq_ok.1 h
    obtain ⟨e, a, he, ra, rfl⟩ := getEntry_ok hv
    obtain ⟨es, u, hl, hes, ru, rfl⟩ := ih h
    obtain ⟨ru', -⟩ := ru.setDt a.dt
    refine ⟨e :: es, { u with dt := a.dt }, by simp [hl], ?_, ?_, ?_⟩
    · intro d hd
      rcases List.mem_cons.1 hd with rfl | hd
      · exact he
      · exact hes d hd
    · rw [List.flatMap_cons]; exact ra.trans ru'
    · simp

theorem getEntries_of_unread {s : State} {es : List DecEntry} {rest : List Bool} (he : ∀ e ∈ es, EntryOk e)
    (h : s.unread = es.flatMap DecEntry.inHeader ++ rest) :
    ∃ u, getEntries es.length s = .ok { u with dt := s.dt ++ es } ∧
      Read (es.flatMap DecEntry.inHeader) s u ∧ u.unread = rest := by
  induction es generalizing s with
  | nil => exact ⟨s, by simp [getEntries], Read.refl _, by simpa using h⟩
  | cons e es ih =>
    rw [List.flatMap_cons, List.append_assoc] at h
    obtain ⟨a, ha, ra, hra⟩ := getEntry_of_unread (he e List.mem_cons_self) h
    obtain ⟨u, hu, ru, hru⟩ := ih (s := { a with dt := s.dt ++ [e] })
      (fun d hd => he d (List.mem_cons_of_mem _ hd)) hra
    obtain ⟨ru', -⟩ := ru.setDt a.dt
    refine ⟨{ u with dt := a.dt }, ?_, by rw [List.flatMap_cons]; exact ra.trans ru', hru⟩
    rw [List.length_cons, getEntries, ha, ok_bind, hu]
    simp

/-- The entries that are there are read, whatever comes after them. -/
theorem getEntries_add {m n : Nat} {s u : State} (h : getEntries m s = .ok u) :
    getEntries (m + n) s = getEntries n u := by
  induction m generalizing s with
  | zero => cases h; simp
  | succ m ih =>
    obtain ⟨v, hv, h⟩ := bind_eq_ok.1 h
    rw [show m + 1 + n = (m + n) + 1 by omega, getEntries, hv, ok_bind, ih h]

theorem getEntries_error {n : Nat} {s : State} {x : Stop} (h : getEntries n s = .error x) :
    x = .trap (.truncated .entrySym) ∨ x = .trap (.truncated .entryLen) ∨ x = .trap .badLen ∨
      x = .trap (.truncated .entryCode) := by
  induction n generalizing s with
  | zero => cases h
  | succ n ih =>
    rcases bind_eq_error.1 h with h | ⟨u, -, h⟩
    · exact getEntry_error h
    · exact ih h

/-! ### `HdrParse` -/

/-- From `s` to `t` a header with the table `entries` and the size `size` was parsed (R152). -/
structure Parsed (entries : List DecEntry) (size : Nat) (s t : State) : Prop where
  frame : t = { s with srcPos := t.srcPos, brByte := t.brByte, brCnt := t.brCnt, dt := t.dt, decRem := t.decRem }
  accepted : AcceptedTable entries
  sizeLt : size < 2 ^ 32
  stream : s.unread = headerBits entries size ++ t.unread
  dt : t.dt = entries
  decRem : t.decRem.toNat = size
  within : s.brCnt.toNat ≤ 8 → t.brCnt.toNat ≤ 8
  position : s.srcPos.toNat ≤ s.srcLen.toNat → t.srcPos.toNat ≤ t.srcLen.toNat

theorem hdrParse_ok {s t : State} (h : hdrParse s = .ok t) : ∃ entries size, Parsed entries size s t := by
  obtain ⟨⟨m, a⟩, ha, h⟩ := bind_eq_ok.1 h
  simp only at h
  split at h
  · cases h
  · rename_i hm
    obtain ⟨⟨c, b⟩, hb, h⟩ := bind_eq_ok.1 h
    obtain ⟨d, hd, h⟩ := bind_eq_ok.1 h
    obtain ⟨⟨z, v⟩, hv, h⟩ := bind_eq_ok.1 h
    simp only at h hd
    split at h
    · cases h
    · rename_i hp
      cases h
      obtain ⟨bm, lm, ra, rfl⟩ := getBits_ok ha
      obtain ⟨bc, lc, rb, rfl⟩ := getBits_ok hb
      obtain ⟨es, u, le, hes, ru, rfl⟩ := getEntries_ok hd
      obtain ⟨bz, lz, rv, rfl⟩ := getBits_ok hv
      obtain ⟨ru', -⟩ := ru.setDt b.dt
      obtain ⟨rv', hdt⟩ := rv.setDt b.dt
      have hc := bitsValue_lt bc
      have hz := bitsValue_lt bz
      rw [lc] at hc
      rw [lz] at hz
      have all := ((ra.trans rb).trans ru').trans rv'
      have hmb : bm = bitString 0x485546464D414E 56 := by
        rw [← lm, ← show bitsValue bm = 0x485546464D414E by simpa [Config.magic] using hm, bitString_bitsValue]
      have hp' : PrefixCode (es.map DecEntry.bits) := by
        have e := (prefixFree_iff (dt := v.dt) (by
          rw [hdt]; intro e he; exact (hes e (by simpa using he)).2)).1 (by simpa using hp)
        rw [hdt] at e; simpa using e
      refine ⟨es, bitsValue bz, ?_, ⟨by omega, by omega, hes, hp'⟩, hz, ?_, by rw [hdt]; simp, ?_, ?_, ?_⟩
      · have e := all.frame
        have e' := congrArg (fun x : State => { x with dt := v.dt, decRem := BitVec.ofNat 32 (bitsValue bz) }) e
        exact e'
      · have e := all.stream
        have ebc : bc = bitString (es.length - 1) 8 := by
          rw [le, Nat.add_sub_cancel, ← lc, bitString_bitsValue]
        have ebz : bz = bitString (bitsValue bz) 32 := by rw [← lz, bitString_bitsValue]
        rw [headerBits, ← hmb, ← ebc, ← ebz]
        exact e
      · simp; omega
      · exact all.within
      · exact all.position

/-- `HdrParse()` accepts every header with an accepted table (R152). -/
theorem hdrParse_of_unread {s : State} {entries : List DecEntry} {size : Nat} {rest : List Bool}
    (ht : AcceptedTable entries) (hs : size < 2 ^ 32) (h : s.unread = headerBits entries size ++ rest) :
    ∃ t, hdrParse s = .ok t ∧ Parsed entries size s t ∧ t.unread = rest := by
  obtain ⟨h1, h256, hes, hp⟩ := ht
  have h' := h
  simp only [headerBits, List.append_assoc] at h'
  obtain ⟨a, ha, ra, hra⟩ := getBits_of_unread .magic h'
  obtain ⟨b, hb, rb, hrb⟩ := getBits_of_unread .count hra
  obtain ⟨u, hu, ru, hru⟩ := getEntries_of_unread (s := { b with dt := [] }) hes hrb
  obtain ⟨v, hv, rv, hrv⟩ := getBits_of_unread (s := { u with dt := [] ++ entries }) .size hru
  rw [bitString_length, bitsValue_bitString_of_lt (by decide)] at ha
  rw [bitString_length, bitsValue_bitString_of_lt (by omega)] at hb
  rw [bitString_length, bitsValue_bitString_of_lt hs] at hv
  have hdt : v.dt = entries := by rw [rv.dt]; rfl
  have hpf : prefixFree v.dt = true := by
    rw [hdt]; exact (prefixFree_iff fun e he => (hes e he).2).2 hp
  have hn : entries.length - 1 + 1 = entries.length := by omega
  have hok : hdrParse s = .ok { v with decRem := BitVec.ofNat 32 size } := by
    rw [hdrParse, ha, ok_bind]
    simp only
    rw [if_neg (by simp [Config.magic]), hb, ok_bind]
    simp only
    rw [hn, hu, ok_bind, hv, ok_bind]
    simp only [hpf]
    rfl
  obtain ⟨es, z, p⟩ := hdrParse_ok hok
  have e1 : es = entries := by rw [← p.dt]; exact hdt
  have e2 : z = size := by
    rw [← p.decRem]; simp; omega
  subst e1 e2
  exact ⟨_, hok, p, hrv⟩

/-- The faults of `HdrParse()` (R153). -/
theorem hdrParse_error {s : State} {x : Stop} (h : hdrParse s = .error x) :
    ∃ k ∈ mayRaise .hdrParse, x = .trap k := by
  rcases bind_eq_error.1 h with h | ⟨⟨m, a⟩, -, h⟩
  · exact ⟨_, by simp [mayRaise], (getBits_error h).1⟩
  · simp only at h
    split at h
    · cases h; exact ⟨.formatMismatch, by simp [mayRaise], rfl⟩
    · rcases bind_eq_error.1 h with h | ⟨⟨c, b⟩, -, h⟩
      · exact ⟨_, by simp [mayRaise], (getBits_error h).1⟩
      · rcases bind_eq_error.1 h with h | ⟨d, -, h⟩
        · rcases getEntries_error h with h | h | h | h <;> exact ⟨_, by simp [mayRaise], h⟩
        · rcases bind_eq_error.1 h with h | ⟨⟨z, v⟩, -, h⟩
          · exact ⟨_, by simp [mayRaise], (getBits_error h).1⟩
          · simp only at h
            split at h
            · cases h; exact ⟨.badTable, by simp [mayRaise], rfl⟩
            · cases h

end Sys2Proof.Machine
end

