-- ==== Sys2Proof/Laws/Decoder.lean ====
section
/-! SUPPORT. The decoder (46_decoder.md): the search, one symbol, a run of symbols, the whole job. -/

namespace Sys2Proof.Machine

open Sys2Proof

/-! ### The search -/

/-- A code of the decode table matches the bits read exactly when it is their bit string (R180). -/
theorem entry_matches {e : DecEntry} (he : e.code.toNat < 2 ^ e.len.toNat) {bits : List Bool} :
    (e.len.toNat == bits.length && e.code.toNat == bitsValue bits) = true ↔ e.bits = bits := by
  rw [Bool.and_eq_true, beq_iff_eq, beq_iff_eq, DecEntry.bits]
  constructor
  · rintro ⟨hl, hc⟩; rw [hc, bitString_bitsValue_of_length hl.symm]
  · intro h
    have hl : e.len.toNat = bits.length := by rw [← h, bitString_length]
    exact ⟨hl, by rw [← h, bitsValue_bitString_of_lt he]⟩

theorem findEntry_some {dt : List DecEntry} (hr : ∀ e ∈ dt, EntryOk e) {bits : List Bool} {e : DecEntry}
    (h : findEntry dt (bitsValue bits) bits.length = some e) : e ∈ dt ∧ e.bits = bits := by
  have hm := List.mem_of_find?_eq_some h
  have hf := List.find?_some (p := fun e : DecEntry => e.len.toNat == bits.length && e.code.toNat == bitsValue bits) h
  exact ⟨hm, (entry_matches (hr e hm).2).1 hf⟩

theorem findEntry_none {dt : List DecEntry} (hr : ∀ e ∈ dt, EntryOk e) {bits : List Bool}
    (h : findEntry dt (bitsValue bits) bits.length = none) {e : DecEntry} (he : e ∈ dt) : e.bits ≠ bits := by
  intro hb
  have := List.find?_eq_none.1 h e he
  exact this ((entry_matches (hr e he).2).2 hb)

/-- In a prefix code an entry that begins another is that entry (R154). -/
theorem PrefixCode.eq_of_prefix {dt : List DecEntry} (hp : PrefixCode (dt.map DecEntry.bits)) {d e : DecEntry}
    (hd : d ∈ dt) (he : e ∈ dt) (h : d.bits <+: e.bits) : d = e := by
  rw [PrefixCode, List.pairwise_map] at hp
  induction dt with
  | nil => cases hd
  | cons x dt ih =>
    obtain ⟨hx, hp⟩ := List.pairwise_cons.1 hp
    rcases List.mem_cons.1 hd with hd | hd <;> rcases List.mem_cons.1 he with he | he
    · rw [hd, he]
    · rw [hd] at h; exact absurd h (hx e he).1
    · rw [he] at h; exact absurd h (hx d hd).2
    · exact ih hp hd he

/-! ### The loop of `DecSym` -/

/-- One more bit after those read. -/
theorem snoc_value (pre : List Bool) (b : Bool) :
    2 * bitsValue pre + b.toNat = bitsValue (pre ++ [b]) ∧ pre.length + 1 = (pre ++ [b]).length := by
  simp [bitsValue_snoc]

theorem matchBits_step {fuel : Nat} {pre : List Bool} {b : Bool} {s u : State} (hr : readBit .body s = .ok (b, u)) :
    matchBits (fuel + 1) (bitsValue pre) pre.length s =
      match findEntry u.dt (bitsValue (pre ++ [b])) (pre ++ [b]).length with
      | some e => emitSymbol e.sym u
      | none => matchBits fuel (bitsValue (pre ++ [b])) (pre ++ [b]).length u := by
  rw [← (snoc_value pre b).1, ← (snoc_value pre b).2, matchBits, hr]
  exact ok_bind _ _

/-- The search comes to the entry whose code stands next (R180). -/
theorem matchBits_hit {s : State} (hr : ∀ e ∈ s.dt, EntryOk e) (hp : PrefixCode (s.dt.map DecEntry.bits))
    {e : DecEntry} (he : e ∈ s.dt) {pre more rest : List Bool} {fuel : Nat} (hbits : e.bits = pre ++ more)
    (hne : more ≠ []) (hfuel : more.length ≤ fuel) (hun : s.unread = more ++ rest) :
    ∃ u, matchBits fuel (bitsValue pre) pre.length s = emitSymbol e.sym u ∧ Read more s u ∧ u.unread = rest := by
  induction more generalizing s pre fuel with
  | nil => exact absurd rfl hne
  | cons b more ih =>
    obtain ⟨fuel, rfl⟩ : ∃ f, fuel = f + 1 := ⟨fuel - 1, by rw [List.length_cons] at hfuel; omega⟩
    obtain ⟨b', u, hu⟩ := readBit_succeeds .body (s := s) (by rw [hun]; simp)
    have ru := readBit_ok hu
    have e1 := ru.stream
    rw [hun] at e1
    obtain ⟨rfl, hrest⟩ : b = b' ∧ more ++ rest = u.unread := by simpa using e1
    rw [matchBits_step hu, ru.dt]
    split
    · rename_i d hd
      obtain ⟨hdm, hdb⟩ := findEntry_some hr hd
      have hde : d = e := hp.eq_of_prefix hdm he (by rw [hdb, hbits]; exact ⟨more, by simp⟩)
      subst hde
      have hmore : more = [] := by
        rw [hdb] at hbits
        have := congrArg List.length hbits
        simp only [List.length_append, List.length_cons, List.length_nil] at this
        exact List.length_eq_zero_iff.1 (by omega)
      subst hmore
      exact ⟨u, rfl, ru, by simpa using hrest.symm⟩
    · rename_i hn
      have hmore : more ≠ [] := by
        rintro rfl
        exact findEntry_none hr hn he hbits
      obtain ⟨v, hv, rv, hvr⟩ := ih (s := u) (pre := pre ++ [b]) (fuel := fuel) (by rw [ru.dt]; exact hr)
        (by rw [ru.dt]; exact hp) (by rw [ru.dt]; exact he) (by rw [hbits]; simp) hmore
        (by simpa using hfuel) hrest.symm
      exact ⟨v, hv, ru.trans rv, hvr⟩

/-- The search, when it ends well, has come to an entry whose code stood next (R180). -/
theorem matchBits_ok {s t : State} (hr : ∀ e ∈ s.dt, EntryOk e) {pre : List Bool} {fuel : Nat}
    (h : matchBits fuel (bitsValue pre) pre.length s = .ok t) :
    ∃ e ∈ s.dt, ∃ more u, e.bits = pre ++ more ∧ Read more s u ∧ emitSymbol e.sym u = .ok t := by
  induction fuel generalizing s pre with
  | zero => cases h
  | succ fuel ih =>
    have h' := h
    obtain ⟨⟨b, u⟩, hu, -⟩ := bind_eq_ok.1 h'
    have ru := readBit_ok hu
    rw [matchBits_step hu, ru.dt] at h
    split at h
    · rename_i d hd
      obtain ⟨hdm, hdb⟩ := findEntry_some hr hd
      exact ⟨d, hdm, [b], u, hdb, ru, h⟩
    · obtain ⟨e, he, more, v, hb, rv, hv⟩ := ih (by rw [ru.dt]; exact hr) h
      exact ⟨e, by rw [← ru.dt]; exact he, b :: more, v, by rw [hb]; simp, ru.trans rv, hv⟩

/-- Where no entry's code stands next, the search gives up after the bits allowed, or where the source ends
(R180). -/
theorem matchBits_miss {s : State} (hr : ∀ e ∈ s.dt, EntryOk e) {pre : List Bool} {fuel : Nat}
    (h : ∀ e ∈ s.dt, ∀ more, more ≠ [] → e.bits = pre ++ more → ¬ more <+: s.unread) :
    matchBits fuel (bitsValue pre) pre.length s =
      if fuel ≤ s.unread.length then raise .noMatch else raise (.truncated .body) := by
  induction fuel generalizing s pre with
  | zero => simp [matchBits]
  | succ fuel ih =>
    match hu : readBit .body s with
    | .error x =>
      obtain ⟨rfl, hun⟩ := readBit_error hu
      rw [matchBits, hu, hun]
      simp
    | .ok (b, u) =>
      have ru := readBit_ok hu
      have e1 : s.unread = b :: u.unread := ru.stream
      rw [matchBits_step hu, ru.dt]
      split
      · rename_i d hd
        obtain ⟨hdm, hdb⟩ := findEntry_some hr hd
        exact absurd (by rw [e1]; exact ⟨u.unread, by simp⟩) (h d hdm [b] (by simp) hdb)
      · rw [ih (by rw [ru.dt]; exact hr), e1]
        · simp
        · intro e he more hne hb hpre
          rw [ru.dt] at he
          refine h e he (b :: more) (by simp) (by rw [hb]; simp) ?_
          rw [e1]
          exact List.prefix_cons_inj b |>.2 hpre

theorem matchBits_error {fuel acc l : Nat} {s : State} {x : Stop} (h : matchBits fuel acc l s = .error x) :
    x = .trap (.truncated .body) ∨ x = .trap .sinkFull ∨ x = .trap .noMatch := by
  induction fuel generalizing acc l s with
  | zero => cases h; exact .inr (.inr rfl)
  | succ fuel ih =>
    rcases bind_eq_error.1 h with h | ⟨⟨b, u⟩, -, h⟩
    · exact .inl (readBit_error h).1
    · simp only at h
      split at h
      · rcases bind_eq_error.1 h with h | ⟨v, -, h⟩
        · exact .inr (.inl (snkPush_error h))
        · cases h
      · exact ih h

/-! ### `DecSym` -/

/-- From `s` to `t` the symbols of `es` were decoded, in order (R180, R182). -/
structure Decoded (es : List DecEntry) (s t : State) : Prop where
  frame : t = { s with srcPos := t.srcPos, brByte := t.brByte, brCnt := t.brCnt, snk := t.snk, res := t.res,
                       decRem := t.decRem }
  member : ∀ e ∈ es, e ∈ s.dt
  stream : s.unread = es.flatMap DecEntry.bits ++ t.unread
  snk : t.snk = s.snk ++ es.map DecEntry.sym
  res : t.res = ((es.map DecEntry.sym).getLast?.map (·.setWidth 64)).getD s.res
  decRem : t.decRem.toNat + es.length = s.decRem.toNat
  room : s.sinkTakes 0 → t.sinkTakes 0
  within : s.brCnt.toNat ≤ 8 → t.brCnt.toNat ≤ 8
  position : s.srcPos.toNat ≤ s.srcLen.toNat → t.srcPos.toNat ≤ t.srcLen.toNat

theorem Decoded.refl (s : State) : Decoded [] s s :=
  ⟨rfl, by simp, by simp, by simp, by simp, by simp, id, id, id⟩

theorem Decoded.trans {es fs : List DecEntry} {s t u : State} (h : Decoded es s t) (h' : Decoded fs t u) :
    Decoded (es ++ fs) s u where
  frame := by
    have e := h'.frame
    rw [h.frame] at e
    exact e
  member e he := by
    rcases List.mem_append.1 he with he | he
    · exact h.member e he
    · have := h'.member e he
      rw [h.frame] at this
      exact this
  stream := by rw [h.stream, h'.stream]; simp
  snk := by rw [h'.snk, h.snk]; simp
  res := by
    rw [h'.res, h.res]
    cases hf : (fs.map DecEntry.sym).getLast? with
    | none =>
      have : fs = [] := by simpa using hf
      subst this; simp
    | some y => simp [List.getLast?_append, hf]
  decRem := by have := h.decRem; have := h'.decRem; simp; omega
  room hs := h'.room (h.room hs)
  within hs := h'.within (h.within hs)
  position hs := h'.position (h.position hs)

theorem emitSymbol_ok {y : Byte} {s t : State} (h : emitSymbol y s = .ok t) :
    s.sinkTakes 1 ∧ t = { s with snk := s.snk ++ [y], res := y.setWidth 64, decRem := s.decRem - 1 } := by
  obtain ⟨u, hu, h⟩ := bind_eq_ok.1 h
  obtain ⟨h1, rfl⟩ := snkPush_eq_ok.1 hu
  cases h
  exact ⟨h1, rfl⟩

theorem emitSymbol_succeeds (y : Byte) {s : State} (h : s.sinkTakes 1) :
    emitSymbol y s = .ok { s with snk := s.snk ++ [y], res := y.setWidth 64, decRem := s.decRem - 1 } := by
  rw [emitSymbol, snkPush_eq_ok.2 ⟨h, rfl⟩]; rfl

theorem emitSymbol_full (y : Byte) {s : State} (h : ¬ s.sinkTakes 1) : emitSymbol y s = raise .sinkFull := by
  match hp : snkPush y s with
  | .ok u => exact absurd (snkPush_eq_ok.1 hp).1 h
  | .error x => rw [emitSymbol, hp, snkPush_error hp]; rfl

theorem decRem_pred {r : BitVec 32} (h : r ≠ 0) : (r - 1).toNat + 1 = r.toNat := by
  have h0 : r.toNat ≠ 0 := fun e => h (BitVec.eq_of_toNat_eq (by simpa using e))
  have := r.isLt
  rw [BitVec.toNat_sub]
  simp; omega

/-- What emitting a symbol after reading its code amounts to. -/
theorem decoded_of_emit {e : DecEntry} {s u t : State} (he : e ∈ s.dt) (hrem : s.decRem ≠ 0)
    (ru : Read e.bits s u) (ht : emitSymbol e.sym u = .ok t) : Decoded [e] s t := by
  obtain ⟨h1, rfl⟩ := emitSymbol_ok ht
  refine ⟨?_, by simpa using he, ?_, by simp [ru.snk], by simp, ?_, fun _ cap hc => ?_, ru.within, ru.position⟩
  · have e := congrArg (fun x : State => { x with snk := u.snk ++ [e.sym], res := e.sym.setWidth 64, decRem := u.decRem - 1 })
      ru.frame
    exact e
  · rw [ru.stream]; simp; rfl
  · simp only [ru.decRem]
    have := decRem_pred hrem
    simpa using this
  · have := h1 cap hc
    simpa using this

/-- `DecSym()` when it ends well (R180). -/
theorem decSym_ok {s t : State} (hr : ∀ e ∈ s.dt, EntryOk e) (h : decSym s = .ok t) :
    ∃ e, Decoded [e] s t := by
  unfold decSym at h
  split at h
  · cases h
  · rename_i hrem
    obtain ⟨e, he, more, u, hb, ru, ht⟩ := matchBits_ok (pre := []) hr h
    rw [List.nil_append] at hb
    subst hb
    exact ⟨e, decoded_of_emit he hrem ru ht⟩

/-- `DecSym()` decodes the entry whose code stands next (R180). -/
theorem decSym_hit {s : State} (hrem : s.decRem ≠ 0) (hr : ∀ e ∈ s.dt, EntryOk e)
    (hp : PrefixCode (s.dt.map DecEntry.bits)) {e : DecEntry} (he : e ∈ s.dt) {rest : List Bool}
    (hun : s.unread = e.bits ++ rest) :
    ∃ u, decSym s = emitSymbol e.sym u ∧ Read e.bits s u ∧ u.unread = rest := by
  have h1 := (hr e he).1
  have hlen : e.bits.length = e.len.toNat := by simp [DecEntry.bits]
  obtain ⟨u, hu, ru, hur⟩ := matchBits_hit (fuel := 64) (pre := []) hr hp he (by simp)
    (fun h0 => by rw [h0] at hlen; simp at hlen; omega) (by have := e.len.isLt; omega) hun
  exact ⟨u, by rw [decSym, if_neg hrem]; exact hu, ru, hur⟩

/-- `DecSym()` ends well where the code of an entry stands next and the sink takes its symbol (R180). -/
theorem decSym_succeeds {s : State} (hrem : s.decRem ≠ 0) (hr : ∀ e ∈ s.dt, EntryOk e)
    (hp : PrefixCode (s.dt.map DecEntry.bits)) {e : DecEntry} (he : e ∈ s.dt) {rest : List Bool}
    (hun : s.unread = e.bits ++ rest) (hroom : s.sinkTakes 1) :
    ∃ t, decSym s = .ok t ∧ Decoded [e] s t ∧ t.unread = rest := by
  obtain ⟨u, hu, ru, hur⟩ := decSym_hit hrem hr hp he hun
  have ht := emitSymbol_succeeds e.sym ((ru.takes 1).2 hroom)
  exact ⟨_, hu.trans ht, decoded_of_emit he hrem ru ht, hur⟩

/-- The faults of `DecSym()` (R181). -/
theorem decSym_error {s : State} {x : Stop} (h : decSym s = .error x) :
    x = .trap .decUnderflow ∧ s.decRem = 0 ∨
    (x = .trap (.truncated .body) ∨ x = .trap .sinkFull ∨ x = .trap .noMatch) ∧ s.decRem ≠ 0 := by
  unfold decSym at h
  split at h
  · cases h; exact .inl ⟨rfl, by assumption⟩
  · exact .inr ⟨matchBits_error h, by assumption⟩

/-! ### A run of symbols (R182) -/

theorem decSyms_ok {n : Nat} {s t : State} (hr : ∀ e ∈ s.dt, EntryOk e) (h : decSyms n s = .ok t) :
    ∃ es, es.length = n ∧ Decoded es s t := by
  induction n generalizing s with
  | zero => cases h; exact ⟨[], rfl, Decoded.refl _⟩
  | succ n ih =>
    obtain ⟨u, hu, h⟩ := bind_eq_ok.1 h
    obtain ⟨e, du⟩ := decSym_ok hr hu
    have hdt : u.dt = s.dt := by rw [du.frame]
    obtain ⟨es, hl, dt⟩ := ih (by rw [hdt]; exact hr) h
    exact ⟨e :: es, by simp [hl], du.trans dt⟩

theorem decSyms_succeeds {s : State} {es : List DecEntry} {rest : List Bool} (hr : ∀ e ∈ s.dt, EntryOk e)
    (hp : PrefixCode (s.dt.map DecEntry.bits)) (hm : ∀ e ∈ es, e ∈ s.dt) (hrem : es.length ≤ s.decRem.toNat)
    (hun : s.unread = es.flatMap DecEntry.bits ++ rest) (hroom : s.sinkTakes es.length) :
    ∃ t, decSyms es.length s = .ok t ∧ Decoded es s t ∧ t.unread = rest := by
  induction es generalizing s with
  | nil => exact ⟨s, rfl, Decoded.refl s, by simpa using hun⟩
  | cons e es ih =>
    rw [List.flatMap_cons, List.append_assoc] at hun
    have h0 : s.decRem ≠ 0 := by
      rintro h0; rw [h0] at hrem; simp at hrem
    obtain ⟨u, hu, du, hur⟩ := decSym_succeeds h0 hr hp (hm e List.mem_cons_self) hun
      (s.sinkTakes_mono hroom (by simp))
    have hdt : u.dt = s.dt := by rw [du.frame]
    have hcfg : u.cfg = s.cfg := by rw [du.frame]
    obtain ⟨t, ht, dt, htr⟩ := ih (s := u) (by rw [hdt]; exact hr) (by rw [hdt]; exact hp)
      (fun d hd => by rw [hdt]; exact hm d (List.mem_cons_of_mem _ hd))
      (by have := du.decRem; simp at this hrem; omega) hur
      (fun cap hc => by
        have := hroom cap (by rw [← hcfg]; exact hc)
        rw [du.snk]; simp at this ⊢; omega)
    exact ⟨t, by rw [List.length_cons, decSyms, hu, ok_bind, ht], du.trans dt, htr⟩

/-- With as many symbols left as it decodes, a run has only the faults of the body (R182). -/
theorem decSyms_error {n : Nat} {s : State} {x : Stop} (hr : ∀ e ∈ s.dt, EntryOk e) (hn : n ≤ s.decRem.toNat)
    (h : decSyms n s = .error x) :
    x = .trap (.truncated .body) ∨ x = .trap .sinkFull ∨ x = .trap .noMatch := by
  induction n generalizing s with
  | zero => cases h
  | succ n ih =>
    rcases bind_eq_error.1 h with h | ⟨u, hu, h⟩
    · rcases decSym_error h with ⟨-, h0⟩ | ⟨h, -⟩
      · rw [h0] at hn; simp at hn
      · exact h
    · obtain ⟨e, du⟩ := decSym_ok hr hu
      have hdt : u.dt = s.dt := by rw [du.frame]
      exact ih (by rw [hdt]; exact hr) (by have := du.decRem; simp at this; omega) h

/-! ### The whole job (R183) -/

theorem init_unread (s : State) : s.init.unread = streamOf s.source := by
  simp [State.unread, State.source]
  rfl

/-- From `s` to `t` the source was decoded: its header, then its body (R183). -/
structure DecodedFile (entries es : List DecEntry) (s t : State) : Prop where
  frame : t = { s.init with srcPos := t.srcPos, brByte := t.brByte, brCnt := t.brCnt, snk := t.snk, res := t.res,
                            dt := t.dt, snkSync := t.snkLen, status := s.status ||| 0x0001#16 }
  accepted : AcceptedTable entries
  size : es.length < 2 ^ 32
  member : ∀ e ∈ es, e ∈ entries
  stream : streamOf s.source = headerBits entries es.length ++ es.flatMap DecEntry.bits ++ t.unread
  dt : t.dt = entries
  snk : t.snk = es.map DecEntry.sym
  res : t.res = ((es.map DecEntry.sym).getLast?.map (·.setWidth 64)).getD 0
  room : t.sinkTakes 0
  within : t.brCnt.toNat ≤ 8
  position : t.srcPos.toNat ≤ t.srcLen.toNat

theorem decodedFile_of {entries es : List DecEntry} {s a b : State} (p : Parsed entries es.length s.init a)
    (d : Decoded es a b) : DecodedFile entries es s { b with snkSync := b.snkLen }.setDone := by
  have h0 : b.decRem = 0 := BitVec.eq_of_toNat_eq (by have := d.decRem; rw [p.decRem] at this; simp; omega)
  refine ⟨?_, p.accepted, p.sizeLt, fun e he => by rw [← p.dt]; exact d.member e he,
    ?_, ?_, ?_, ?_, ?_, ?_, ?_⟩
  · have e := d.frame
    rw [p.frame, h0] at e
    have e' := congrArg (fun x : State => { x with snkSync := b.snkLen }.setDone) e
    have hdt : a.dt = b.dt := by rw [d.frame]
    rw [hdt] at e'
    exact e'
  · rw [← init_unread, p.stream, d.stream, List.append_assoc]; rfl
  · show b.dt = _
    rw [d.frame]; exact p.dt
  · show b.snk = _
    rw [d.snk, p.frame]; rfl
  · show b.res = _
    rw [d.res, p.frame]; rfl
  · have : a.sinkTakes 0 := by rw [p.frame]; exact fun cap _ => by simp
    exact d.room this
  · exact d.within (p.within (by simp))
  · exact d.position (p.position (by simp))

theorem decodeJob_ok {s t : State} (h : decodeJob s = .ok t) : ∃ entries es, DecodedFile entries es s t := by
  obtain ⟨a, ha, h⟩ := bind_eq_ok.1 h
  obtain ⟨b, hb, h⟩ := bind_eq_ok.1 h
  cases h
  obtain ⟨entries, size, p⟩ := hdrParse_ok ha
  obtain ⟨es, hl, d⟩ := decSyms_ok (by rw [p.dt]; exact p.accepted.2.2.1) hb
  have hsize : size = es.length := by rw [hl, p.decRem]
  subst hsize
  exact ⟨entries, es, decodedFile_of p d⟩

/-- `DECODE`'s rule ends well on every file with an accepted table and a body of its codes, and reads that file and no
bit more (R100, R183). -/
theorem decodeJob_succeeds {s : State} {entries es : List DecEntry} {rest : List Bool} (ht : AcceptedTable entries)
    (hs : es.length < 2 ^ 32) (hm : ∀ e ∈ es, e ∈ entries)
    (h : streamOf s.source = headerBits entries es.length ++ es.flatMap DecEntry.bits ++ rest)
    (hroom : ∀ cap, s.cfg.snkCap = some cap → es.length ≤ cap.toNat) :
    ∃ t, decodeJob s = .ok t ∧ DecodedFile entries es s t ∧ t.unread = rest := by
  rw [← init_unread, List.append_assoc] at h
  obtain ⟨a, ha, p, hrest⟩ := hdrParse_of_unread ht hs h
  obtain ⟨b, hb, d, hrest⟩ := decSyms_succeeds (s := a) (es := es) (rest := rest) (by rw [p.dt]; exact ht.2.2.1)
    (by rw [p.dt]; exact ht.2.2.2) (by rw [p.dt]; exact hm) (by rw [p.decRem]) hrest
    (fun cap hc => by
      have hcfg : a.cfg = s.cfg := by rw [p.frame]; rfl
      have hsnk : a.snk = [] := by rw [p.frame]; rfl
      rw [hsnk]
      simpa using hroom cap (by rw [← hcfg]; exact hc))
  refine ⟨{ b with snkSync := b.snkLen }.setDone, ?_, decodedFile_of p d, hrest⟩
  rw [decodeJob, ha, ok_bind, decBody, p.decRem, hb]
  rfl

theorem decodeJob_error {s : State} {x : Stop} (h : decodeJob s = .error x) :
    ∃ k ∈ mayRaise .decodeJob, x = .trap k := by
  rcases bind_eq_error.1 h with h | ⟨a, ha, h⟩
  · obtain ⟨k, hk, rfl⟩ := hdrParse_error h
    refine ⟨k, ?_, rfl⟩
    simp only [mayRaise, List.mem_cons, List.not_mem_nil] at hk ⊢
    tauto
  · rcases bind_eq_error.1 h with h | ⟨b, -, h⟩
    · obtain ⟨entries, size, p⟩ := hdrParse_ok ha
      rcases decSyms_error (by rw [p.dt]; exact p.accepted.2.2.1) (Nat.le_refl _) h with rfl | rfl | rfl <;>
        exact ⟨_, by simp [mayRaise], rfl⟩
    · cases h

end Sys2Proof.Machine
end

