-- ==== Sys2Proof/Laws/Dispatch.lean ====
section
/-! SUPPORT. What dispatch can do, said once: the three ways a command ends (47_control.md R193,
60_exceptions.md R200, R203). -/

namespace Sys2Proof.Machine

open Sys2Proof

variable {i : Instr} {rule : State → Exec State} {s t : State} {w : Word}

/-! ### Which rule each command runs (R193) -/

theorem exec_ctlNop : exec .ctlNop s = .next s := rfl
theorem exec_ctlReset : exec .ctlReset s = .next s.leaveFault := rfl
theorem exec_bwBit (val : Nat) : exec (.bwBit val) s = dispatch (.bwBit val)
    (fun s => bitOperand val >>= fun b => writeBit b s) s :=
    rfl
theorem exec_bwBits (val len : Nat) : exec (.bwBits val len) s = dispatch (.bwBits val len)
    (fun s => lenOperand len >>= fun n => putBits val n s) s :=
    rfl
theorem exec_bwFlush : exec .bwFlush s = dispatch .bwFlush flush s := rfl
theorem exec_brBit : exec .brBit s = dispatch .brBit
    (fun s => readBit .raw s >>= fun (b, s) => .ok (setRes b.toNat s)) s :=
    rfl
theorem exec_brBits (len : Nat) : exec (.brBits len) s = dispatch (.brBits len)
    (fun s => lenOperand len >>= fun n => getBits n .raw s >>= fun (v, s) => .ok (setRes v s)) s :=
    rfl
theorem exec_histClr : exec .histClr s = dispatch .histClr (fun s => .ok (histClear s)) s := rfl
theorem exec_histAcc (sym : Nat) : exec (.histAcc sym) s = dispatch (.histAcc sym) (histAcc (symOperand sym)) s :=
    rfl
theorem exec_histScan : exec .histScan s = dispatch .histScan countPass s := rfl
theorem exec_treeInit : exec .treeInit s = dispatch .treeInit treeInit s := rfl
theorem exec_treeMerge : exec .treeMerge s = dispatch .treeMerge treeMerge s := rfl
theorem exec_treeBuild : exec .treeBuild s = dispatch .treeBuild treeBuild s := rfl
theorem exec_codeWalk : exec .codeWalk s = dispatch .codeWalk codeWalk s := rfl
theorem exec_hdrWrite : exec .hdrWrite s = dispatch .hdrWrite hdrWrite s := rfl
theorem exec_hdrParse : exec .hdrParse s = dispatch .hdrParse hdrParse s := rfl
theorem exec_encSym (sym : Nat) : exec (.encSym sym) s = dispatch (.encSym sym) (encSym (symOperand sym)) s := rfl
theorem exec_encBody : exec .encBody s = dispatch .encBody emitPass s := rfl
theorem exec_encodeJob : exec .encodeJob s = dispatch .encodeJob encodeJob s := rfl
theorem exec_decSym : exec .decSym s = dispatch .decSym decSym s := rfl
theorem exec_decBody : exec .decBody s = dispatch .decBody decBody s := rfl
theorem exec_decodeJob : exec .decodeJob s = dispatch .decodeJob decodeJob s := rfl

@[simp] theorem conclude_ok : conclude w s (.ok t) = .next t := rfl
@[simp] theorem conclude_trap (k : Trap) :
    conclude w s (.error (.trap k)) = .next (s.enterFault k w) := rfl
@[simp] theorem conclude_stuck (f : Fault) : conclude w s (.error (.stuck f)) = .fault f := rfl

/-- A faulted engine ignores the command (R206). -/
theorem dispatch_faulted (h : s.err = true) : dispatch i rule s = .next s := by simp [dispatch, h]

/-- An unfaulted engine clears `DONE` and runs the command's own rule (R193). -/
theorem dispatch_unfaulted (h : s.err = false) :
    dispatch i rule s = conclude (encode i) s (rule s.clearDone) := by simp [dispatch, h]

/-- The command completes where its rule does. -/
theorem dispatch_completes (h : s.err = false) (hr : rule s.clearDone = .ok t) :
    dispatch i rule s = .next t := by simp [dispatch_unfaulted h, hr]

/-- The command faults where its rule raises. -/
theorem dispatch_raises {k : Trap} (h : s.err = false) (hr : rule s.clearDone = raise k) :
    dispatch i rule s = .next (s.enterFault k (encode i)) := by simp [dispatch_unfaulted h, hr]

/-- Everything dispatch can answer with a next state: ignored while faulted, the rule's own end, or fault
entry. -/
theorem dispatch_cases (h : dispatch i rule s = .next t) :
    (s.err = true ∧ t = s) ∨
    (s.err = false ∧ rule s.clearDone = .ok t) ∨
    (s.err = false ∧ ∃ k, rule s.clearDone = raise k ∧ t = s.enterFault k (encode i)) := by
  cases he : s.err with
  | true => left; rw [dispatch_faulted he] at h; exact ⟨rfl, by cases h; rfl⟩
  | false =>
    right
    rw [dispatch_unfaulted he] at h
    match hr : rule s.clearDone with
    | .ok u => rw [hr] at h; cases h; exact .inl ⟨rfl, rfl⟩
    | .error (.trap k) => rw [hr] at h; cases h; exact .inr ⟨rfl, k, rfl, rfl⟩
    | .error (.stuck f) => rw [hr] at h; cases h

/-- Dispatch never refuses. -/
theorem dispatch_ne_refused (r : Refusal) : dispatch i rule s ≠ .refused r := by
  unfold dispatch
  split
  · exact nofun
  · match rule s.clearDone with
    | .ok _ => exact nofun
    | .error (.trap _) => exact nofun
    | .error (.stuck _) => exact nofun

/-- Dispatch stops with a fault only where the rule is stuck. -/
theorem dispatch_fault {f : Fault} (h : dispatch i rule s = .fault f) :
    s.err = false ∧ rule s.clearDone = .error (.stuck f) := by
  cases he : s.err with
  | true => rw [dispatch_faulted he] at h; cases h
  | false =>
    rw [dispatch_unfaulted he] at h
    match hr : rule s.clearDone with
    | .ok u => rw [hr] at h; cases h
    | .error (.trap k) => rw [hr] at h; cases h
    | .error (.stuck g) => rw [hr] at h; cases h; exact ⟨rfl, rfl⟩

/-- Everything a step can do: idle, a word presented, or a write of the host's own (R48, R193, R217). -/
theorem step_cases {t : State} (h : step s = .next t) :
    (s.host = [] ∧ t = s) ∨
    (∃ w rest, s.host = .issue w :: rest ∧ issueWord w { s with host := rest } = .next t) ∨
    (∃ a b rest, s.host = .writeSrc a b :: rest ∧ a < s.cfg.srcCap ∧
      t = { s with host := rest, src := s.src.write a.toNat b }) ∨
    (∃ n rest, s.host = .setSrcLen n :: rest ∧ n ≤ s.cfg.srcCap ∧ t = { s with host := rest, srcLen := n }) := by
  unfold step nextMove at h
  split at h
  · rename_i hh; cases h; exact .inl ⟨hh, rfl⟩
  · rename_i m rest hh
    cases m with
    | issue w => exact .inr (.inl ⟨w, rest, hh, h⟩)
    | writeSrc a b =>
      simp only [hostMove] at h
      split at h
      · cases h; exact .inr (.inr (.inl ⟨a, b, rest, hh, by assumption, rfl⟩))
      · cases h
    | setSrcLen n =>
      simp only [hostMove] at h
      split at h
      · cases h; exact .inr (.inr (.inr ⟨n, rest, hh, by assumption, rfl⟩))
      · cases h

/-- Everything a presented word can do (R193). -/
theorem issueWord_cases (h : issueWord w s = .next t) :
    (∃ i, decode w = .ok i ∧ exec i s = .next t) ∨
    ((∃ e, decode w = .error e) ∧
      ((s.err = true ∧ t = s) ∨ (s.err = false ∧ t = s.enterFault .illegalCommand w))) := by
  unfold issueWord at h
  split at h
  · rename_i i hi; exact .inl ⟨i, hi, h⟩
  · rename_i e hi
    refine .inr ⟨⟨e, hi⟩, ?_⟩
    split at h
    · cases h; exact .inl ⟨by assumption, rfl⟩
    · cases h; rename_i he; exact .inr ⟨by simpa using he, rfl⟩

end Sys2Proof.Machine
end

