-- ==== Sys2Proof/Laws/Encoder.lean ====
section
/-! SUPPORT. The encoder (45_encoder.md): one code, the emit pass, and the whole job from the source buffer to
the encoded file. -/

namespace Sys2Proof.Machine

open Sys2Proof

/-! ### Codes (R170, R172) -/

theorem codeBits_some {ct : CodeTable} {y : Byte} {e : CodeEntry} (h : tableGet ct y = some e) :
    codeBits ct y = bitString e.code.toNat e.len.toNat := by simp [codeBits, h]

/-- `EncSym(s)` when it ends well (R170). -/
theorem encSym_ok {y : Byte} {s t : State} (h : encSym y s = .ok t) :
    (tableGet s.ct y).isSome ∧ Wrote (codeBits s.ct y) s t := by
  unfold encSym at h
  split at h
  · cases h
  · rename_i e he
    rw [codeBits_some he]
    exact ⟨by rw [he]; rfl, putBits_ok h⟩

/-- `EncSym(s)` ends well with an entry and room for its code (R170). -/
theorem encSym_succeeds {y : Byte} {s : State} (h : (tableGet s.ct y).isSome)
    (hr : s.takesBits (codeBits s.ct y).length) : ∃ t, encSym y s = .ok t := by
  obtain ⟨e, he⟩ := Option.isSome_iff_exists.1 h
  rw [codeBits_some he, bitString_length] at hr
  obtain ⟨t, ht⟩ := putBits_succeeds e.code.toNat hr
  exact ⟨t, by rw [encSym, he]; exact ht⟩

/-- `EncSym(s)` finds no entry, or the sink full (R170). -/
theorem encSym_error {y : Byte} {s : State} {x : Stop} (h : encSym y s = .error x) :
    x = .trap .noCode ∧ tableGet s.ct y = none ∨ x = .trap .sinkFull ∧ (tableGet s.ct y).isSome := by
  unfold encSym at h
  split at h
  · rename_i he; cases h; exact .inl ⟨rfl, he⟩
  · rename_i e he; exact .inr ⟨putBits_error h, by rw [he]; rfl⟩

theorem encSym_src {y : Byte} {s t : State} (h : encSym y s = .ok t) : t.src = s.src := (encSym_ok h).2.src

/-- The emit pass over a list of bytes. -/
theorem emitBytes_ok {bytes : List Byte} {s t : State} (h : bytes.foldlM (fun s y => encSym y s) s = .ok t) :
    (∀ y ∈ bytes, (tableGet s.ct y).isSome) ∧ Wrote (bodyBits s.ct bytes) s t := by
  induction bytes generalizing s with
  | nil => cases h; exact ⟨by simp, Wrote.refl _⟩
  | cons y bytes ih =>
    rw [List.foldlM_cons] at h
    obtain ⟨u, hu, h⟩ := bind_eq_ok.1 h
    obtain ⟨hy, wu⟩ := encSym_ok hu
    obtain ⟨hb, wt⟩ := ih h
    rw [wu.ct] at hb wt
    refine ⟨?_, ?_⟩
    · intro z hz
      rcases List.mem_cons.1 hz with rfl | hz
      · exact hy
      · exact hb z hz
    · rw [bodyBits, List.flatMap_cons]; exact wu.trans wt

theorem emitBytes_succeeds {bytes : List Byte} {s : State} (h : ∀ y ∈ bytes, (tableGet s.ct y).isSome)
    (hr : s.takesBits (bodyBits s.ct bytes).length) : ∃ t, bytes.foldlM (fun s y => encSym y s) s = .ok t := by
  induction bytes generalizing s with
  | nil => exact ⟨s, rfl⟩
  | cons y bytes ih =>
    rw [bodyBits, List.flatMap_cons, List.length_append] at hr
    obtain ⟨u, hu⟩ := encSym_succeeds (h y List.mem_cons_self) (s.takesBits_mono hr (by omega))
    have wu := (encSym_ok hu).2
    obtain ⟨t, ht⟩ := ih (s := u) (by rw [wu.ct]; exact fun z hz => h z (List.mem_cons_of_mem _ hz))
      (by rw [wu.ct]; exact wu.takesBits hr)
    exact ⟨t, by rw [List.foldlM_cons, hu]; exact ht⟩

theorem emitBytes_error {bytes : List Byte} {s : State} {x : Stop}
    (h : bytes.foldlM (fun s y => encSym y s) s = .error x) :
    x = .trap .noCode ∧ (∃ y ∈ bytes, tableGet s.ct y = none) ∨ x = .trap .sinkFull := by
  induction bytes generalizing s with
  | nil => cases h
  | cons y bytes ih =>
    rw [List.foldlM_cons] at h
    rcases bind_eq_error.1 h with h | ⟨u, hu, h⟩
    · rcases encSym_error h with ⟨rfl, hy⟩ | ⟨rfl, -⟩
      · exact .inl ⟨rfl, y, List.mem_cons_self, hy⟩
      · exact .inr rfl
    · rcases ih h with ⟨rfl, z, hz, hn⟩ | rfl
      · exact .inl ⟨rfl, z, List.mem_cons_of_mem _ hz, by rw [← (encSym_ok hu).2.ct]; exact hn⟩
      · exact .inr rfl

theorem emitPass_eq (s : State) : emitPass s = s.source.foldlM (fun s y => encSym y s) s :=
  overSource_source (fun _ _ _ => encSym_src) s

/-! ### The whole job (R173) -/

theorem present_of_counts {hist : Histogram} {bytes : List Byte}
    (h : ∀ y, (tableGet hist y).toNat = occurrences y bytes) {y : Byte} : tableGet hist y ≠ 0 ↔ y ∈ bytes := by
  have e : tableGet hist y = 0 ↔ (tableGet hist y).toNat = 0 :=
    ⟨fun h => by rw [h]; rfl, fun h => BitVec.eq_of_toNat_eq (by simpa using h)⟩
  rw [Ne, e, h y, occurrences, List.count_eq_zero, not_not]

theorem mem_leavesOf_iff {hist : Histogram} {y : Byte} :
    (∃ c, Node.leaf c y ∈ leavesOf hist) ↔ tableGet hist y ≠ 0 := by
  constructor
  · rintro ⟨c, h⟩
    obtain ⟨z, hz, e⟩ := mem_leavesOf.1 h
    cases e; exact hz
  · intro h
    exact ⟨_, mem_leavesOf.2 ⟨y, h, rfl⟩⟩

theorem sum_occurrences_cons (l : List Byte) (b : Byte) (bytes : List Byte) :
    (l.map (fun y => occurrences y (b :: bytes))).sum = (l.map (fun y => occurrences y bytes)).sum + l.count b := by
  induction l with
  | nil => rfl
  | cons y l ih =>
    rw [List.map_cons, List.sum_cons, ih, List.map_cons, List.sum_cons, List.count_cons, occurrences, occurrences,
      List.count_cons]
    by_cases h : b = y
    · subst h; simp; omega
    · have h' : (y == b) = false := by simpa using Ne.symm h
      have h'' : (b == y) = false := by simpa using h
      simp [h', h'']; omega

/-- The sum of the counts of a histogram of bytes is their number (R19). -/
theorem sum_occurrences (bytes : List Byte) :
    (symbols.map (fun y => occurrences y bytes)).sum = bytes.length := by
  induction bytes with
  | nil =>
    have : ∀ l : List Byte, (l.map (fun y => occurrences y [])).sum = 0 := by
      intro l
      induction l with
      | nil => rfl
      | cons y l ih => rw [List.map_cons, List.sum_cons, ih]; rfl
    exact this symbols
  | cons b bytes ih =>
    rw [sum_occurrences_cons, ih, List.count_eq_one_of_mem symbols_nodup (mem_symbols b), List.length_cons]

/-- From `s` to `t` the source was encoded (R173). -/
structure EncodedFile (s t : State) : Prop where
  frame : t = { s.init with hist := t.hist, histTotal := t.histTotal, ct := t.ct, snk := t.snk,
                            snkSync := t.snkLen, status := s.status ||| 0x0001#16 }
  counts : ∀ y, (tableGet t.hist y).toNat = occurrences y s.source
  total : t.histTotal.toNat = s.source.length
  entries : ∀ y, (tableGet t.ct y).isSome ↔ y ∈ s.source
  table : AcceptedTable (tableEntries t.ct)
  file : streamOf t.snk =
    zeroPad (headerBits (tableEntries t.ct) s.source.length ++ bodyBits t.ct s.source)
  room : t.sinkTakes 0

/-- The units of `ENCODE` one after another, each from where the last one ended (R173). -/
theorem encodeUnits_eq (s : State) : encodeUnits s = (do
    let s ← countPass s
    let s ← treeBuild s
    let s ← codeWalk s
    let s ← hdrWrite s
    let s ← emitPass s
    let s ← flush s
    .ok s.setDone) := rfl

/-- What stands before the header is written: the histogram of the source and its code table (R173). -/
structure TableMade (s t : State) : Prop where
  frame : t = { s with hist := t.hist, histTotal := t.histTotal, ct := t.ct, node := [], pq := [], root := 0,
                       rootValid := false }
  counts : ∀ y, (tableGet t.hist y).toNat = occurrences y s.source
  total : t.histTotal.toNat = s.source.length
  entries : ∀ y, (tableGet t.ct y).isSome ↔ y ∈ s.source
  table : AcceptedTable (tableEntries t.ct)

/-- The first three units of `ENCODE`. -/
def makeTable (s : State) : Exec State := do
  let s ← countPass s
  let s ← treeBuild s
  codeWalk s

theorem encodeUnits_makeTable (s : State) : encodeUnits s = (makeTable s >>= fun s => hdrWrite s >>= fun s =>
    emitPass s >>= fun s => flush s >>= fun s => .ok s.setDone) := by
  rw [encodeUnits, makeTable]
  simp only [bind_assoc]

theorem countPass_present {s a : State} (hc : ∀ y, (tableGet a.hist y).toNat = occurrences y s.source)
    (hs : s.source ≠ []) : present a.hist ≠ [] := by
  obtain ⟨y, hy⟩ := List.exists_mem_of_ne_nil _ hs
  have := (present_of_counts hc (y := y)).2 hy
  intro h0
  have hm : y ∈ present a.hist := List.mem_filter.2 ⟨mem_symbols y, by simpa using this⟩
  rw [h0] at hm; cases hm

theorem counts_sum {s a : State} (hc : ∀ y, (tableGet a.hist y).toNat = occurrences y s.source) :
    (symbols.map (fun y => (tableGet a.hist y).toNat)).sum = s.source.length := by
  simp only [hc]
  exact sum_occurrences _

theorem fib_bound {n : Nat} (h : Nat.fib (n + 2) ≤ 2 ^ 32 - 1) : n ≤ 63 := by
  by_contra hn
  have : Nat.fib 66 ≤ Nat.fib (n + 2) := Nat.fib_mono (by omega)
  have e : Nat.fib 66 = 27777890035288 := by decide +kernel
  omega

theorem makeTable_ok {s t : State} (hs : s.source ≠ []) (h : makeTable s = .ok t) : TableMade s t := by
  obtain ⟨a, ha, fa, hc, htot⟩ := countPass_counts s
  rw [makeTable, ha, ok_bind] at h
  obtain ⟨b, hb, h⟩ := bind_eq_ok.1 h
  have w := treeBuild_ok hb
  obtain ⟨inner, sh⟩ := w.shape
  have c := codeWalk_ok sh h
  have hist : t.hist = a.hist := by rw [c.frame, discardTree_hist, w.frame]
  have ent : ∀ y, (tableGet t.ct y).isSome ↔ y ∈ s.source := fun y => by
    rw [c.entry_iff sh w.rooted y, mem_leavesOf_iff, present_of_counts hc]
  refine ⟨?_, fun y => by rw [hist, hc], ?_, ent, accepted_of ?_ (fun y e => c.range) fun y z d e hne hd he => c.prefixFree hd he hne⟩
  · have e := c.frame
    rw [w.frame, fa] at e
    rw [hist]
    have ht : t.histTotal = a.histTotal := by rw [c.frame, discardTree_histTotal, w.frame]
    rw [ht]
    exact e
  · have ht : t.histTotal = a.histTotal := by rw [c.frame, discardTree_histTotal, w.frame]
    rw [ht, htot, source_length]
  · obtain ⟨y, hy⟩ := List.exists_mem_of_ne_nil _ hs
    exact List.countP_pos_iff.2 ⟨y, mem_symbols y, (ent y).2 hy⟩

/-- The table is made of every input that fits the size field (R173, R143). -/
theorem makeTable_succeeds {s : State} (hs : s.source ≠ []) (hmax : s.source.length ≤ 2 ^ 32 - 1) :
    ∃ t, makeTable s = .ok t := by
  obtain ⟨a, ha, fa, hc, htot⟩ := countPass_counts s
  obtain ⟨b, hb⟩ := treeBuild_succeeds (s := a) (countPass_present hc hs) (by rw [counts_sum hc]; omega)
  have w := treeBuild_ok hb
  obtain ⟨inner, sh⟩ := w.shape
  have hroot := w.total
  rw [counts_sum hc] at hroot
  obtain ⟨t, ht⟩ := codeWalk_succeeds sh w.rooted fun bits y hl =>
    fib_bound (by have := w.heavy _ _ _ hl; omega)
  exact ⟨t, by rw [makeTable, ha, ok_bind, hb, ok_bind, ht]⟩

/-- `ENCODE`'s rule when it ends well (R173). -/
theorem encodeJob_ok {s t : State} (h : encodeJob s = .ok t) :
    1 ≤ s.source.length ∧ s.source.length ≤ 2 ^ 32 - 1 ∧ EncodedFile s t := by
  unfold encodeJob at h
  split at h
  · cases h
  · rename_i h0
    split at h
    · cases h
    · rename_i h1
      have hne : s.srcLen.toNat ≠ 0 := fun e => h0 (BitVec.eq_of_toNat_eq (by simpa using e))
      have hsrc : s.init.source = s.source := rfl
      have hlen := source_length s
      rw [encodeUnits_makeTable] at h
      obtain ⟨a, ha, h⟩ := bind_eq_ok.1 h
      obtain ⟨b, hb, h⟩ := bind_eq_ok.1 h
      obtain ⟨c, hc, h⟩ := bind_eq_ok.1 h
      obtain ⟨d, hd, h⟩ := bind_eq_ok.1 h
      cases h
      have m := makeTable_ok (by rw [hsrc]; intro e; rw [e] at hlen; simp at hlen; omega) ha
      obtain ⟨wb, -, -⟩ := hdrWrite_ok hb
      rw [emitPass_eq] at hc
      obtain ⟨-, wc⟩ := emitBytes_ok hc
      have hbs : b.source = s.source := by
        have : b.source = a.source := by simp [State.source, wb.srcLen, funext wb.srcRead]
        rw [this, m.frame]; rfl
      have w := wb.trans wc
      rw [hbs, wb.ct, m.total] at w
      obtain ⟨hf, hcnt, hsync, -, hacc0, hacc1, hroom, fd⟩ := flush_ok hd
      have hw0 : a.written = [] := by rw [m.frame]; rfl
      have tidy : c.bwAcc.toNat < 2 ^ c.bwCnt.toNat := w.tidy (by rw [m.frame]; show (0#8).toNat < 2 ^ (0#3).toNat; decide)
      have hacc : d.bwAcc = 0 := by
        by_cases hz : c.bwCnt = 0
        · rw [hacc0 hz]
          refine BitVec.eq_of_toNat_eq ?_
          rw [hz] at tidy; simpa using tidy
        · exact hacc1 hz
      have hdct : d.ct = a.ct := by rw [fd]; exact w.ct
      have hdh : d.hist = a.hist := by rw [fd]; exact w.hist
      have hdt : d.histTotal = a.histTotal := by rw [fd]; exact w.histTotal
      refine ⟨by omega, by rw [hlen]; simpa [Config.maxSize] using h1, ?_, ?_, ?_, ?_, ?_, ?_,
        hroom (w.room (by rw [m.frame]; exact fun cap _ => by simp))⟩
      · have e := fd
        rw [w.frame, m.frame, hcnt, hsync, hacc] at e
        have e' := congrArg State.setDone e
        show d.setDone = { s.init with hist := d.hist, histTotal := d.histTotal, ct := d.ct, snk := d.snk, snkSync := d.snkLen, status := s.status ||| 0x0001#16 }
        rw [hdct, hdh, hdt]
        exact e'
      · show ∀ y, (tableGet d.hist y).toNat = _
        rw [hdh]; exact m.counts
      · show d.histTotal.toNat = _
        rw [hdt]; exact m.total
      · show ∀ y, (tableGet d.ct y).isSome ↔ _
        rw [hdct]; exact m.entries
      · show AcceptedTable (tableEntries d.ct)
        rw [hdct]; exact m.table
      · show streamOf d.snk = zeroPad (headerBits (tableEntries d.ct) _ ++ bodyBits d.ct _)
        rw [hf, w.stream, hw0, hdct]
        rfl

/-! ### The length of the file (R77) -/

theorem inHeader_length (e : DecEntry) : e.inHeader.length = 14 + e.len.toNat := by
  simp [DecEntry.inHeader, DecEntry.bits]; omega

theorem entries_length_le (es : List DecEntry) : (es.flatMap DecEntry.inHeader).length ≤ 77 * es.length := by
  induction es with
  | nil => simp
  | cons e es ih =>
    rw [List.flatMap_cons, List.length_append, inHeader_length, List.length_cons]
    have := e.len.isLt
    omega

/-- The longest header is 19808 bits (R77). -/
theorem headerBits_length_le (ct : CodeTable) (size : Nat) :
    (headerBits (tableEntries ct) size).length ≤ 19808 := by
  rw [headerBits_eq, List.length_append, List.length_append, List.length_append, bitString_length,
    bitString_length, bitString_length]
  have h1 := entries_length_le (entriesOf ct symbols)
  have h2 : (entriesOf ct symbols).length = ctCount ct := tableEntries_length ct
  have := ctCount_le ct
  omega

theorem bodyBits_length_le (ct : CodeTable) (bytes : List Byte) :
    (bodyBits ct bytes).length ≤ 63 * bytes.length := by
  induction bytes with
  | nil => simp [bodyBits]
  | cons y bytes ih =>
    rw [bodyBits, List.flatMap_cons, List.length_append, List.length_cons]
    have : (codeBits ct y).length ≤ 63 := by
      unfold codeBits
      split
      · simp
      · rename_i e _; rw [bitString_length]; have := e.len.isLt; omega
    unfold bodyBits at ih
    omega

/-- `ENCODE`'s rule ends well on every input that fits the size field, with a sink large enough (R173, R185). -/
theorem encodeJob_succeeds {s : State} (h0 : 1 ≤ s.source.length) (hmax : s.source.length ≤ 2 ^ 32 - 1)
    (hroom : ∀ cap, s.cfg.snkCap = some cap → 2476 + 8 * s.source.length ≤ cap.toNat) :
    ∃ t, encodeJob s = .ok t := by
  have hlen := source_length s
  have hsrc : s.init.source = s.source := rfl
  obtain ⟨a, ha⟩ := makeTable_succeeds (s := s.init) (by rw [hsrc]; intro e; rw [e] at h0; simp at h0) (by rw [hsrc]; exact hmax)
  have m := makeTable_ok (by rw [hsrc]; intro e; rw [e] at h0; simp at h0) ha
  have hh := headerBits_length_le a.ct a.histTotal.toNat
  have hb := bodyBits_length_le a.ct s.source
  have hcfg : a.cfg = s.cfg := by rw [m.frame]; rfl
  have hsnk : a.snk = [] := by rw [m.frame]; rfl
  have hcnt : a.bwCnt.toNat = 0 := by rw [m.frame]; rfl
  have room : ∀ n, n ≤ 19808 + 63 * s.source.length → a.takesBits n := by
    intro n hn cap hc
    rw [hcfg] at hc
    have := hroom cap hc
    rw [hsnk, hcnt]
    simp only [List.length_nil]
    omega
  have htot : a.histTotal.toNat = s.source.length := m.total
  have hct : 1 ≤ ctCount a.ct := by rw [← tableEntries_length]; exact m.table.1
  obtain ⟨b, hb'⟩ := hdrWrite_succeeds hct (by omega) (room _ (by omega))
  have wb := (hdrWrite_ok hb').1
  have hbs : b.source = s.source := by
    have : b.source = a.source := by simp [State.source, wb.srcLen, funext wb.srcRead]
    rw [this, m.frame]; rfl
  obtain ⟨c, hc⟩ := emitBytes_succeeds (bytes := b.source) (s := b)
    (by rw [hbs, wb.ct]; exact fun y hy => (m.entries y).2 hy)
    (by rw [hbs, wb.ct]; exact wb.takesBits (room _ (by omega)))
  have wc := (emitBytes_ok hc).2
  rw [hbs, wb.ct] at wc
  have w := wb.trans wc
  obtain ⟨d, hd⟩ := flush_succeeds (s := c) fun hne => by
    intro cap hcap
    rw [w.cfg, hcfg] at hcap
    have h1 := hroom cap hcap
    have h2 := w.count
    rw [hsnk, hcnt, List.length_append] at h2
    simp only [List.length_nil] at h2
    have h3 : c.bwCnt.toNat ≠ 0 := fun e => hne (BitVec.eq_of_toNat_eq (by simpa using e))
    omega
  refine ⟨d.setDone, ?_⟩
  unfold encodeJob
  have hne : s.srcLen ≠ 0 := by
    intro e
    have : s.source.length = 0 := by rw [hlen, e]; rfl
    omega
  rw [if_neg hne, if_neg (show ¬ s.srcLen.toNat > Config.maxSize from Nat.not_lt.2 (by rw [← hlen]; exact hmax)),
    encodeUnits_makeTable, ha, ok_bind, hb', ok_bind, emitPass_eq, hc, ok_bind, hd]
  rfl

/-- The faults that `ENCODE` can in fact raise (R173, R210). -/
theorem encodeJob_error {s : State} {x : Stop} (h : encodeJob s = .error x) :
    x = .trap .empty ∧ s.source = [] ∨ x = .trap .size ∧ 2 ^ 32 - 1 < s.source.length ∨ x = .trap .sinkFull := by
  have hlen := source_length s
  unfold encodeJob at h
  split at h
  · rename_i h0
    cases h
    refine .inl ⟨rfl, List.length_eq_zero_iff.1 ?_⟩
    rw [hlen, h0]; rfl
  · rename_i h0
    have hne : s.srcLen.toNat ≠ 0 := fun e => h0 (BitVec.eq_of_toNat_eq (by simpa using e))
    split at h
    · rename_i h1
      cases h
      exact .inr (.inl ⟨rfl, by rw [hlen]; exact h1⟩)
    · rename_i h1
      refine .inr (.inr ?_)
      have hmax : s.source.length ≤ 2 ^ 32 - 1 := by rw [hlen]; exact Nat.not_lt.1 h1
      have hsrc : s.init.source = s.source := rfl
      have hnil : s.init.source ≠ [] := by
        rw [hsrc]; intro e; rw [e] at hlen; simp at hlen; omega
      obtain ⟨a, ha⟩ := makeTable_succeeds (s := s.init) hnil hmax
      have m := makeTable_ok hnil ha
      rw [encodeUnits_makeTable, ha, ok_bind] at h
      rcases bind_eq_error.1 h with h | ⟨b, hb, h⟩
      · rcases hdrWrite_error h with ⟨-, h0⟩ | ⟨-, -, h0⟩ | ⟨h, -⟩
        · have := m.table.1
          rw [tableEntries_length] at this
          omega
        · have : a.histTotal.toNat = s.source.length := m.total
          omega
        · exact h
      · rcases bind_eq_error.1 h with h | ⟨c, hc, h⟩
        · rw [emitPass_eq] at h
          have wb := (hdrWrite_ok hb).1
          have hbs : b.source = s.source := by
            have : b.source = a.source := by simp [State.source, wb.srcLen, funext wb.srcRead]
            rw [this, m.frame]; rfl
          rcases emitBytes_error h with ⟨-, y, hy, hn⟩ | h
          · rw [hbs] at hy
            rw [wb.ct] at hn
            have := (m.entries y).2 hy
            rw [hn] at this; cases this
          · exact h
        · rcases bind_eq_error.1 h with h | ⟨d, -, h⟩
          · exact flush_error h
          · cases h

/-! ### The round trip (R185) -/

/-- The entries of the source's bytes, one after another. -/
theorem body_entries {ct : CodeTable} {bytes : List Byte} (h : ∀ y ∈ bytes, (tableGet ct y).isSome) :
    ∃ es : List DecEntry, es.map DecEntry.sym = bytes ∧ (∀ e ∈ es, e ∈ tableEntries ct) ∧
      es.flatMap DecEntry.bits = bodyBits ct bytes := by
  induction bytes with
  | nil => exact ⟨[], rfl, by simp, rfl⟩
  | cons y bytes ih =>
    obtain ⟨e, he⟩ := Option.isSome_iff_exists.1 (h y List.mem_cons_self)
    obtain ⟨es, h1, h2, h3⟩ := ih fun z hz => h z (List.mem_cons_of_mem _ hz)
    refine ⟨{ sym := y, len := e.len, code := e.code } :: es, by simp [h1], ?_, ?_⟩
    · intro d hd
      rcases List.mem_cons.1 hd with rfl | hd
      · exact mem_tableEntries.2 he
      · exact h2 d hd
    · rw [List.flatMap_cons, h3, bodyBits, bodyBits, List.flatMap_cons, codeBits_some he]; rfl

/-- What `ENCODE` wrote, `DECODE` reads back (R185). -/
theorem decode_encoded {s t u : State} (w : EncodedFile s t) (hmax : s.source.length ≤ 2 ^ 32 - 1)
    (hu : u.source = t.snk) (hroom : ∀ cap, u.cfg.snkCap = some cap → s.source.length ≤ cap.toNat) :
    ∃ v, decodeJob u = .ok v ∧ v.snk = s.source := by
  obtain ⟨es, hsym, hmem, hbits⟩ := body_entries fun y hy => (w.entries y).2 hy
  have hl : es.length = s.source.length := by rw [← hsym, List.length_map]
  obtain ⟨v, hv, df, -⟩ := decodeJob_succeeds (s := u) (es := es) w.table (by omega) hmem
    (by rw [hu, w.file, hl, hbits, zeroPad]) (by rw [hl]; exact hroom)
  exact ⟨v, hv, by rw [df.snk, hsym]⟩

end Sys2Proof.Machine
end

