-- ==== Sys2Proof/Laws/Exec.lean ====
section
/-! SUPPORT. All commands at once: the rule each one runs, what every rule leaves alone when it ends well, and which
faults it can raise (60_exceptions.md R204). -/

namespace Sys2Proof.Machine

open Sys2Proof

/-- The rule dispatch runs for a command (R193); the two control commands run none. -/
def ruleOf : Instr → State → Exec State
  | .ctlNop, s => .ok s
  | .ctlReset, s => .ok s.leaveFault
  | .bwBit val, s => bitOperand val >>= fun b => writeBit b s
  | .bwBits val len, s => lenOperand len >>= fun n => putBits val n s
  | .bwFlush, s => flush s
  | .brBit, s => readBit .raw s >>= fun (b, s) => .ok (setRes b.toNat s)
  | .brBits len, s => lenOperand len >>= fun n => getBits n .raw s >>= fun (v, s) => .ok (setRes v s)
  | .histClr, s => .ok (histClear s)
  | .histAcc sym, s => histAcc (symOperand sym) s
  | .histScan, s => countPass s
  | .treeInit, s => treeInit s
  | .treeMerge, s => treeMerge s
  | .treeBuild, s => treeBuild s
  | .codeWalk, s => codeWalk s
  | .hdrWrite, s => hdrWrite s
  | .hdrParse, s => hdrParse s
  | .encSym sym, s => encSym (symOperand sym) s
  | .encBody, s => emitPass s
  | .encodeJob, s => encodeJob s
  | .decSym, s => decSym s
  | .decBody, s => decBody s
  | .decodeJob, s => decodeJob s

/-- Every command but the two control commands goes through dispatch (R193). -/
theorem exec_eq_dispatch {i : Instr} (h : i ≠ .ctlNop) (h' : i ≠ .ctlReset) (s : State) :
    exec i s = dispatch i (ruleOf i) s := by
  cases i <;> first | rfl | contradiction

/-- Everything a command can answer with a next state. -/
theorem exec_cases {i : Instr} {s t : State} (h : exec i s = .next t) :
    (i = .ctlNop ∧ t = s) ∨ (i = .ctlReset ∧ t = s.leaveFault) ∨
    (i ≠ .ctlReset ∧ s.err = true ∧ t = s) ∨
    (i ≠ .ctlNop ∧ i ≠ .ctlReset ∧ s.err = false ∧ ruleOf i s.clearDone = .ok t) ∨
    (i ≠ .ctlNop ∧ i ≠ .ctlReset ∧ s.err = false ∧
      ∃ k, ruleOf i s.clearDone = raise k ∧ t = s.enterFault k (encode i)) := by
  by_cases hn : i = .ctlNop
  · subst hn; cases h; exact .inl ⟨rfl, rfl⟩
  by_cases hr : i = .ctlReset
  · subst hr; cases h; exact .inr (.inl ⟨rfl, rfl⟩)
  rw [exec_eq_dispatch hn hr] at h
  rcases dispatch_cases h with ⟨he, e⟩ | ⟨he, e⟩ | ⟨he, e⟩
  · exact .inr (.inr (.inl ⟨hr, he, e⟩))
  · exact .inr (.inr (.inr (.inl ⟨hn, hr, he, e⟩)))
  · exact .inr (.inr (.inr (.inr ⟨hn, hr, he, e⟩)))

/-! ### What every rule leaves alone -/

theorem bitOperand_ok {val : Nat} {b : Bool} (h : bitOperand val = .ok b) : val ≤ 1 ∧ b.toNat = val := by
  unfold bitOperand at h
  split at h
  · cases h
    refine ⟨by assumption, ?_⟩
    interval_cases val <;> rfl
  · cases h

theorem lenOperand_ok {len n : Nat} (h : lenOperand len = .ok n) : n = len ∧ 1 ≤ len ∧ len ≤ 32 := by
  unfold lenOperand at h
  split at h
  · cases h
    rename_i hl
    exact ⟨rfl, hl⟩
  · cases h

/-- What `DEC.SYM`s leave, whatever the decode table holds: a bit reader moved on, symbols in the sink (R180). -/
structure Emitted (n : Nat) (s t : State) : Prop where
  frame : t = { s with srcPos := t.srcPos, brByte := t.brByte, brCnt := t.brCnt, snk := t.snk, res := t.res,
                       decRem := t.decRem }
  grows : s.snk <+: t.snk
  decRem : t.decRem.toNat + n = s.decRem.toNat
  room : s.sinkTakes 0 → t.sinkTakes 0
  within : s.brCnt.toNat ≤ 8 → t.brCnt.toNat ≤ 8
  position : s.srcPos.toNat ≤ s.srcLen.toNat → t.srcPos.toNat ≤ t.srcLen.toNat

theorem Emitted.refl (s : State) : Emitted 0 s s := ⟨rfl, List.prefix_refl _, rfl, id, id, id⟩

theorem Emitted.trans {m n : Nat} {s t u : State} (h : Emitted m s t) (h' : Emitted n t u) :
    Emitted (m + n) s u where
  frame := by
    have e := h'.frame
    rw [h.frame] at e
    exact e
  grows := h.grows.trans h'.grows
  decRem := by have := h.decRem; have := h'.decRem; omega
  room hs := h'.room (h.room hs)
  within hs := h'.within (h.within hs)
  position hs := h'.position (h.position hs)

theorem matchBits_emits {fuel acc l : Nat} {s t : State} (h : matchBits fuel acc l s = .ok t) :
    ∃ bits u y, Read bits s u ∧ emitSymbol y u = .ok t := by
  induction fuel generalizing acc l s with
  | zero => cases h
  | succ fuel ih =>
    obtain ⟨⟨b, u⟩, hu, h⟩ := bind_eq_ok.1 h
    have r := readBit_ok hu
    simp only at h
    split at h
    · exact ⟨_, u, _, r, h⟩
    · obtain ⟨bits, v, y, r', h⟩ := ih h
      exact ⟨_, v, y, r.trans r', h⟩

theorem decSym_emits {s t : State} (h : decSym s = .ok t) : Emitted 1 s t := by
  unfold decSym at h
  split at h
  · cases h
  · rename_i hrem
    obtain ⟨bits, u, y, r, h⟩ := matchBits_emits h
    obtain ⟨h1, rfl⟩ := emitSymbol_ok h
    refine ⟨?_, ?_, ?_, fun _ cap hc => by simpa using h1 cap hc, r.within, r.position⟩
    · rw [r.frame]
    · rw [← r.snk]; exact List.prefix_append _ _
    · have := decRem_pred hrem
      simp only [r.decRem]
      exact this

theorem decSyms_emits {n : Nat} {s t : State} (h : decSyms n s = .ok t) : Emitted n s t := by
  induction n generalizing s with
  | zero => cases h; exact Emitted.refl _
  | succ n ih =>
    obtain ⟨u, hu, h⟩ := bind_eq_ok.1 h
    rw [Nat.add_comm]
    exact (decSym_emits hu).trans (ih h)

theorem codeWalk_frame {s t : State} (h : codeWalk s = .ok t) : t = discardTree { s with ct := t.ct } := by
  unfold codeWalk at h
  split at h
  · cases h
  · obtain ⟨ct, -, h⟩ := bind_eq_ok.1 h
    cases h
    rfl

/-- What a command that is no control command leaves alone when it ends without a fault: the host's elements, `FCMD`,
the capacities; and `STATUS` but for `DONE`, which only a job sets, with all of the sink forced to persist. -/
structure Kept (i : Instr) (s t : State) : Prop where
  src : t.src = s.src
  srcLen : t.srcLen = s.srcLen
  fcmd : t.fcmd = s.fcmd
  cfg : t.cfg = s.cfg
  host : t.host = s.host
  faults : t.faults = s.faults
  status : (i ≠ .encodeJob ∧ i ≠ .decodeJob ∧ t.status = s.status) ∨
    (i = .encodeJob ∨ i = .decodeJob) ∧ t.status = s.status ||| 0x0001#16 ∧ t.snkSync = t.snkLen

theorem Kept.of_eq {i : Instr} {s t : State} (hi : i ≠ .encodeJob ∧ i ≠ .decodeJob) (h : t = { t with
    src := s.src, srcLen := s.srcLen, fcmd := s.fcmd, cfg := s.cfg, host := s.host, faults := s.faults
    status := s.status }) : Kept i s t := by
  constructor <;> rw [h]
  exact .inl ⟨hi.1, hi.2, rfl⟩

theorem Kept.of_job {i : Instr} {s t : State} (hi : i = .encodeJob ∨ i = .decodeJob) (hs : t.snkSync = t.snkLen)
    (h : t = { t with
      src := s.src, srcLen := s.srcLen, fcmd := s.fcmd, cfg := s.cfg, host := s.host, faults := s.faults
      status := s.status ||| 0x0001#16 }) : Kept i s t := by
  refine ⟨?_, ?_, ?_, ?_, ?_, ?_, .inr ⟨hi, ?_, hs⟩⟩ <;> rw [h]

/-- What no command changes when it ends without a fault (R10, R11, R17, R46). -/
theorem rule_kept {i : Instr} {s t : State} (hn : i ≠ .ctlNop) (hr : i ≠ .ctlReset) (h : ruleOf i s = .ok t) :
    Kept i s t := by
  cases i with
  | ctlNop => contradiction
  | ctlReset => contradiction
  | bwBit val => obtain ⟨b, -, h⟩ := bind_eq_ok.1 h; exact .of_eq (by simp) (by rw [(writeBit_ok h).frame])
  | bwBits val len => obtain ⟨b, -, h⟩ := bind_eq_ok.1 h; exact .of_eq (by simp) (by rw [(putBits_ok h).frame])
  | bwFlush => exact .of_eq (by simp) (by rw [(flush_ok h).2.2.2.2.2.2.2])
  | brBit => obtain ⟨⟨b, u⟩, hu, h⟩ := bind_eq_ok.1 h; cases h; exact .of_eq (by simp) (by rw [(readBit_ok hu).frame]; rfl)
  | brBits len =>
    obtain ⟨n, -, h⟩ := bind_eq_ok.1 h
    obtain ⟨⟨v, u⟩, hu, h⟩ := bind_eq_ok.1 h
    cases h
    obtain ⟨_, -, r, -⟩ := getBits_ok hu
    exact .of_eq (by simp) (by rw [r.frame]; rfl)
  | histClr => cases h; exact .of_eq (by simp) rfl
  | histAcc sym => exact .of_eq (by simp) (by rw [(histAcc_ok h).frame])
  | histScan =>
    obtain ⟨u, hu, e, -⟩ := countPass_counts s
    rw [ruleOf, hu] at h; cases h
    exact .of_eq (by simp) (by rw [e])
  | treeInit => exact .of_eq (by simp) (by rw [(treeInit_ok h).1])
  | treeMerge => obtain ⟨a, b, m⟩ := treeMerge_ok h; exact .of_eq (by simp) (by rw [m.frame])
  | treeBuild => exact .of_eq (by simp) (by rw [(treeBuild_ok h).frame])
  | codeWalk => exact .of_eq (by simp) (by rw [codeWalk_frame h]; rfl)
  | hdrWrite => exact .of_eq (by simp) (by rw [(hdrWrite_ok h).1.frame])
  | hdrParse => obtain ⟨_, _, p⟩ := hdrParse_ok h; exact .of_eq (by simp) (by rw [p.frame])
  | encSym sym => exact .of_eq (by simp) (by rw [(encSym_ok h).2.frame])
  | encBody => rw [ruleOf, emitPass_eq] at h; exact .of_eq (by simp) (by rw [(emitBytes_ok h).2.frame])
  | encodeJob =>
    obtain ⟨-, -, w⟩ := encodeJob_ok h
    exact .of_job (.inl rfl) (by rw [w.frame]; rfl) (by rw [w.frame]; rfl)
  | decSym => exact .of_eq (by simp) (by rw [(decSym_emits h).frame])
  | decBody => exact .of_eq (by simp) (by rw [(decSyms_emits h).frame])
  | decodeJob =>
    obtain ⟨_, _, w⟩ := decodeJob_ok h
    exact .of_job (.inr rfl) (by rw [w.frame]; rfl) (by rw [w.frame]; rfl)

/-! ### The faults of every rule (R204) -/

theorem walk_traps {nodes : List Node} {fuel : Nat} {i : NodeIdx} {v l : Nat} {ct : CodeTable} {k : Trap}
    (h : walk nodes fuel i v l ct = raise k) : k = .codeTooLong := by
  induction fuel generalizing i v l ct with
  | zero => cases h
  | succ fuel ih =>
    unfold walk at h
    split at h
    · split at h <;> cases h
      rfl
    · rcases bind_eq_error.1 h with h | ⟨_, -, h⟩
      · exact ih h
      · exact ih h

theorem codeWalk_traps {s : State} {k : Trap} (h : codeWalk s = raise k) : k = .noTree ∨ k = .codeTooLong := by
  unfold codeWalk at h
  split at h
  · cases h; exact .inl rfl
  · rcases bind_eq_error.1 h with h | ⟨_, -, h⟩
    · unfold codesOf at h
      split at h
      · cases h
      · exact .inr (walk_traps h)
    · cases h

theorem decSyms_traps {n : Nat} {s : State} {x : Stop} (hn : n ≤ s.decRem.toNat) (h : decSyms n s = .error x) :
    x = .trap (.truncated .body) ∨ x = .trap .sinkFull ∨ x = .trap .noMatch := by
  induction n generalizing s with
  | zero => cases h
  | succ n ih =>
    rcases bind_eq_error.1 h with h | ⟨u, hu, h⟩
    · rcases decSym_error h with ⟨-, h0⟩ | ⟨h, -⟩
      · rw [h0] at hn; simp at hn
      · exact h
    · have := (decSym_emits hu).decRem
      exact ih (by omega) h

/-- The faults each rule can raise are those R204 gives its command. -/
theorem rule_traps {i : Instr} {s : State} {k : Trap} (h : ruleOf i s = raise k) : k ∈ mayRaise i := by
  cases i with
  | ctlNop => cases h
  | ctlReset => cases h
  | bwBit val =>
    rcases bind_eq_error.1 h with h | ⟨_, -, h⟩
    · unfold bitOperand at h; split at h <;> cases h; simp [mayRaise]
    · cases writeBit_error h; simp [mayRaise]
  | bwBits val len =>
    rcases bind_eq_error.1 h with h | ⟨_, -, h⟩
    · unfold lenOperand at h; split at h <;> cases h; simp [mayRaise]
    · cases putBits_error h; simp [mayRaise]
  | bwFlush => cases flush_error h; simp [mayRaise]
  | brBit =>
    rcases bind_eq_error.1 h with h | ⟨_, -, h⟩
    · cases (readBit_error h).1; simp [mayRaise]
    · cases h
  | brBits len =>
    rcases bind_eq_error.1 h with h | ⟨_, -, h⟩
    · unfold lenOperand at h; split at h <;> cases h; simp [mayRaise]
    · rcases bind_eq_error.1 h with h | ⟨_, -, h⟩
      · cases (getBits_error h).1; simp [mayRaise]
      · cases h
  | histClr => cases h
  | histAcc sym => cases histAcc_error h; simp [mayRaise]
  | histScan => obtain ⟨u, hu, -⟩ := countPass_counts s; rw [ruleOf, hu] at h; cases h
  | treeInit => cases (treeInit_error h).1; simp [mayRaise]
  | treeMerge => rcases treeMerge_error h with ⟨h, -⟩ | ⟨h, -⟩ <;> cases h <;> simp [mayRaise]
  | treeBuild => rcases treeBuild_error h with ⟨h, -⟩ | h <;> cases h <;> simp [mayRaise]
  | codeWalk => rcases codeWalk_traps h with rfl | rfl <;> simp [mayRaise]
  | hdrWrite => rcases hdrWrite_error h with ⟨h, -⟩ | ⟨h, -⟩ | ⟨h, -⟩ <;> cases h <;> simp [mayRaise]
  | hdrParse => obtain ⟨k, hk, e⟩ := hdrParse_error h; cases e; exact hk
  | encSym sym => rcases encSym_error h with ⟨h, -⟩ | ⟨h, -⟩ <;> cases h <;> simp [mayRaise]
  | encBody =>
    rw [ruleOf, emitPass_eq] at h
    rcases emitBytes_error h with ⟨h, -⟩ | h <;> cases h <;> simp [mayRaise]
  | encodeJob => rcases encodeJob_error h with ⟨h, -⟩ | ⟨h, -⟩ | h <;> cases h <;> simp [mayRaise]
  | decSym =>
    rcases decSym_error h with ⟨h, -⟩ | ⟨h | h | h, -⟩ <;> cases h <;> simp [mayRaise]
  | decBody => rcases decSyms_traps (Nat.le_refl _) h with h | h | h <;> cases h <;> simp [mayRaise]
  | decodeJob => obtain ⟨k, hk, e⟩ := decodeJob_error h; cases e; exact hk

/-- Only the walk of a code table can be stuck. -/
theorem rule_stuck {i : Instr} {s : State} {f : Fault} (h : ruleOf i s = .error (.stuck f)) : i = .codeWalk := by
  cases i with
  | codeWalk => rfl
  | ctlNop => cases h
  | ctlReset => cases h
  | bwBit val =>
    rcases bind_eq_error.1 h with h | ⟨_, -, h⟩
    · unfold bitOperand at h; split at h <;> cases h
    · cases writeBit_error h
  | bwBits val len =>
    rcases bind_eq_error.1 h with h | ⟨_, -, h⟩
    · unfold lenOperand at h; split at h <;> cases h
    · cases putBits_error h
  | bwFlush => cases flush_error h
  | brBit =>
    rcases bind_eq_error.1 h with h | ⟨_, -, h⟩
    · cases (readBit_error h).1
    · cases h
  | brBits len =>
    rcases bind_eq_error.1 h with h | ⟨_, -, h⟩
    · unfold lenOperand at h; split at h <;> cases h
    · rcases bind_eq_error.1 h with h | ⟨_, -, h⟩
      · cases (getBits_error h).1
      · cases h
  | histClr => cases h
  | histAcc sym => cases histAcc_error h
  | histScan => obtain ⟨u, hu, -⟩ := countPass_counts s; rw [ruleOf, hu] at h; cases h
  | treeInit => cases (treeInit_error h).1
  | treeMerge => rcases treeMerge_error h with ⟨h, -⟩ | ⟨h, -⟩ <;> cases h
  | treeBuild => rcases treeBuild_error h with ⟨h, -⟩ | h <;> cases h
  | hdrWrite => rcases hdrWrite_error h with ⟨h, -⟩ | ⟨h, -⟩ | ⟨h, -⟩ <;> cases h
  | hdrParse => obtain ⟨k, hk, e⟩ := hdrParse_error h; cases e
  | encSym sym => rcases encSym_error h with ⟨h, -⟩ | ⟨h, -⟩ <;> cases h
  | encBody =>
    rw [ruleOf, emitPass_eq] at h
    rcases emitBytes_error h with ⟨h, -⟩ | h <;> cases h
  | encodeJob => rcases encodeJob_error h with ⟨h, -⟩ | ⟨h, -⟩ | h <;> cases h
  | decSym => rcases decSym_error h with ⟨h, -⟩ | ⟨h | h | h, -⟩ <;> cases h
  | decBody => rcases decSyms_traps (Nat.le_refl _) h with h | h | h <;> cases h
  | decodeJob => obtain ⟨k, hk, e⟩ := decodeJob_error h; cases e

/-! ### `STATUS` while unfaulted (R17) -/

theorem status_bits {x : BitVec 16} (h : x &&& ~~~statusFieldMask = 0) (he : x.getLsbD 1 = false)
    (hc : x.extractLsb' 4 3 = 0) (hs : x.extractLsb' 8 4 = 0) : x &&& 0xFFFE#16 = 0 := by
  have m : ∀ k, (x &&& ~~~statusFieldMask).getLsbD k = false := by intro k; rw [h]; simp
  have c : ∀ k, (x.extractLsb' 4 3).getLsbD k = false := by intro k; rw [hc]; simp
  have d : ∀ k, (x.extractLsb' 8 4).getLsbD k = false := by intro k; rw [hs]; simp
  have n2 := m 2; have n3 := m 3; have n7 := m 7; have n12 := m 12
  have n13 := m 13; have n14 := m 14; have n15 := m 15
  have c0 := c 0; have c1 := c 1; have c2 := c 2
  have d0 := d 0; have d1 := d 1; have d2 := d 2; have d3 := d 3
  simp [statusFieldMask] at n2 n3 n7 n12 n13 n14 n15 c0 c1 c2 d0 d1 d2 d3
  apply BitVec.eq_of_getLsbD_eq
  intro i hi
  by_cases h1 : i = 1
  · subst h1; rw [BitVec.getLsbD_and, he]; simp
  · interval_cases i <;> simp_all

/-- Unfaulted, nothing but `DONE` is set in `STATUS`, and `FCMD` is 0 (R17, R18). -/
theorem StatusOk.unfaulted {s : State} (ho : StatusOk s) (h : s.err = false) :
    s.status &&& 0xFFFE#16 = 0 ∧ s.fcmd = 0 :=
  ⟨status_bits ho.1 h (ho.2.2.2 h).1 (ho.2.2.2 h).2.1, (ho.2.2.2 h).2.2⟩

/-- A fault's `STATUS` has `DONE = 0`, so that clearing it changes nothing (R203). -/
theorem Trap.status_clear (k : Trap) : k.status &&& 0xFFFE#16 = k.status := by
  cases k with
  | truncated tag => cases tag <;> decide
  | _ => decide

theorem State.clearDone_clearDone (s : State) : s.clearDone.clearDone = s.clearDone := by
  simp [State.clearDone, BitVec.and_assoc]

end Sys2Proof.Machine
end

