-- ==== Sys2Proof/Tests/Slice0.lean ====
section
/-! SUPPORT. The model's own tests: what WellFormed refuses, the words of the opcode map written out, one step per
command with values taken from the spec's examples and from 95_test_vectors.md, and for every statement with
hypotheses a state and operands that meet them. -/

open Sys2Proof Sys2Proof.Machine

namespace Slice0

-- one theorem after another: each kernel evaluation in a thread of its own would need too many threads
set_option Elab.async false

/-! ### Helpers -/

/-- The step ends in a next state of which the test holds. -/
def ends (o : Outcome) (p : State → Bool) : Bool :=
  match o with
  | .next t => p t
  | .fault _ => false
  | .refused _ => false

theorem of_ends {o : Outcome} {p : State → Bool} (h : ends o p = true) : ∃ t, o = .next t ∧ p t = true := by
  cases o with
  | next t => exact ⟨t, rfl, h⟩
  | fault f => cases h
  | refused r => cases h

/-- A fault seen from outside: `STATUS`, `FCMD` and an empty sink. -/
def faulted (status : BitVec 16) (word : Word) (t : State) : Bool :=
  t.status == status && t.fcmd == word && t.snk == [] && t.snkSync == 0

/-- `SRC` holds exactly these bytes. -/
def withBytes (bytes : List Byte) (s : State) : State :=
  { s with src := (List.range bytes.length).zip bytes, srcLen := BitVec.ofNat 64 bytes.length }

/-- `SNK_CAP = n`. -/
def capped (n : Nat) (s : State) : State := { s with cfg := { s.cfg with snkCap := some (BitVec.ofNat 64 n) } }

/-- The histogram with these counters, all others 0. -/
def counters (l : List (Byte × Count)) : Histogram := l.foldl (fun h c => tableSet h c.1 c.2) (Vector.replicate 256 0)

/-- Reset, `SRC` = "AAAB". -/
def aaab : State := withBytes [0x41, 0x41, 0x41, 0x42] State.reset

/-- The histogram of "AAAB" (vector HI1). -/
def counted : State :=
  { aaab with hist := counters [(0x41, 3), (0x42, 1)], histTotal := 4 }

/-- The leaves of "AAAB" (vector TR1 after `TREE.INIT`). -/
def leafy : State := { counted with node := [.leaf 3 0x41, .leaf 1 0x42], pq := [0, 1] }

/-- The tree of "AAAB" (vector TR1). -/
def treed : State :=
  { counted with node := [.leaf 3 0x41, .leaf 1 0x42, .internal 4 1 0], pq := [2], root := 2, rootValid := true }

/-- The code table of "AAAB" (vector CW1). -/
def coded : State :=
  { counted with ct := tableSet (tableSet State.reset.ct 0x41 (some { code := 1, len := 1 })) 0x42
                         (some { code := 0, len := 1 }) }

/-- The header of "AAAB" written (vector HW1). -/
def headed : State :=
  { coded with bwAcc := 4, bwCnt := 6, snk := [0x48, 0x55, 0x46, 0x46, 0x4D, 0x41, 0x4E, 0x01, 0x41, 0x06, 0x84, 0x08,
                                              0x00, 0x00, 0x00] }

/-- The encoded file of "AAAB" (vector E1). -/
def fileBytes : List Byte :=
  [0x48, 0x55, 0x46, 0x46, 0x4D, 0x41, 0x4E, 0x01, 0x41, 0x06, 0x84, 0x08, 0x00, 0x00, 0x00, 0x13, 0x80]

/-- Reset with that file as the source. -/
def filed : State := withBytes fileBytes State.reset

/-- The decode table of that file. -/
def twoEntries : List DecEntry := [{ sym := 0x41, len := 1, code := 1 }, { sym := 0x42, len := 1, code := 0 }]

/-- Its header parsed (vector HP1). -/
def parsed : State := { filed with srcPos := 16, brByte := 0x13, brCnt := 2, dt := twoEntries, decRem := 4 }

/-! ### What WellFormed refuses -/

theorem test_illFormed_val : (Instr.bwBit 0x100000000).wellFormed = false ∧
    (Instr.bwBits 0x100000000 1).wellFormed = false := by decide
theorem test_illFormed_len : (Instr.brBits 64).wellFormed = false ∧ (Instr.bwBits 0 64).wellFormed = false := by decide
theorem test_illFormed_sym : (Instr.histAcc 256).wellFormed = false ∧ (Instr.encSym 256).wellFormed = false := by decide
theorem test_wellFormed : (Instr.bwBits 0xFFFFFFFF 63).wellFormed = true ∧ (Instr.encSym 255).wellFormed = true := by
  decide

/-! ### The words of the opcode map (30_encoding.md R61, R64) -/

theorem test_decode_control : decode 0x0000000000000000#64 = .ok .ctlNop ∧
    decode 0x0100000000000000#64 = .ok .ctlReset := by decide
theorem test_decode_writer : decode 0x1000000000000001#64 = .ok (.bwBit 1) ∧
    decode 0x11000020DEADBEEF#64 = .ok (.bwBits 0xDEADBEEF 32) ∧
    decode 0x1200000000000000#64 = .ok .bwFlush := by decide
theorem test_decode_reader : decode 0x2000000000000000#64 = .ok .brBit ∧
    decode 0x2100000800000000#64 = .ok (.brBits 8) := by decide
theorem test_decode_histogram : decode 0x3000000000000000#64 = .ok .histClr ∧
    decode 0x3100000000000041#64 = .ok (.histAcc 0x41) ∧ decode 0x3200000000000000#64 = .ok .histScan := by decide
theorem test_decode_tree : decode 0x4000000000000000#64 = .ok .treeInit ∧
    decode 0x4100000000000000#64 = .ok .treeMerge ∧ decode 0x4200000000000000#64 = .ok .treeBuild := by decide
theorem test_decode_codeTable : decode 0x5000000000000000#64 = .ok .codeWalk := by decide
theorem test_decode_header : decode 0x6000000000000000#64 = .ok .hdrWrite ∧
    decode 0x6100000000000000#64 = .ok .hdrParse := by decide
theorem test_decode_encoder : decode 0x7000000000000041#64 = .ok (.encSym 0x41) ∧
    decode 0x7100000000000000#64 = .ok .encBody ∧ decode 0x7200000000000000#64 = .ok .encodeJob := by decide
theorem test_decode_decoder : decode 0x8000000000000000#64 = .ok .decSym ∧
    decode 0x8100000000000000#64 = .ok .decBody ∧ decode 0x8200000000000000#64 = .ok .decodeJob := by decide

/-- The illegal words IL1 to IL11 of 95_test_vectors.md, each with its reason. -/
theorem test_decode_illegal : decode 0x0200000000000000#64 = .error .unassignedOp ∧
    decode 0xFF00000000000000#64 = .error .unassignedOp ∧ decode 0x0000000000000001#64 = .error .valNonzero ∧
    decode 0x1200000000000001#64 = .error .valNonzero ∧ decode 0x2000000100000000#64 = .error .lenNonzero ∧
    decode 0x1000004000000000#64 = .error .reservedNonzero ∧ decode 0x0000004000000000#64 = .error .reservedNonzero ∧
    decode 0x7200000000000001#64 = .error .valNonzero ∧ decode 0x2100000800000001#64 = .error .valNonzero ∧
    decode 0x0100000000000001#64 = .error .valNonzero ∧ decode 0x3100000000000141#64 = .error .valHighNonzero := by
  decide

theorem test_decodeTableWord : decodeTableWord 64 0x7000000000000041 = some (.encSym 0x41) := by decide

/-- Assembled by R67: `op << 56 | len << 32 | val`. -/
theorem test_encode : encode (.bwBits 0x5 3) = 0x1100000300000005#64 ∧ encode (.histAcc 0x41) = 0x3100000000000041#64 := by
  decide

/-! ### One step per command -/

/-- BW1. -/
theorem test_bwBit_first : ends (exec (.bwBit 1) State.reset)
    (fun t => t.bwAcc == 0x01 && t.bwCnt == 1 && t.snk == [] && t.status == 0) = true := by decide +kernel
/-- BW3, the eighth bit. -/
theorem test_bwBit_eighth : ends (exec (.bwBit 0) { State.reset with bwAcc := 0x59, bwCnt := 7 })
    (fun t => t.bwAcc == 0 && t.bwCnt == 0 && t.snk == [0xB2] && t.snkSync == 0) = true := by decide +kernel
/-- BW13. -/
theorem test_bwBit_two : ends (exec (.bwBit 2) State.reset) (faulted 0x0162 0x1000000000000002) = true := by
  decide +kernel
/-- BW7, from a partial byte. -/
theorem test_bwBits_sixteen : ends (exec (.bwBits 0xABCD 16) { State.reset with bwAcc := 1, bwCnt := 1 })
    (fun t => t.snk == [0xD5, 0xE6] && t.bwAcc == 1 && t.bwCnt == 1) = true := by decide +kernel
/-- BW18. -/
theorem test_bwBits_full : ends (exec (.bwBits 0xFFFF 16) (capped 1 State.reset))
    (faulted 0x0112 0x110000100000FFFF) = true := by decide +kernel
/-- BW4. -/
theorem test_bwFlush_partial : ends (exec .bwFlush { State.reset with bwAcc := 5, bwCnt := 3 })
    (fun t => t.snk == [0xA0] && t.snkSync == 1 && t.bwAcc == 0 && t.bwCnt == 0) = true := by decide +kernel
/-- BW10. -/
theorem test_bwFlush_aligned : ends (exec .bwFlush { State.reset with snk := [0xFF] })
    (fun t => t.snk == [0xFF] && t.snkSync == 1) = true := by decide +kernel
/-- BR1. -/
theorem test_brBit : ends (exec .brBit (withBytes [0xA5, 0x3C] State.reset))
    (fun t => t.res == 1 && t.srcPos == 1 && t.brByte == 0xA5 && t.brCnt == 7) = true := by decide +kernel
/-- BR10. -/
theorem test_brBit_empty : ends (exec .brBit State.reset) (faulted 0x0032 0x2000000000000000) = true := by
  decide +kernel
/-- BR4. -/
theorem test_brBits : ends (exec (.brBits 8)
      { withBytes [0xA5, 0x3C] State.reset with srcPos := 1, brByte := 0xA5, brCnt := 5 })
    (fun t => t.res == 0x29 && t.srcPos == 2 && t.brByte == 0x3C && t.brCnt == 5) = true := by decide +kernel
/-- BR13. -/
theorem test_brBits_long : ends (exec (.brBits 33) aaab) (faulted 0x0262 0x2100002100000000) = true := by
  decide +kernel
/-- HI2. -/
theorem test_histClr : ends (exec .histClr counted)
    (fun t => tableGet t.hist 0x41 == 0 && tableGet t.hist 0x42 == 0 && t.histTotal == 0) = true := by decide +kernel
/-- HI1, its last command. -/
theorem test_histAcc : ends (exec (.histAcc 0x42) { State.reset with hist := counters [(0x41, 3)], histTotal := 3 })
    (fun t => tableGet t.hist 0x41 == 3 && tableGet t.hist 0x42 == 1 && t.histTotal == 4) = true := by decide +kernel
/-- HI8. -/
theorem test_histAcc_overflow : ends (exec (.histAcc 0x43) { State.reset with histTotal := 0xFFFFFFFFFFFFFFFF })
    (faulted 0x0542 0x3100000000000043) = true := by decide +kernel
/-- HI3. -/
theorem test_histScan : ends (exec .histScan aaab)
    (fun t => tableGet t.hist 0x41 == 3 && tableGet t.hist 0x42 == 1 && t.histTotal == 4 && t.srcPos == 0) = true := by
  decide +kernel
/-- TR1, its leaves. -/
theorem test_treeInit : ends (exec .treeInit counted)
    (fun t => t.node == [.leaf 3 0x41, .leaf 1 0x42] && t.pq == [0, 1] && t.rootValid == false) = true := by
  decide +kernel
/-- TR2, its second merge: the two lowest indices of the three nodes of count 2. -/
theorem test_treeMerge_tie : ends (exec .treeMerge { State.reset with
      node := [.leaf 5 0x61, .leaf 2 0x62, .leaf 1 0x63, .leaf 1 0x64, .leaf 2 0x72, .internal 2 2 3]
      pq := [0, 1, 4, 5] })
    (fun t => t.node.drop 6 == [.internal 4 1 4] && t.pq == [0, 5, 6] && t.rootValid == false) = true := by
  decide +kernel
/-- TR14. -/
theorem test_treeMerge_one : ends (exec .treeMerge { State.reset with
      node := [.leaf 5 0x41], pq := [0], rootValid := true }) (faulted 0x0462 0x4100000000000000) = true := by
  decide +kernel
/-- TR7. -/
theorem test_treeBuild : ends (exec .treeBuild { State.reset with
      hist := counters [(0x69, 4), (0x6D, 1), (0x70, 2), (0x73, 4)], histTotal := 11 })
    (fun t => t.node.drop 4 == [.internal 3 1 2, .internal 7 4 0, .internal 11 3 5] && t.pq == [6] && t.root == 6 &&
      t.rootValid) = true := by decide +kernel
/-- CW1. -/
theorem test_codeWalk : ends (exec .codeWalk treed)
    (fun t => t.ctCode 0x41 == 1 && t.ctLen 0x41 == 1 && t.ctValid 0x42 && t.ctCode 0x42 == 0 && t.ctLen 0x42 == 1 &&
      t.node == [] && t.pq == [] && t.rootValid == false) = true := by decide +kernel
/-- CW6. -/
theorem test_codeWalk_single : ends (exec .codeWalk { State.reset with
      node := [.leaf 5 0x41], pq := [0], rootValid := true })
    (fun t => t.ctValid 0x41 && t.ctCode 0x41 == 0 && t.ctLen 0x41 == 1) = true := by decide +kernel
/-- HW1. -/
theorem test_hdrWrite : ends (exec .hdrWrite coded)
    (fun t => t.snk == fileBytes.take 15 && t.bwAcc == 4 && t.bwCnt == 6 && t.snkSync == 0) = true := by decide +kernel
/-- HP1. -/
theorem test_hdrParse : ends (exec .hdrParse filed)
    (fun t => t.dt == twoEntries && t.decRem == 4 && t.srcPos == 16 && t.brByte == 0x13 && t.brCnt == 2 &&
      t.res == 0) = true := by decide +kernel
/-- HP8, the magic's first byte flipped. -/
theorem test_hdrParse_magic : ends (exec .hdrParse (withBytes [0x58, 0x55, 0x46, 0x46, 0x4D, 0x41, 0x4E] State.reset))
    (faulted 0x0022 0x6100000000000000) = true := by decide +kernel
/-- E16. -/
theorem test_encSym : ends (exec (.encSym 0x41) headed)
    (fun t => t.bwAcc == 9 && t.bwCnt == 7 && t.snk == headed.snk) = true := by decide +kernel
/-- E18. -/
theorem test_encSym_absent : ends (exec (.encSym 0x43) coded) (faulted 0x0362 0x7000000000000043) = true := by
  decide +kernel
/-- E17. -/
theorem test_encBody : ends (exec .encBody headed)
    (fun t => t.snk == fileBytes.take 16 && t.bwAcc == 2 && t.bwCnt == 2 && t.srcPos == 0 && t.snkSync == 0) = true := by
  decide +kernel
/-- E1. -/
theorem test_encodeJob : ends (exec .encodeJob aaab)
    (fun t => t.done && (t.snk == fileBytes && t.snkSync == 17 && t.status == 1 && t.histTotal == 4 && t.node == [])) = true := by
  decide +kernel
/-- P2, step 3. -/
theorem test_decSym : ends (exec .decSym parsed)
    (fun t => t.snk == [0x41] && t.res == 0x41 && t.decRem == 3 && t.brCnt == 1) = true := by decide +kernel
/-- DE23. -/
theorem test_decSym_none : ends (exec .decSym { parsed with decRem := 0 })
    (faulted 0x0662 0x8000000000000000) = true := by decide +kernel
/-- DE26. -/
theorem test_decBody : ends (exec .decBody parsed)
    (fun t => t.snk == [0x41, 0x41, 0x41, 0x42] && t.decRem == 0 && t.res == 0x42 && t.srcPos == 17 &&
      t.brByte == 0x80 && t.brCnt == 6 && t.snkSync == 0) = true := by decide +kernel
/-- DE1. -/
theorem test_decodeJob : ends (exec .decodeJob filed)
    (fun t => t.snk == [0x41, 0x41, 0x41, 0x42] && t.snkSync == 4 && t.status == 1 && t.res == 0x42 &&
      t.brCnt == 6) = true := by decide +kernel
/-- DE17: 64 bits read, none matched. -/
theorem test_decodeJob_noMatch : ends (exec .decodeJob (withBytes [0x48, 0x55, 0x46, 0x46, 0x4D, 0x41, 0x4E, 0x00, 0x41,
      0x04, 0x00, 0x00, 0x00, 0x03, 0xFF, 0xFF, 0xFF, 0xFF, 0xFF, 0xFF, 0xFF, 0xFE] State.reset))
    (faulted 0x0152 0x8200000000000000) = true := by decide +kernel
/-- E15: `CTL.NOP` leaves `DONE`. -/
theorem test_ctlNop : ends (exec .ctlNop { State.reset with status := 1 }) (fun t => t.status == 1) = true := by
  decide +kernel
/-- CT3: `CTL.RESET` from the faulted state keeps the source. -/
theorem test_ctlReset : ends (exec .ctlReset { aaab with status := 0x0022, fcmd := 0x8200000000000000 })
    (fun t => t.status == 0 && t.fcmd == 0 && t.snk == [] && t.srcLen == 4 && t.srcRead 3 == 0x42) = true := by
  decide +kernel
/-- CT2: a word is ignored while faulted, the illegal ones too. -/
theorem test_ignored : ends (issueWord 0xFF00000000000000 { State.reset with status := 0x0022 })
    (fun t => t.status == 0x0022 && t.fcmd == 0) = true := by decide +kernel
/-- HI9, through the step. -/
theorem test_step_illegal : ends (step (State.reset.withFetchWord 64 0x3100000000000141))
    (faulted 0x0072 0x3100000000000141) = true := by decide +kernel
/-- The host writes one byte of `SRC` (R48). -/
theorem test_step_hostWrite : ends (step { State.reset with host := [.writeSrc 3 0x42] })
    (fun t => t.srcRead 3 == 0x42 && t.host == []) = true := by decide +kernel

/-! ### Hypotheses that are met: encoding, step, host -/

theorem witness_EncodeThenDecode : (Instr.bwBits 0xFFFFFFFF 63).wellFormed = true := by decide
theorem witness_DecodeThenEncode : decode 0x1100003FFFFFFFFF#64 = .ok (.bwBits 0xFFFFFFFF 63) := by decide
theorem witness_OpcodeMap : decode 0x70000000000000FF#64 = .ok (.encSym 0xFF) ∧
    ∃ r ∈ opcodeRows, 0x70000000000000FF#64 &&& r.fmt.mask = BitVec.ofNat 64 (r.op <<< 56) := by decide
theorem witness_IllegalWords : (∀ r ∈ opcodeRows, 0x7000000000000100#64 &&& r.fmt.mask ≠ BitVec.ofNat 64 (r.op <<< 56)) ∧
    State.reset.err = false ∧ ({ State.reset with status := 0x0022 } : State).err = true := by decide
theorem witness_StepRunsPresentedCommand : decode 0x0000000000000000#64 = .ok .ctlNop ∧
    ({ State.reset with host := [.issue 0, .issue 1] } : State).host = .issue 0 :: [.issue 1] ∧
    (Instr.encSym 0xFF).wellFormed = true := by decide

/-- Reset in an engine whose source holds at most 8 bytes. -/
def smallSource : State := { State.reset with cfg := { srcCap := 8, snkCap := none } }

theorem witness_HostWritesSource :
    (7#64).toNat < smallSource.cfg.srcCap.toNat ∧ smallSource.cfg.srcCap.toNat ≤ (8#64).toNat ∧
    (8#64).toNat ≤ smallSource.cfg.srcCap.toNat ∧ smallSource.cfg.srcCap.toNat < (9#64).toNat ∧
    ({ smallSource with host := [.writeSrc 7 0] } : State).host = .writeSrc 7 0 :: [] ∧
    ({ smallSource with host := [.setSrcLen 8] } : State).host = .setSrcLen 8 :: [] := by decide
theorem witness_IdleHolds : State.reset.host = [] := by decide

/-! ### Faults, reset, `STATUS` -/

theorem witness_FaultEntry : State.reset.err = false ∧
    ∃ t, issueWord 0x1000000000000002 State.reset = .next t ∧ t.err = true :=
  ⟨by decide, of_ends (p := State.err) (by decide +kernel)⟩
theorem witness_FaultsOfEachCommand : State.reset.err = false ∧
    ∃ t, exec .treeMerge State.reset = .next t ∧ t.err = true :=
  ⟨by decide, of_ends (p := State.err) (by decide +kernel)⟩
theorem witness_FaultedIgnores : ({ State.reset with status := 0x0022 } : State).err = true ∧
    (0xFF00000000000000 : Word) ≠ 0x0100000000000000#64 := by decide
theorem encode_done : ∃ t, exec .encodeJob aaab = .next t ∧ t.done = true := by
  obtain ⟨t, ht, hp⟩ := of_ends test_encodeJob
  simp only [Bool.and_eq_true] at hp
  exact ⟨t, ht, hp.1⟩
theorem witness_NopHolds : Instr.encodeJob ≠ .ctlNop ∧ aaab.err = false ∧
    ∃ t, exec .encodeJob aaab = .next t ∧ t.done = true := ⟨by decide, by decide, encode_done⟩
theorem witness_OnlyResetLeavesFault :
    ({ State.reset with status := 0x0022, host := [.issue 0x0100000000000000] } : State).err = true ∧
    ∃ t, step { State.reset with status := 0x0022, host := [.issue 0x0100000000000000] } = .next t ∧
      (!t.err) = true :=
  ⟨by decide, of_ends (p := fun t => !t.err) (by decide +kernel)⟩
theorem step_encode : step { aaab with host := [.issue 0x7200000000000000] } = exec .encodeJob aaab := by
  have d : decode 0x7200000000000000#64 = .ok .encodeJob := by decide
  show issueWord 0x7200000000000000#64 aaab = _
  rw [issueWord, d]
theorem witness_DoneOnlyAfterJob :
    (∃ t, step { aaab with host := [.issue 0x7200000000000000] } = .next t ∧ t.done = true) ∧
    (∃ t, step { filed with host := [.issue 0x8200000000000000] } = .next t ∧ t.done = true) ∧
    ∃ t, step { State.reset with status := 1, host := [.issue 0] } = .next t ∧ t.done = true :=
  ⟨step_encode ▸ encode_done, of_ends (p := State.done) (by decide +kernel),
    of_ends (p := State.done) (by decide +kernel)⟩

/-! ### Invariants, on a state that runs a command -/

/-- Reset with `BW.BIT 1` presented. -/
def busy : State := { State.reset with host := [.issue 0x1000000000000001] }

theorem busy_steps : ∃ t, step busy = .next t ∧ (!t.err) = true := of_ends (p := fun t => !t.err) (by decide +kernel)

theorem witness_StatusKept : StatusOk busy ∧ ∃ t, step busy = .next t :=
  ⟨⟨by decide, by decide, by decide, by decide⟩, busy_steps.imp fun _ h => h.1⟩
theorem witness_OutputGuarantee : OutputOk busy ∧ ∃ t, step busy = .next t :=
  ⟨.inr (.inr (by decide)), busy_steps.imp fun _ h => h.1⟩
theorem witness_WriterKept : WriterOk busy ∧ ∃ t, step busy = .next t :=
  ⟨fun _ => by decide, busy_steps.imp fun _ h => h.1⟩
theorem witness_ReaderKept : ReaderOk busy ∧ PositionOk busy ∧
    (∀ n rest, busy.host = .setSrcLen n :: rest → busy.srcPos.toNat ≤ n.toNat) ∧ ∃ t, step busy = .next t :=
  ⟨fun _ => by decide, fun _ => by decide, fun _ _ h => by simp [busy] at h, busy_steps.imp fun _ h => h.1⟩
theorem witness_SinkKept : SinkOk busy ∧ ∃ t, step busy = .next t :=
  ⟨⟨by decide, fun _ h => by simp [busy, Config.standard] at h⟩, busy_steps.imp fun _ h => h.1⟩
theorem witness_HistogramKept : HistOk busy ∧ ∃ t, step busy = .next t := by
  refine ⟨fun _ => ?_, busy_steps.imp fun _ h => h.1⟩
  have e : ∀ y, (tableGet busy.hist y).toNat = 0 := fun y => congrArg BitVec.toNat (tableGet_replicate 0 y)
  simp only [e, List.map_const', List.sum_replicate, smul_eq_mul, Nat.mul_zero]
  rfl
theorem witness_TreeKept : TreeOk busy ∧ ∃ t, step busy = .next t :=
  ⟨fun _ => ⟨[], [], TreeShape.none⟩, busy_steps.imp fun _ h => h.1⟩
theorem witness_CodeTableKept : TreeOk busy ∧ CodeTableOk busy ∧ ∃ t, step busy = .next t := by
  refine ⟨fun _ => ⟨[], [], TreeShape.none⟩, fun _ => ?_, busy_steps.imp fun _ h => h.1⟩
  have e : tableEntries busy.ct = [] := List.eq_nil_iff_forall_not_mem.2 fun e he => by
    rw [mem_tableEntries] at he; simp [busy] at he
  simp [e, PrefixCode]
theorem witness_DecodeTableKept : DecodeTableOk busy ∧ ∃ t, step busy = .next t :=
  ⟨fun _ => by simp [busy, PrefixCode], busy_steps.imp fun _ h => h.1⟩
theorem witness_SourceCanonical : Memory.wf aaab.src ∧
    ∃ t, step { aaab with host := [.writeSrc 2 0x43] } = .next t ∧ (!t.err) = true :=
  ⟨by decide, of_ends (p := fun t => !t.err) (by decide +kernel)⟩
theorem witness_SourceUntouched : ∃ t, exec .brBit aaab = .next t ∧ (!t.err) = true :=
  of_ends (p := fun t => !t.err) (by decide +kernel)
theorem witness_SinkOnlyGrows : headed.err = false ∧ (∃ t, exec .encBody headed = .next t ∧ (!t.err) = true) ∧
    ∃ t, exec .brBit headed = .next t ∧ (!t.err) = true :=
  ⟨by decide, of_ends (p := fun t => !t.err) (by decide +kernel), of_ends (p := fun t => !t.err) (by decide +kernel)⟩

/-! ### The bit stream -/

/-- One byte of room, the writer at the eighth bit. -/
def lastBit : State := { capped 1 State.reset with bwAcc := 0x7F, bwCnt := 7 }

/-- No room left, the writer at the eighth bit. -/
def fullSink : State := { lastBit with snk := [0xFF] }

theorem lastBit_takes : lastBit.sinkTakes 1 := fun cap h => by cases h; decide
theorem fullSink_takes : fullSink.sinkTakes 0 := fun cap h => by cases h; decide
theorem fullSink_full : ¬ fullSink.sinkTakes 1 := fun h => absurd (h 1 rfl) (by decide)

theorem witness_BwBitWrites : lastBit.err = false ∧ lastBit.bwCnt = 7 ∧ lastBit.sinkTakes 1 ∧
    State.reset.bwCnt ≠ 7 ∧ fullSink.err = false ∧ fullSink.bwCnt = 7 ∧ ¬ fullSink.sinkTakes 1 :=
  ⟨by decide, by decide, lastBit_takes, by decide, by decide, by decide, fullSink_full⟩
theorem witness_BwBitsWrites : lastBit.takesBits 1 ∧ lastBit.takesBits 8 ∧ State.reset.takesBits 32 ∧
    fullSink.sinkTakes 0 ∧ ¬ fullSink.takesBits 1 ∧ ¬ fullSink.takesBits 32 :=
  ⟨fun cap h => by cases h; decide, fun cap h => by cases h; decide, fun _ h => by simp [Config.standard] at h,
    fullSink_takes, fun h => absurd (h 1 rfl) (by decide), fun h => absurd (h 1 rfl) (by decide)⟩
theorem witness_BwFlushPads : State.reset.err = false ∧ State.reset.bwCnt = 0 ∧ lastBit.bwCnt ≠ 0 ∧
    lastBit.sinkTakes 1 ∧ fullSink.bwCnt ≠ 0 ∧ ¬ fullSink.sinkTakes 1 :=
  ⟨by decide, by decide, by decide, lastBit_takes, by decide, fullSink_full⟩
theorem witness_BrBitReads : aaab.err = false ∧ aaab.brCnt = 0 ∧ aaab.srcPos.toNat < aaab.srcLen.toNat ∧
    parsed.brCnt ≠ 0 ∧ State.reset.brCnt = 0 ∧ State.reset.srcLen.toNat ≤ State.reset.srcPos.toNat := by decide
theorem witness_BrBitsReads :
    aaab.unread = [false] ++ aaab.unread.drop 1 ∧
    aaab.unread = aaab.unread.take 32 ++ aaab.unread.drop 32 ∧ (aaab.unread.take 32).length = 32 ∧
    State.reset.unread.length < 1 ∧ parsed.unread.length < 32 := by decide +kernel
theorem witness_MirrorProperty :
    (∃ t, runAll ([true, false, true].map (fun b => .bwBit b.toNat) ++ [.bwFlush]) State.reset = .next t ∧
      (!t.err && t.snk == [0xA0]) = true) ∧
    (withBytes [0xA0] State.reset).source = [0xA0] ∧ (withBytes [0xA0] State.reset).brCnt = 0 :=
  ⟨of_ends (p := fun t => !t.err && t.snk == [0xA0]) (by decide +kernel), by decide +kernel, by decide⟩

/-! ### The histogram and the tree -/

theorem witness_HistogramCounts : State.reset.err = false ∧
    (tableGet State.reset.hist 255).toNat < 2 ^ 64 - 1 ∧ State.reset.histTotal.toNat < 2 ^ 64 - 1 ∧
    (tableGet (counters [(0, 0xFFFFFFFFFFFFFFFE)]) (BitVec.ofNat 8 0)).toNat < 2 ^ 64 - 1 ∧
    (tableGet (counters [(0, 0xFFFFFFFFFFFFFFFF)]) (BitVec.ofNat 8 0)).toNat = 2 ^ 64 - 1 ∧
    ({ State.reset with histTotal := 0xFFFFFFFFFFFFFFFF } : State).histTotal.toNat = 2 ^ 64 - 1 := by
  simp [counters, State.err]
theorem witness_HistScanCounts : aaab.err = false ∧ State.reset.err = false := by decide

theorem present_counted : present counted.hist ≠ [] :=
  List.ne_nil_of_mem (List.mem_filter.2 ⟨mem_symbols 0x41, by simp [counted, counters, tableGet_tableSet]⟩)
theorem present_reset : present State.reset.hist = [] := by simp [present]
theorem witness_TreeInitLeaves : counted.err = false ∧ present counted.hist ≠ [] ∧ State.reset.err = false ∧
    present State.reset.hist = [] := ⟨by decide, present_counted, by decide, present_reset⟩

/-- Two leaves as `TREE.INIT` leaves them have the shape of R20 to R22. -/
theorem two_shape {c d : Count} (hc : c ≠ 0) (hd : d ≠ 0) :
    TreeShape [.leaf c 0x41, .leaf d 0x42] [.leaf c 0x41, .leaf d 0x42] [] [0, 1] 0 false where
  split := rfl
  areLeaves n hn := by
    simp only [List.mem_cons, List.not_mem_nil, or_false] at hn
    rcases hn with rfl | rfl
    · exact ⟨_, _, rfl, hc⟩
    · exact ⟨_, _, rfl, hd⟩
  areInner n hn := by simp at hn
  ascending := by simp [Node.sym]
  children i c l r h := by
    match i with
    | 0 => simp at h
    | 1 => simp at h
    | i + 2 => simp at h
  oneParent i j c l r c' l' r' h := by
    match i with
    | 0 => simp at h
    | 1 => simp at h
    | i + 2 => simp at h
  rising := by decide
  members i := by
    have key : i ∈ [(0 : NodeIdx), 1] ↔ i.toNat < 2 := by
      rw [List.mem_cons, List.mem_singleton, BitVec.toNat_eq, BitVec.toNat_eq]
      simp; omega
    rw [key]
    refine ⟨fun h => ⟨h, fun j c l r e => ?_⟩, fun h => h.1⟩
    match j with
    | 0 => simp at e
    | 1 => simp at e
    | j + 2 => simp at e
  size := rfl
  bound := by simp
  valid := by simp
  rootIs := by simp
  rootZero _ := rfl

/-- Two leaves of count `2^63` each. -/
def heavyLeaves : State :=
  { State.reset with node := [.leaf 0x8000000000000000 0x41, .leaf 0x8000000000000000 0x42], pq := [0, 1] }

theorem witness_TreeMergeJoins : leafy.err = false ∧ TreeOk leafy ∧ leafy.pq.length = 2 ∧
    cntOf leafy.node 0 + cntOf leafy.node 1 ≤ 2 ^ 64 - 1 ∧
    TreeOk heavyLeaves ∧ heavyLeaves.pq.length = 2 ∧
    cntOf heavyLeaves.node 0 + cntOf heavyLeaves.node 1 = 2 ^ 64 ∧
    TreeOk State.reset ∧ State.reset.pq.length < 2 :=
  ⟨by decide, fun _ => ⟨_, _, two_shape (by decide) (by decide)⟩, rfl, by decide,
    fun _ => ⟨_, _, two_shape (by decide) (by decide)⟩, rfl, by decide, fun _ => ⟨[], [], TreeShape.none⟩, by decide⟩

/-- The counters of `counted` add up to 4 (HI1). -/
theorem counted_sum : (symbols.map (fun y => (tableGet counted.hist y).toNat)).sum = 4 := by decide +kernel
theorem witness_TreeBuildFinishes : counted.err = false ∧ present counted.hist ≠ [] ∧
    (symbols.map (fun y => (tableGet counted.hist y).toNat)).sum ≤ 2 ^ 64 - 1 ∧ present State.reset.hist = [] :=
  ⟨by decide, present_counted, by rw [counted_sum]; decide, present_reset⟩
theorem counted_builds {s : State} (h : s.err = false) (hs : s.hist = counted.hist) :
    ∃ t, exec .treeBuild s = .next t := by
  obtain ⟨t, ht⟩ := treeBuild_succeeds (s := s.clearDone) (by simpa [hs] using present_counted)
    (by simp only [State.clearDone_toEngine, hs, counted_sum]; decide)
  exact ⟨t, dispatch_completes h ht⟩
theorem witness_TreeFromHistogramAlone : counted.err = false ∧ leafy.err = false ∧ counted.hist = leafy.hist ∧
    (∃ t, exec .treeBuild counted = .next t) ∧ ∃ t, exec .treeBuild leafy = .next t :=
  ⟨by decide, by decide, rfl, counted_builds (by decide) rfl, counted_builds (by decide) rfl⟩

/-- A state with this histogram after `TREE.BUILD`, where that ends well. -/
theorem built_shape (hist : Histogram) (p : State → Bool)
    (h : ends (exec .treeBuild { State.reset with hist := hist }) (fun t => !t.err && p t) = true) :
    ∃ t, TreeOk t ∧ t.err = false ∧ p t = true := by
  obtain ⟨t, ht, hp⟩ := of_ends h
  simp only [Bool.and_eq_true, Bool.not_eq_true'] at hp
  rcases dispatch_cases (exec_treeBuild ▸ ht) with ⟨e, -⟩ | ⟨-, hb⟩ | ⟨-, k, -, rfl⟩
  · exact absurd e (by simp [State.err])
  · obtain ⟨inner, sh⟩ := (treeBuild_ok hb).shape
    exact ⟨t, fun _ => ⟨_, _, sh⟩, hp⟩
  · simp at hp

/-- The Fibonacci counters of vectors CW10 (64 of them) and CW14 (65 of them). -/
def fibCounters : (n : Nat) → (sym a b : Nat) → List (Byte × Count)
  | 0, _, _, _ => []
  | n + 1, sym, a, b => (BitVec.ofNat 8 sym, BitVec.ofNat 64 a) :: fibCounters n (sym + 1) b (a + b)

theorem witness_CodeWalkCodes_noTree : State.reset.err = false ∧ TreeOk State.reset ∧ State.reset.rootValid = false :=
  ⟨by decide, fun _ => ⟨[], [], TreeShape.none⟩, by decide⟩
theorem witness_CodeWalkCodes_tooLong : ∃ t : State, TreeOk t ∧ t.err = false ∧
    (t.rootValid && leafAlong t.node (List.replicate 63 true ++ [false]) t.root == some 0) = true :=
  built_shape (counters (fibCounters 65 0 1 1)) _ (by decide +kernel)

/-- Where `CODE.WALK` ends well from a tree with an Internal root, no leaf lies deeper than 63. -/
theorem depth_of_walk {t : State} (ht : TreeOk t) (he : t.err = false)
    (h : ends (exec .codeWalk t) (fun u => !u.err) = true) (bits : List Bool) (y : Byte)
    (hl : leafAlong t.node bits t.root = some y) : bits.length ≤ 63 := by
  obtain ⟨_, _, sh⟩ := ht he
  obtain ⟨u, hu, hp⟩ := of_ends h
  rcases dispatch_cases (exec_codeWalk ▸ hu) with ⟨e, -⟩ | ⟨-, hb⟩ | ⟨-, k, -, rfl⟩
  · rw [he] at e; cases e
  · have hv := codeWalk_rootValid hb
    rcases (codeWalk_ok (s := t.clearDone) sh hb).entries with ⟨c, z, e, -⟩ | ⟨-, hall⟩
    · have e' := getElem?_of_nodeAt (TreeShape.root_lt (s := t) sh hv)
      rw [show nodeAt t.node t.root = .leaf c z from e] at e'
      cases bits with
      | nil => simp
      | cons b bits =>
        obtain ⟨c', l, r, e2, -⟩ := leafAlong_cons.1 hl
        rw [e'] at e2; cases e2
    · rcases hall y with ⟨bits', hb', -, -, h63⟩ | ⟨hno, -⟩
      · rw [sh.code_unique hl hb']; exact h63
      · exact absurd hl (hno bits)
  · simp at hp

theorem witness_CodeWalkCodes_codes : ∃ t : State, TreeOk t ∧ t.err = false ∧ t.rootValid = true ∧
    leafAlong t.node [true] t.root = some 0x41 ∧
    ∀ bits y, leafAlong t.node bits t.root = some y → bits.length ≤ 63 := by
  obtain ⟨t, ht, hp⟩ := of_ends (o := exec .treeMerge leafy)
    (p := fun t => !t.err && (t.rootValid && leafAlong t.node [true] t.root == some 0x41 &&
      ends (exec .codeWalk t) (fun u => !u.err))) (by decide +kernel)
  simp only [Bool.and_eq_true, Bool.not_eq_true', beq_iff_eq] at hp
  rcases dispatch_cases (exec_treeMerge ▸ ht) with ⟨e, -⟩ | ⟨-, hb⟩ | ⟨-, k, -, rfl⟩
  · exact absurd e (by decide)
  · obtain ⟨a, b, m⟩ := treeMerge_ok hb
    have ok : TreeOk t :=
      fun _ => ⟨_, _, (m.shape (two_shape (c := 3) (d := 1) (by decide) (by decide))).1⟩
    exact ⟨t, ok, hp.1, hp.2.1.1, hp.2.1.2, depth_of_walk ok hp.1 hp.2.2⟩
  · simp at hp
theorem witness_CodeWalkCodes_single : ∃ t : State, TreeOk t ∧ t.err = false ∧ t.rootValid = true ∧
    nodeAt t.node t.root = .leaf 5 0x41 ∧
    ∀ bits y, leafAlong t.node bits t.root = some y → bits.length ≤ 63 := by
  obtain ⟨t, ht, he, hp⟩ := built_shape (counters [(0x41, 5)])
    (fun t => t.rootValid && nodeAt t.node t.root == .leaf 5 0x41 &&
      ends (exec .codeWalk t) (fun u => !u.err)) (by decide +kernel)
  simp only [Bool.and_eq_true, beq_iff_eq] at hp
  exact ⟨t, ht, he, hp.1.1, hp.1.2, depth_of_walk ht he hp.2⟩

/-! ### The header -/

/-- "AAAB" coded: the header's 126 bits complete 15 bytes, which a sink of 15 takes and one of 14 does not. -/
theorem coded_header : ctCount coded.ct = 2 ∧
    (headerBits (tableEntries coded.ct) coded.histTotal.toNat).length = 126 := by decide +kernel
theorem reset_count : ctCount State.reset.ct = 0 := by simp [ctCount]
theorem witness_HdrWriteHeader : coded.err = false ∧ 1 ≤ ctCount coded.ct ∧ coded.histTotal.toNat ≤ 2 ^ 32 - 1 ∧
    (capped 15 coded).takesBits (headerBits (tableEntries coded.ct) coded.histTotal.toNat).length ∧
    (capped 14 coded).sinkTakes 0 ∧
    ¬ (capped 14 coded).takesBits (headerBits (tableEntries coded.ct) coded.histTotal.toNat).length ∧
    ctCount State.reset.ct = 0 ∧ 2 ^ 32 ≤ ({ coded with histTotal := 0x100000000 } : State).histTotal.toNat := by
  rw [coded_header.1, coded_header.2, reset_count]
  refine ⟨by decide, by decide, by decide, fun cap h => ?_, fun cap h => ?_, fun h => ?_, rfl, by decide⟩
  · cases h; decide
  · cases h; decide
  · exact absurd (h 14 rfl) (by decide)

theorem twoEntries_accepted : AcceptedTable twoEntries := by
  refine ⟨by decide, by decide, by simp only [EntryOk]; decide, ?_⟩
  simp only [twoEntries, PrefixCode]
  decide

theorem witness_HdrParseAccepts : filed.err = false ∧ AcceptedTable twoEntries ∧
    filed.unread = headerBits twoEntries 4 ++ filed.unread.drop 126 ∧
    ∃ t, exec .hdrParse filed = .next t ∧ (!t.err) = true :=
  ⟨by decide, twoEntries_accepted, by decide +kernel, of_ends (p := fun t => !t.err) (by decide +kernel)⟩

/-- A source whose bits are these, of a whole number of bytes. -/
def headerSource (bytes : List Byte) : State := withBytes (fileBytes.take 7 ++ bytes) State.reset

/-- The source ends inside the magic, the magic is wrong, the source ends before the count. -/
theorem witness_HdrParseFaults_magic : (withBytes (fileBytes.take 6) State.reset).unread.length < 56 ∧
    (bitString 0x585546464D414E 56).length = 56 ∧ bitString 0x585546464D414E 56 ≠ bitString 0x485546464D414E 56 ∧
    (withBytes [0x58, 0x55, 0x46, 0x46, 0x4D, 0x41, 0x4E] State.reset).unread = bitString 0x585546464D414E 56 ++ [] ∧
    (headerSource []).unread = bitString 0x485546464D414E 56 ++ [] := by decide +kernel
/-- With one entry announced: the source ends inside its symbol, its length, has length 0, ends inside its code. -/
theorem witness_HdrParseFaults_entry :
    (headerSource [0x00]).unread = headerStart 1 [] ++ [] ∧
    (headerSource [0x00, 0x41]).unread = headerStart 1 [] ++ (bitString 0x41 8 ++ []) ∧
    (headerSource [0x00, 0x41, 0x00]).unread = headerStart 1 [] ++ (bitString 0x41 8 ++ bitString 0 6 ++ [false, false]) ∧
    (headerSource [0x00, 0x41, 0x0C]).unread =
      headerStart 1 [] ++ (bitString 0x41 8 ++ bitString (3#6).toNat 6 ++ [false, false]) := by decide +kernel
/-- The entries read: the source ends inside the size, and two equal codes are no prefix code. -/
theorem witness_HdrParseFaults_end :
    (headerSource [0x00, 0x41, 0x04]).unread = headerStart 1 [{ sym := 0x41, len := 1, code := 0 }] ++ [false] ∧
    EntryOk { sym := 0x41, len := 1, code := 0 } ∧
    (headerSource [0x01, 0x41, 0x04, 0x84, 0x08, 0x00, 0x00, 0x00, 0x04]).unread =
      headerStart 2 [{ sym := 0x41, len := 1, code := 0 }, { sym := 0x42, len := 1, code := 0 }] ++
        (bitString 1 32 ++ [false, false]) ∧
    EntryOk { sym := 0x42, len := 1, code := 0 } ∧
    ¬ PrefixCode ([{ sym := 0x41, len := 1, code := 0 }, { sym := 0x42, len := 1, code := 0 }].map DecEntry.bits) := by
  simp only [EntryOk, PrefixCode]
  decide +kernel

/-! ### The encoder and the decoder -/

theorem coded_sym (y : Byte) : tableGet coded.ct y =
    if y = 0x42 then some { code := 0, len := 1 } else if y = 0x41 then some { code := 1, len := 1 } else none := by
  have e : tableGet State.reset.ct y = none := tableGet_replicate none y
  rw [show coded.ct = tableSet (tableSet State.reset.ct 0x41 (some { code := 1, len := 1 })) 0x42
    (some { code := 0, len := 1 }) from rfl, tableGet_tableSet, tableGet_tableSet, e]

/-- The code of "A" with room, without room for the byte it completes, and a symbol without a code. -/
theorem witness_EncSymWrites : lastBit.err = false ∧
    tableGet coded.ct (BitVec.ofNat 8 0x41) = some { code := 1, len := 1 } ∧
    ({ lastBit with ct := coded.ct } : State).takesBits 1 ∧ ({ fullSink with ct := coded.ct } : State).sinkTakes 0 ∧
    ¬ ({ fullSink with ct := coded.ct } : State).takesBits 1 ∧ tableGet coded.ct (BitVec.ofNat 8 0xFF) = none :=
  ⟨by decide, coded_sym 0x41, fun cap h => by cases h; decide, fullSink_takes, fun h => absurd (h 1 rfl) (by decide),
    coded_sym 0xFF⟩

theorem aaab_source : aaab.source = [0x41, 0x41, 0x41, 0x42] := by decide +kernel
theorem coded_body : (bodyBits coded.ct [0x41, 0x41, 0x41, 0x42]).length = 4 := by decide +kernel

/-- "AAAB" with room, with none, and "AAAC", whose last byte has no code. -/
theorem witness_EncBodyWrites : coded.err = false ∧ (∀ y ∈ coded.source, coded.ctValid y = true) ∧
    coded.takesBits (bodyBits coded.ct coded.source).length ∧
    (capped 0 { coded with bwCnt := 4 }).sinkTakes 0 ∧
    ¬ (capped 0 { coded with bwCnt := 4 }).takesBits (bodyBits coded.ct coded.source).length ∧
    (withBytes [0x41, 0x43] coded).source = [0x41] ++ 0x43 :: [] ∧ coded.ctValid 0x41 = true ∧
    coded.ctValid 0x43 = false := by
  have e : coded.source = [0x41, 0x41, 0x41, 0x42] := aaab_source
  rw [e, coded_body]
  refine ⟨by decide, fun y hy => ?_, fun _ h => (by cases h), fun cap h => ?_, fun h => absurd (h 0 rfl) (by decide),
    by decide +kernel, ?_, ?_⟩
  · simp only [List.mem_cons, List.not_mem_nil, or_false] at hy
    rcases hy with rfl | rfl | rfl | rfl <;> simp [State.ctValid, coded_sym]
  · cases h; decide
  · simp [State.ctValid, coded_sym]
  · simp [State.ctValid, coded_sym]

theorem aaab_status : StatusOk aaab := ⟨by decide, by decide, by decide, by decide⟩

/-- One byte is the shortest input, in a sink of exactly the bytes asked for; the longest is `2^32 - 1`. -/
def oneByte : State := capped 2484 (withBytes [0x41] State.reset)

theorem witness_EncodeWritesFile : oneByte.err = false ∧ StatusOk oneByte ∧ 1 ≤ oneByte.srcLen.toNat ∧
    oneByte.srcLen.toNat ≤ 2 ^ 32 - 1 ∧
    (∀ cap, oneByte.cfg.snkCap = some cap → 2476 + 8 * oneByte.srcLen.toNat ≤ cap.toNat) ∧
    ({ aaab with srcLen := 0xFFFFFFFF } : State).srcLen.toNat ≤ 2 ^ 32 - 1 :=
  ⟨by decide, ⟨by decide, by decide, by decide, by decide⟩, by decide, by decide, fun cap h => by cases h; decide,
    by decide⟩
theorem witness_EncodeFaults : State.reset.err = false ∧ State.reset.srcLen = 0 ∧
    2 ^ 32 ≤ ({ State.reset with srcLen := 0x100000000 } : State).srcLen.toNat := by decide
/-- An encode without room for its first byte ends faulted (as E13). -/
theorem witness_EncodeFaults_full : (capped 0 aaab).err = false ∧ 1 ≤ (capped 0 aaab).srcLen.toNat ∧
    ∃ t, exec .encodeJob (capped 0 aaab) = .next t ∧ t.err = true := by
  refine ⟨by decide, by decide, ?_⟩
  match h : encodeJob (capped 0 aaab).clearDone with
  | .ok t =>
    obtain ⟨-, -, w⟩ := encodeJob_ok h
    have hcap : t.cfg.snkCap = some 0 := by rw [w.frame]; rfl
    have h0 := w.room 0 hcap
    have hf := congrArg List.length w.file
    simp [zeroPad, headerBits] at h0 hf
    rw [h0] at hf
    simp at hf
    omega
  | .error e =>
    have : ∃ k, e = .trap k := by
      rcases encodeJob_error h with ⟨h, -⟩ | ⟨h, -⟩ | h <;> exact ⟨_, h⟩
    obtain ⟨k, rfl⟩ := this
    exact ⟨_, exec_encodeJob.trans (dispatch_raises (by decide) h), State.enterFault_err _ _ _⟩

theorem parsed_table : DecodeTableOk parsed :=
  fun _ => ⟨twoEntries_accepted.2.2.1, twoEntries_accepted.2.2.2⟩

/-- One entry whose code is `0`, and 64 one-bits to decode (DE17), or fewer (DE19). -/
def noMatchSource (bytes : Nat) : State :=
  { withBytes (List.replicate bytes 0xFF) State.reset with dt := [{ sym := 0x41, len := 1, code := 0 }], decRem := 1 }

theorem noMatch_table (n : Nat) : DecodeTableOk (noMatchSource n) := by
  refine fun _ => ⟨fun e he => ?_, by simp [noMatchSource, PrefixCode]⟩
  simp only [noMatchSource, List.mem_singleton] at he
  subst he
  simp only [EntryOk]
  decide

theorem witness_DecSymDecodes : parsed.err = false ∧ DecodeTableOk parsed ∧ parsed.decRem ≠ 0 ∧
    (∃ e ∈ parsed.dt, parsed.unread = e.bits ++ parsed.unread.drop 1) ∧ parsed.sinkTakes 1 ∧
    ¬ (capped 0 parsed).sinkTakes 1 ∧ State.reset.decRem = 0 ∧ DecodeTableOk State.reset :=
  ⟨by decide, parsed_table, by decide, by decide +kernel, fun _ h => (by cases h),
    fun h => absurd (h 0 rfl) (by decide), rfl, fun _ => by simp [PrefixCode]⟩
theorem witness_DecSymDecodes_noMatch : DecodeTableOk (noMatchSource 8) ∧ DecodeTableOk (noMatchSource 7) ∧
    (noMatchSource 8).decRem ≠ 0 ∧ (∀ e ∈ (noMatchSource 8).dt, ¬ e.bits <+: (noMatchSource 8).unread) ∧
    64 ≤ (noMatchSource 8).unread.length ∧
    (∀ e ∈ (noMatchSource 7).dt, ¬ e.bits <+: (noMatchSource 7).unread) ∧ (noMatchSource 7).unread.length < 64 :=
  ⟨noMatch_table 8, noMatch_table 7, by decide +kernel⟩

/-- "AAAB" in the entries of its decode table. -/
def fourEntries : List DecEntry :=
  [{ sym := 0x41, len := 1, code := 1 }, { sym := 0x41, len := 1, code := 1 }, { sym := 0x41, len := 1, code := 1 },
   { sym := 0x42, len := 1, code := 0 }]

theorem witness_DecBodyDecodes : parsed.err = false ∧ DecodeTableOk parsed ∧
    fourEntries.length = parsed.decRem.toNat ∧ (∀ e ∈ fourEntries, e ∈ parsed.dt) ∧
    parsed.unread = fourEntries.flatMap DecEntry.bits ++ List.replicate 6 false ∧ parsed.sinkTakes 4 :=
  ⟨by decide, parsed_table, by decide, by decide, by decide +kernel, fun _ h => (by cases h)⟩
theorem witness_DecodeReadsFile : filed.err = false ∧ StatusOk filed ∧ AcceptedTable twoEntries ∧
    fourEntries.length < 2 ^ 32 ∧ (∀ e ∈ fourEntries, e ∈ twoEntries) ∧
    streamOf filed.source =
      headerBits twoEntries fourEntries.length ++ fourEntries.flatMap DecEntry.bits ++ List.replicate 6 false ∧
    ∀ cap, (capped 4 filed).cfg.snkCap = some cap → fourEntries.length ≤ cap.toNat :=
  ⟨by decide, ⟨by decide, by decide, by decide, by decide⟩, twoEntries_accepted, by decide, by decide,
    by decide +kernel, fun cap h => by cases h; decide⟩

/-! ### The whole jobs -/

theorem witness_RoundTrip : oneByte.err = false ∧ 1 ≤ oneByte.srcLen.toNat ∧ oneByte.srcLen.toNat ≤ 2 ^ 32 - 1 ∧
    (∀ cap, oneByte.cfg.snkCap = some cap → 2476 + 8 * oneByte.srcLen.toNat ≤ cap.toNat) ∧
    (capped 1 State.reset).err = false ∧ ∀ cap, (capped 1 State.reset).cfg.snkCap = some cap → 1 ≤ cap.toNat :=
  ⟨by decide, by decide, by decide, fun cap h => by cases h; decide, by decide, fun cap h => by cases h; decide⟩
/-- A file is the source of some engine. -/
theorem witness_RoundTrip_source : (withBytes fileBytes State.reset).source = fileBytes := by decide +kernel

theorem witness_TreeBuildComposes : State.reset.err = false ∧
    (∃ t, runAll (.treeInit :: List.replicate ((present State.reset.hist).length - 1) .treeMerge) State.reset = .next t ∧
      t.err = true) ∧ counted.err = false := by
  refine ⟨by decide, ?_, by decide⟩
  rw [present_reset]
  have h : treeInit State.reset.clearDone = raise .empty := by
    match ht : treeInit State.reset.clearDone with
    | .ok t =>
      have h1 := (treeInit_ok ht).2
      rw [leavesOf_length, show State.reset.clearDone.hist = State.reset.hist from rfl, present_reset] at h1
      cases h1
    | .error e => rw [(treeInit_error ht).1]
  refine ⟨_, ?_, State.enterFault_err .empty (encode .treeInit) State.reset⟩
  simp only [List.length_nil, Nat.zero_sub, List.replicate_zero, runAll, exec_treeInit]
  rw [dispatch_raises (by decide) h]
theorem witness_PassesCompose : aaab.err = false ∧
    (∃ t, runAll (.histClr :: aaab.source.map (fun y => .histAcc y.toNat)) aaab = .next t ∧ (!t.err) = true) ∧
    ∃ t, runAll (coded.source.map (fun y => .encSym y.toNat)) coded = .next t ∧ (!t.err) = true :=
  ⟨by decide, of_ends (p := fun t => !t.err) (by decide +kernel), of_ends (p := fun t => !t.err) (by decide +kernel)⟩
theorem witness_DecBodyComposes : parsed.err = false ∧
    ∃ t, runAll (List.replicate parsed.decRem.toNat .decSym) parsed = .next t ∧ (!t.err) = true :=
  ⟨by decide, of_ends (p := fun t => !t.err) (by decide +kernel)⟩
theorem witness_JobsCompose : aaab.err = false ∧ StatusOk aaab ∧ 1 ≤ aaab.srcLen.toNat ∧
    aaab.srcLen.toNat ≤ 2 ^ 32 - 1 ∧
    (∃ t, runAll [.ctlReset, .histScan, .treeBuild, .codeWalk, .hdrWrite, .encBody, .bwFlush] aaab = .next t ∧
      (!t.err) = true) ∧
    filed.err = false ∧ StatusOk filed ∧
    ∃ t, runAll [.ctlReset, .hdrParse, .decBody] filed = .next t ∧ (!t.err) = true :=
  ⟨by decide, aaab_status, by decide, by decide, of_ends (p := fun t => !t.err) (by decide +kernel), by decide,
    ⟨by decide, by decide, by decide, by decide⟩, of_ends (p := fun t => !t.err) (by decide +kernel)⟩
theorem witness_JobsDependOnSourceAlone : aaab.err = false ∧ coded.err = false ∧ StatusOk aaab ∧ StatusOk coded ∧
    aaab.srcLen = coded.srcLen ∧ aaab.source = coded.source ∧ aaab.cfg.snkCap = coded.cfg.snkCap ∧
    (∃ t, exec .decodeJob aaab = .next t) ∧ ∃ t, exec .decodeJob coded = .next t :=
  ⟨by decide, by decide, aaab_status, ⟨by decide, by decide, by decide, by decide⟩, rfl, rfl, rfl,
    (of_ends (p := fun _ => true) (by decide +kernel)).imp fun _ h => h.1,
    (of_ends (p := fun _ => true) (by decide +kernel)).imp fun _ h => h.1⟩
theorem witness_EveryCommandEnds : TreeOk State.reset ∧ TreeOk leafy :=
  ⟨fun _ => ⟨[], [], TreeShape.none⟩, fun _ => ⟨_, _, two_shape (by decide) (by decide)⟩⟩

end Slice0
end

section
/-! PROOFS. The decoder reads back what the encoder makes (30_encoding.md R61, R62), and the step that takes a
command's word off the host's list (47_control.md R193). -/

namespace Sys2Proof

/-! ### Decoding an encoded command -/

/-- The four fields of the command word of any well-formed command (R61, R62). -/
theorem encode_fields : ∀ i : Instr, Laws.Fields.Statement i
  | .ctlNop => Laws.Fields.ctlNop
  | .ctlReset => Laws.Fields.ctlReset
  | .bwBit val => Laws.Fields.bwBit val
  | .bwBits val len => Laws.Fields.bwBits val len
  | .bwFlush => Laws.Fields.bwFlush
  | .brBit => Laws.Fields.brBit
  | .brBits len => Laws.Fields.brBits len
  | .histClr => Laws.Fields.histClr
  | .histAcc sym => Laws.Fields.histAcc sym
  | .histScan => Laws.Fields.histScan
  | .treeInit => Laws.Fields.treeInit
  | .treeMerge => Laws.Fields.treeMerge
  | .treeBuild => Laws.Fields.treeBuild
  | .codeWalk => Laws.Fields.codeWalk
  | .hdrWrite => Laws.Fields.hdrWrite
  | .hdrParse => Laws.Fields.hdrParse
  | .encSym sym => Laws.Fields.encSym sym
  | .encBody => Laws.Fields.encBody
  | .encodeJob => Laws.Fields.encodeJob
  | .decSym => Laws.Fields.decSym
  | .decBody => Laws.Fields.decBody
  | .decodeJob => Laws.Fields.decodeJob

/-- Each opcode selects its command's format, and the format finds the operands in their fields (R62, R64). -/
theorem decode_encode {i : Instr} (h : i.wellFormed = true) : decode (encode i) = .ok i := by
  obtain ⟨hop, hrsv, hlen, hval⟩ := encode_fields i h
  refine decode_ok_iff.2 ⟨hrsv, ?_⟩
  rw [decodeOp, hop]
  cases i with
  | bwBit val => exact formatV32_ok_iff.2 ⟨BitVec.eq_of_toNat_eq hlen, congrArg _ hval.symm⟩
  | bwBits val len => exact formatVL_ok_iff.2 (congrArg₂ _ hval.symm hlen.symm)
  | brBits len => exact formatL_ok_iff.2 ⟨BitVec.eq_of_toNat_eq hval, congrArg _ hlen.symm⟩
  | histAcc sym | encSym sym =>
    have hsym : sym < 2 ^ 8 := of_decide_eq_true h
    exact formatV8_ok_iff.2 ⟨BitVec.eq_of_toNat_eq hlen, hval.trans_lt hsym, congrArg _ hval.symm⟩
  | ctlNop | ctlReset | bwFlush | brBit | histClr | histScan | treeInit | treeMerge | treeBuild | codeWalk
  | hdrWrite | hdrParse | encBody | encodeJob | decSym | decBody | decodeJob =>
    exact formatZ_ok_iff.2 ⟨BitVec.eq_of_toNat_eq hlen, BitVec.eq_of_toNat_eq hval, rfl⟩

end Sys2Proof

namespace Sys2Proof.Machine

open Sys2Proof

/-! ### The step that presents a word -/

/-- A presented word that spells a command runs it (R193). -/
theorem issueWord_of_decode {s : State} {w : Word} {i : Instr} (h : decode w = .ok i) :
    issueWord w s = exec i s := by
  rw [issueWord, h]

/-- The step takes the presented word off the host's list. -/
theorem step_issue {s : State} {w : Word} {rest : List HostMove} (h : s.host = .issue w :: rest) :
    step s = issueWord w { s with host := rest } := by
  simp only [step, nextMove, h, hostMove]

/-- Presenting the 64 bits of a word puts that word in front of the host's list. -/
theorem withFetchWord_toNat (s : State) (w : Word) :
    s.withFetchWord 64 w.toNat = { s with host := .issue w :: s.host } := by
  have hw : BitVec.ofNat 64 (w.toNat % 2 ^ 64) = w := by
    rw [Nat.mod_eq_of_lt w.isLt, BitVec.ofNat_toNat, BitVec.setWidth_eq]
  rw [State.withFetchWord, hostPresents, hw]

/-- Settles O6: the step takes the word off the list, the word decodes to its command, and a command's own word
is the one that decodes back to it. -/
theorem stepRunsPresentedCommand : Obligations.StepRunsPresentedCommand := by
  refine ⟨fun s w rest i hhost hdec => ?_, fun s i hi => ?_⟩
  · rw [step_issue hhost, issueWord_of_decode hdec]
  · rw [withFetchWord_toNat, step_issue rfl, issueWord_of_decode (decode_encode hi)]

end Sys2Proof.Machine
end

section
/-! PROOFS. What a step can do to the state, said once: the word behind a presented command (30_encoding.md R62), what
every command writes (the unit effects below), and from these the invariants of 10_state.md R31, the reset values and
the two buffers. -/

namespace Sys2Proof

/-! ### The word behind a command -/

/-- Each opcode's format reads the operands from their fields (R62, R64). -/
theorem decodeOp_fields {w : Word} {i : Instr} (h : decodeOp w = .ok i) :
    i.opcode = (opField w).toNat ∧ i.lenOperand = (lenField w).toNat ∧ i.valOperand = (valField w).toNat := by
  unfold decodeOp at h
  split at h
  case h_3 hop =>
    obtain ⟨hlen, rfl⟩ := formatV32_ok_iff.1 h
    rw [hop, hlen]; exact ⟨rfl, rfl, rfl⟩
  case h_4 hop =>
    obtain rfl := formatVL_ok_iff.1 h
    rw [hop]; exact ⟨rfl, rfl, rfl⟩
  case h_7 hop =>
    obtain ⟨hval, rfl⟩ := formatL_ok_iff.1 h
    rw [hop, hval]; exact ⟨rfl, rfl, rfl⟩
  case h_9 hop | h_17 hop =>
    obtain ⟨hlen, -, rfl⟩ := formatV8_ok_iff.1 h
    rw [hop, hlen]; exact ⟨rfl, rfl, rfl⟩
  case h_23 => cases h
  all_goals
    rename_i hop
    obtain ⟨hlen, hval, rfl⟩ := formatZ_ok_iff.1 h
    rw [hop, hlen, hval]; exact ⟨rfl, rfl, rfl⟩

/-- A word that spells a command is that command's own word (R62, R67). -/
theorem encode_of_decode {w : Word} {i : Instr} (h : decode w = .ok i) : encode i = w := by
  obtain ⟨hrsv, h⟩ := decode_ok_iff.1 h
  obtain ⟨hop, hlen, hval⟩ := decodeOp_fields h
  rw [encode, hop, hlen, hval, commandWord_of_fields hrsv]

/-! ### Which commands write the sink -/

/-- The commands that write the sink: through the bit writer or from the decoder (R40). -/
def Instr.writesSink : Instr → Bool
  | .bwBit _ | .bwBits _ _ | .bwFlush | .hdrWrite | .encSym _ | .encBody | .encodeJob | .decSym | .decBody
  | .decodeJob => true
  | .ctlNop | .ctlReset | .brBit | .brBits _ | .histClr | .histAcc _ | .histScan | .treeInit | .treeMerge
  | .treeBuild | .codeWalk | .hdrParse => false

end Sys2Proof

namespace Sys2Proof.Machine

open Sys2Proof

/-! ### What a step can do -/

/-- The ways a step from `s` can end (R48, R193, R200, R203, R217). -/
inductive Stepped (s : State) : State → Prop
  /-- no move, a word ignored while faulted, or `CTL.NOP` -/
  | held (rest : List HostMove) (h : s.err = true ∨ ∀ w more, s.host = .issue w :: more → w = 0) :
      Stepped s { s with host := rest }
  | wroteSrc {a : Pos} {b : Byte} {rest : List HostMove} (h : s.host = .writeSrc a b :: rest) :
      Stepped s { s with host := rest, src := s.src.write a.toNat b }
  | setSrcLen {n : Pos} {rest : List HostMove} (h : s.host = .setSrcLen n :: rest) :
      Stepped s { s with host := rest, srcLen := n }
  | reset (rest : List HostMove) : Stepped s (State.leaveFault { s with host := rest })
  | ran {i : Instr} {rest : List HostMove} {t : State} (he : s.err = false) (hn : i ≠ .ctlNop) (hr : i ≠ .ctlReset)
      (hw : s.host = .issue (encode i) :: rest) (h : ruleOf i (State.clearDone { s with host := rest }) = .ok t) :
      Stepped s t
  | faulted (k : Trap) (w : Word) (rest : List HostMove) (he : s.err = false) :
      Stepped s (State.enterFault k w { s with host := rest })

theorem stepped_of_issueWord {s t : State} {w : Word} {rest : List HostMove} (hhost : s.host = .issue w :: rest)
    (h : issueWord w { s with host := rest } = .next t) : Stepped s t := by
  rcases issueWord_cases h with ⟨i, hdec, hexec⟩ | ⟨-, ⟨he, rfl⟩ | ⟨he, rfl⟩⟩
  · obtain rfl := encode_of_decode hdec
    rcases exec_cases hexec with ⟨rfl, rfl⟩ | ⟨rfl, rfl⟩ | ⟨-, he, rfl⟩ | ⟨hn, hr, he, hok⟩ | ⟨-, -, he, k, -, rfl⟩
    · refine .held rest (.inr fun w more hw => ?_)
      rw [hhost] at hw
      cases hw
      decide
    · exact .reset rest
    · exact .held rest (.inl he)
    · exact .ran he hn hr hhost hok
    · exact .faulted k _ rest he
  · exact .held rest (.inl he)
  · exact .faulted _ w rest he

theorem stepped_of_step {s t : State} (h : step s = .next t) : Stepped s t := by
  rcases step_cases h with ⟨hhost, rfl⟩ | ⟨w, rest, hhost, h⟩ | ⟨a, b, rest, hhost, -, rfl⟩ | ⟨n, rest, hhost, -, rfl⟩
  · exact .held t.host (.inr fun w more hw => by rw [hhost] at hw; cases hw)
  · exact stepped_of_issueWord hhost h
  · exact .wroteSrc hhost
  · exact .setSrcLen hhost

/-! ### The parts of the engine the invariants speak of (R31) -/

/-- The bits above the pending ones are 0 (R14). -/
def Engine.WriterTidy (e : Engine) : Prop := e.bwAcc.toNat < 2 ^ e.bwCnt.toNat

/-- At most a byte is left to read (R13). -/
def Engine.ReaderBounded (e : Engine) : Prop := e.brCnt.toNat ≤ 8

/-- The total is the sum of the counters (R19). -/
def Engine.HistSummed (e : Engine) : Prop :=
  e.histTotal.toNat = (symbols.map (fun y => (tableGet e.hist y).toNat)).sum

/-- The arena, the queue and the root have the shape of R20 to R22. -/
def Engine.TreeShaped (e : Engine) : Prop :=
  ∃ leaves inner, TreeShape e.node leaves inner e.pq e.root e.rootValid

/-- A list of entries that is a code: lengths 1 to 63, codes in range, none beginning another (R23, R24). -/
def EntriesCode (entries : List DecEntry) : Prop :=
  (∀ e ∈ entries, EntryOk e) ∧ PrefixCode (entries.map DecEntry.bits)

theorem EntriesCode.nil : EntriesCode [] := ⟨by simp, by simp [PrefixCode]⟩

theorem AcceptedTable.entriesCode {entries : List DecEntry} (h : AcceptedTable entries) : EntriesCode entries :=
  ⟨h.2.2.1, h.2.2.2⟩

/-- The code table is a code (R23, R144). -/
def Engine.CodeTableCode (e : Engine) : Prop := EntriesCode (tableEntries e.ct)

/-- The decode table is a code (R24, R154). -/
def Engine.DecodeTableCode (e : Engine) : Prop := EntriesCode e.dt

@[simp] theorem tableEntries_empty : tableEntries (Vector.replicate 256 none) = [] :=
  List.eq_nil_iff_forall_not_mem.2 fun e he => by simp [mem_tableEntries] at he

/-! ### What they are after reset (R29) -/

theorem Engine.reset_writerTidy : Engine.reset.WriterTidy := by simp [Engine.WriterTidy]

theorem Engine.reset_readerBounded : Engine.reset.ReaderBounded := by simp [Engine.ReaderBounded]

theorem Engine.reset_histSummed : Engine.reset.HistSummed :=
  (List.sum_eq_zero fun n hn => by
    obtain ⟨y, -, rfl⟩ := List.mem_map.1 hn
    rw [Engine.reset_hist, tableGet_replicate]; rfl).symm

theorem Engine.reset_treeShaped : Engine.reset.TreeShaped := ⟨[], [], TreeShape.none⟩

theorem Engine.reset_codeTableCode : Engine.reset.CodeTableCode := by
  simpa [Engine.CodeTableCode] using EntriesCode.nil

theorem Engine.reset_decodeTableCode : Engine.reset.DecodeTableCode := EntriesCode.nil

/-! ### The effect of each unit -/

/-- The bit writer was flushed and the sink marked persistent (R95). -/
structure Flushed (s t : State) : Prop where
  frame : t = { s with bwAcc := t.bwAcc, bwCnt := t.bwCnt, snk := t.snk, snkSync := t.snkLen }
  tidy : s.WriterTidy → t.WriterTidy
  grows : s.snk <+: t.snk
  room : s.sinkTakes 0 → t.sinkTakes 0

theorem flushed_of_flush {s t : State} (h : flush s = .ok t) : Flushed s t := by
  obtain ⟨-, hcnt, hsync, hgrows, hheld, hpushed, hroom, hframe⟩ := flush_ok h
  refine ⟨by rw [← hsync]; exact hframe, fun hs => ?_, hgrows, hroom⟩
  by_cases h0 : s.bwCnt = 0
  · rw [Engine.WriterTidy, hheld h0, hcnt, ← h0]; exact hs
  · rw [Engine.WriterTidy, hpushed h0, hcnt]; decide

/-- Bits were read into `RES` (R98, R99). -/
structure Fetched (s t : State) : Prop where
  frame : t = { s with srcPos := t.srcPos, brByte := t.brByte, brCnt := t.brCnt, res := t.res }
  within : s.ReaderBounded → t.ReaderBounded
  position : s.srcPos.toNat ≤ s.srcLen.toNat → t.srcPos.toNat ≤ t.srcLen.toNat

theorem fetched_of_read {bits : List Bool} {s u : State} (r : Read bits s u) (v : Nat) : Fetched s (setRes v u) :=
  ⟨by rw [r.frame]; rfl, r.within, r.position⟩

/-- Symbols were counted, or the counters cleared (R110, R111, R114). -/
structure Tallied (s t : State) : Prop where
  frame : t = { s with hist := t.hist, histTotal := t.histTotal }
  summed : s.HistSummed → t.HistSummed

theorem tallied_histClear (s : State) : Tallied s (histClear s) := ⟨rfl, fun _ => Engine.reset_histSummed⟩

theorem Counted.tallied {bytes : List Byte} {s t : State} (h : Counted bytes s t) : Tallied s t where
  frame := h.frame
  summed hs := by
    rw [Engine.HistSummed] at hs ⊢
    simp only [h.counts, h.total, List.sum_map_add, sum_occurrences, hs]

theorem histSummed_of_counts {s t : State} (hc : ∀ y, (tableGet t.hist y).toNat = occurrences y s.source)
    (ht : t.histTotal.toNat = s.source.length) : t.HistSummed := by
  rw [Engine.HistSummed, ht, counts_sum hc]

theorem tallied_of_countPass {s t : State} (h : countPass s = .ok t) : Tallied s t := by
  obtain ⟨u, hu, hframe, hcounts, htotal⟩ := countPass_counts s
  rw [hu] at h
  cases h
  exact ⟨hframe, fun _ => histSummed_of_counts hcounts (by rw [htotal, source_length])⟩

/-- The tree was begun or grown (R124 to R126). -/
structure Grown (s t : State) : Prop where
  frame : t = { s with node := t.node, pq := t.pq, root := t.root, rootValid := t.rootValid }
  shaped : s.TreeShaped → t.TreeShaped

theorem grown_of_treeInit {s t : State} (h : treeInit s = .ok t) : Grown s t :=
  ⟨by rw [(treeInit_ok h).1], fun _ => ⟨_, _, treeInit_shape h⟩⟩

theorem Merged.grown {a b : NodeIdx} {s t : State} (m : Merged a b s t) : Grown s t :=
  ⟨m.frame, fun ⟨_, _, sh⟩ => ⟨_, _, (m.shape sh).1⟩⟩

theorem TreeBuilt.grown {s t : State} (b : TreeBuilt s t) : Grown s t := ⟨b.frame, fun _ => ⟨_, b.shape⟩⟩

theorem Coded.entriesCode {s t : State} (w : Coded s t) : EntriesCode (tableEntries t.ct) := by
  refine ⟨fun e he => w.range (mem_tableEntries.1 he), ?_⟩
  rw [PrefixCode, List.pairwise_map]
  exact tableEntries_pairwise fun y z d e hne hd he => ⟨w.prefixFree hd he hne, w.prefixFree he hd hne.symm⟩

/-- The code table was derived and the tree discarded (R141, R145). -/
structure Walked (s t : State) : Prop where
  frame : t = discardTree { s with ct := t.ct }
  code : s.TreeShaped → t.CodeTableCode

theorem walked_of_codeWalk {s t : State} (h : codeWalk s = .ok t) : Walked s t :=
  ⟨codeWalk_frame h, fun ⟨_, _, sh⟩ => (codeWalk_ok sh h).entriesCode⟩

/-- What a command other than the control commands does when it ends without a fault. -/
inductive Effect (s t : State) : Instr → Prop
  | wrote {i : Instr} {bits : List Bool} (hi : i.writesSink = true) (e : Wrote bits s t) : Effect s t i
  | flushed {i : Instr} (hi : i.writesSink = true) (e : Flushed s t) : Effect s t i
  | fetched {i : Instr} (e : Fetched s t) : Effect s t i
  | tallied {i : Instr} (e : Tallied s t) : Effect s t i
  | grown {i : Instr} (e : Grown s t) : Effect s t i
  | walked {i : Instr} (e : Walked s t) : Effect s t i
  | parsed {i : Instr} {entries : List DecEntry} {size : Nat} (e : Parsed entries size s t) : Effect s t i
  | emitted {i : Instr} {n : Nat} (hi : i.writesSink = true) (e : Emitted n s t) : Effect s t i
  | encoded (e : EncodedFile s t) : Effect s t .encodeJob
  | decoded {entries es : List DecEntry} (e : DecodedFile entries es s t) : Effect s t .decodeJob

/-- Each command has the effect of its unit (R40, R68). -/
theorem effect_of_rule {i : Instr} {s t : State} (hn : i ≠ .ctlNop) (hr : i ≠ .ctlReset)
    (h : ruleOf i s = .ok t) : Effect s t i := by
  cases i with
  | ctlNop => contradiction
  | ctlReset => contradiction
  | bwBit val => obtain ⟨b, -, h⟩ := bind_eq_ok.1 h; exact .wrote rfl (writeBit_ok h)
  | bwBits val len => obtain ⟨n, -, h⟩ := bind_eq_ok.1 h; exact .wrote rfl (putBits_ok h)
  | bwFlush => exact .flushed rfl (flushed_of_flush h)
  | brBit => obtain ⟨⟨b, u⟩, hu, h⟩ := bind_eq_ok.1 h; cases h; exact .fetched (fetched_of_read (readBit_ok hu) _)
  | brBits len =>
    obtain ⟨n, -, h⟩ := bind_eq_ok.1 h
    obtain ⟨⟨v, u⟩, hu, h⟩ := bind_eq_ok.1 h
    cases h
    obtain ⟨bits, -, r, -⟩ := getBits_ok hu
    exact .fetched (fetched_of_read r v)
  | histClr => cases h; exact .tallied (tallied_histClear s)
  | histAcc sym => exact .tallied (histAcc_ok h).tallied
  | histScan => exact .tallied (tallied_of_countPass h)
  | treeInit => exact .grown (grown_of_treeInit h)
  | treeMerge => obtain ⟨a, b, m⟩ := treeMerge_ok h; exact .grown m.grown
  | treeBuild => exact .grown (treeBuild_ok h).grown
  | codeWalk => exact .walked (walked_of_codeWalk h)
  | hdrWrite => exact .wrote rfl (hdrWrite_ok h).1
  | hdrParse => obtain ⟨_, _, p⟩ := hdrParse_ok h; exact .parsed p
  | encSym sym => exact .wrote rfl (encSym_ok h).2
  | encBody => rw [ruleOf, emitPass_eq] at h; exact .wrote rfl (emitBytes_ok h).2
  | encodeJob => obtain ⟨-, -, e⟩ := encodeJob_ok h; exact .encoded e
  | decSym => exact .emitted rfl (decSym_emits h)
  | decBody => exact .emitted rfl (decSyms_emits h)
  | decodeJob => obtain ⟨_, _, e⟩ := decodeJob_ok h; exact .decoded e

/-! ### What each effect keeps (R31) -/

section
variable {i : Instr} {s t : State}

theorem Effect.writerTidy (h : Effect s t i) (hs : s.WriterTidy) : t.WriterTidy := by
  cases h with
  | wrote _ e => exact e.tidy hs
  | flushed _ e => exact e.tidy hs
  | fetched e | tallied e | grown e | walked e | parsed e | emitted _ e => rw [e.frame]; exact hs
  | encoded e | decoded e => rw [e.frame]; exact Engine.reset_writerTidy

theorem Effect.readerBounded (h : Effect s t i) (hs : s.ReaderBounded) : t.ReaderBounded := by
  cases h with
  | fetched e | parsed e | emitted _ e => exact e.within hs
  | wrote _ e | flushed _ e | tallied e | grown e | walked e => rw [e.frame]; exact hs
  | encoded e => rw [e.frame]; exact Engine.reset_readerBounded
  | decoded e => exact e.within

theorem Effect.position (h : Effect s t i) (hs : s.srcPos.toNat ≤ s.srcLen.toNat) :
    t.srcPos.toNat ≤ t.srcLen.toNat := by
  cases h with
  | fetched e | parsed e | emitted _ e => exact e.position hs
  | wrote _ e | flushed _ e | tallied e | grown e | walked e => rw [e.frame]; exact hs
  | encoded e => rw [e.frame]; exact Nat.zero_le _
  | decoded e => exact e.position

theorem Effect.histSummed (h : Effect s t i) (hs : s.HistSummed) : t.HistSummed := by
  cases h with
  | tallied e => exact e.summed hs
  | wrote _ e | flushed _ e | fetched e | grown e | walked e | parsed e | emitted _ e => rw [e.frame]; exact hs
  | encoded e =>
    rw [Engine.HistSummed, e.total]
    simp only [e.counts, sum_occurrences]
  | decoded e => rw [e.frame]; exact Engine.reset_histSummed

theorem Effect.treeShaped (h : Effect s t i) (hs : s.TreeShaped) : t.TreeShaped := by
  cases h with
  | grown e => exact e.shaped hs
  | wrote _ e | flushed _ e | fetched e | tallied e | parsed e | emitted _ e => rw [e.frame]; exact hs
  | walked e | encoded e | decoded e => rw [e.frame]; exact Engine.reset_treeShaped

theorem Effect.codeTableCode (h : Effect s t i) (hs : s.TreeShaped) (hc : s.CodeTableCode) : t.CodeTableCode := by
  cases h with
  | walked e => exact e.code hs
  | wrote _ e | flushed _ e | fetched e | tallied e | grown e | parsed e | emitted _ e => rw [e.frame]; exact hc
  | encoded e => exact e.table.entriesCode
  | decoded e => rw [e.frame]; exact Engine.reset_codeTableCode

theorem Effect.decodeTableCode (h : Effect s t i) (hs : s.DecodeTableCode) : t.DecodeTableCode := by
  cases h with
  | parsed e | decoded e => rw [Engine.DecodeTableCode, e.dt]; exact e.accepted.entriesCode
  | wrote _ e | flushed _ e | fetched e | tallied e | grown e | walked e | emitted _ e => rw [e.frame]; exact hs
  | encoded e => rw [e.frame]; exact Engine.reset_decodeTableCode

theorem snkLen_le (s : State) : s.snkLen.toNat ≤ s.snk.length := by
  rw [State.snkLen, BitVec.toNat_ofNat]; exact Nat.mod_le _ _

theorem sinkOk_of_empty (hsync : s.snkSync = 0) (hsnk : s.snk = []) : SinkOk s :=
  ⟨by simp [hsync], fun cap _ => by simp [hsnk]⟩

theorem sinkOk_of_synced (hsync : s.snkSync = s.snkLen) (hroom : s.sinkTakes 0) : SinkOk s :=
  ⟨by rw [hsync]; exact snkLen_le s, hroom⟩

theorem SinkOk.grow (hs : SinkOk s) (hsync : t.snkSync = s.snkSync) (hgrows : s.snk <+: t.snk)
    (hroom : s.sinkTakes 0 → t.sinkTakes 0) : SinkOk t :=
  ⟨by rw [hsync]; exact hs.1.trans hgrows.length_le, hroom hs.2⟩

theorem Effect.sinkOk (h : Effect s t i) (hs : SinkOk s) : SinkOk t := by
  cases h with
  | wrote _ e | emitted _ e => exact hs.grow (by rw [e.frame]) e.grows e.room
  | flushed _ e => exact sinkOk_of_synced (by rw [e.frame]; rfl) (e.room hs.2)
  | fetched e | tallied e | grown e | walked e | parsed e => rw [e.frame]; exact hs
  | encoded e | decoded e => exact sinkOk_of_synced (by rw [e.frame]; rfl) e.room

theorem Effect.sink_grows (h : Effect s t i) (he : i ≠ .encodeJob) (hd : i ≠ .decodeJob) : s.snk <+: t.snk := by
  cases h with
  | wrote _ e | flushed _ e | emitted _ e => exact e.grows
  | fetched e | tallied e | grown e | parsed e => rw [e.frame]
  | walked e => rw [e.frame, discardTree_snk]
  | encoded | decoded => contradiction

theorem Effect.sink_eq (h : Effect s t i) (hi : i.writesSink = false) : t.snk = s.snk := by
  cases h with
  | fetched e | tallied e | grown e | parsed e => rw [e.frame]
  | walked e => rw [e.frame, discardTree_snk]
  | wrote hw | flushed hw | emitted hw => rw [hi] at hw; cases hw
  | encoded | decoded => cases hi

end

/-! ### Invariants of the unfaulted engine -/

/-- What holds of the engine after reset and is kept by every effect is kept by every step, while unfaulted: the host
does not reach the engine, and a fault leaves nothing to show (R30, R31). -/
theorem step_keeps {Q : Engine → Prop} (hreset : Q Engine.reset)
    (heffect : ∀ i s t, Effect s t i → Q s.toEngine → Q t.toEngine) {s t : State}
    (hs : s.err = false → Q s.toEngine) (h : step s = .next t) (ht : t.err = false) : Q t.toEngine := by
  cases stepped_of_step h with
  | held | wroteSrc | setSrcLen => exact hs ht
  | reset => exact hreset
  | ran he hn hr _ hok => exact heffect _ _ _ (effect_of_rule hn hr hok) (hs he)
  | faulted => rw [State.enterFault_err] at ht; cases ht

/-- Settles O18: the writer shifts in one bit per bit counted, and a flush leaves no bit. -/
theorem writerKept : Obligations.WriterKept := fun _ _ hs h =>
  step_keeps Engine.reset_writerTidy (fun _ _ _ e => e.writerTidy) hs h

/-- Settles O19: a refill sets `BR_CNT` to 8 and moves `SRC_POS` on only below `SRC_LEN`. -/
theorem readerKept : Obligations.ReaderKept := by
  refine ⟨fun s t hs h => step_keeps Engine.reset_readerBounded (fun _ _ _ e => e.readerBounded) hs h,
    fun s t hs hduty h ht => ?_⟩
  cases stepped_of_step h with
  | held | wroteSrc => exact hs ht
  | setSrcLen hhost => exact hduty _ _ hhost
  | reset => exact Nat.zero_le _
  | ran he hn hr _ hok => exact (effect_of_rule hn hr hok).position (hs he)
  | faulted => rw [State.enterFault_err] at ht; cases ht

/-- Settles O20: the writer and the decoder push within the capacity, and only a flush or a job moves `SNK_SYNC`. -/
theorem sinkKept : Obligations.SinkKept := by
  intro s t hs h
  cases stepped_of_step h with
  | held | wroteSrc | setSrcLen => exact hs
  | reset | faulted => exact sinkOk_of_empty rfl rfl
  | ran _ hn hr _ hok => exact (effect_of_rule hn hr hok).sinkOk hs

/-- Settles O21: a symbol counted adds one to its counter and to the total. -/
theorem histogramKept : Obligations.HistogramKept := fun _ _ hs h =>
  step_keeps Engine.reset_histSummed (fun _ _ _ e => e.histSummed) hs h

/-- Settles O22: `TREE.INIT` makes the shape, every merge keeps it, and the walk and the jobs end with no tree. -/
theorem treeKept : Obligations.TreeKept := fun _ _ hs h =>
  step_keeps Engine.reset_treeShaped (fun _ _ _ e => e.treeShaped) hs h

/-- Settles O23: the paths of a tree of the shape are a code, so the shape is kept along with the table. -/
theorem codeTableKept : Obligations.CodeTableKept := fun _ _ htree hs h ht =>
  (step_keeps (Q := fun e => e.TreeShaped ∧ e.CodeTableCode)
    ⟨Engine.reset_treeShaped, Engine.reset_codeTableCode⟩
    (fun _ _ _ e ⟨hshape, hcode⟩ => ⟨e.treeShaped hshape, e.codeTableCode hshape hcode⟩)
    (fun he => ⟨htree he, hs he⟩) h ht).2

/-- Settles O24: only a header parsed to its end sets the table, and it is accepted only when it is a code. -/
theorem decodeTableKept : Obligations.DecodeTableKept := fun _ _ hs h =>
  step_keeps Engine.reset_decodeTableCode (fun _ _ _ e => e.decodeTableCode) hs h

/-! ### `STATUS` and reset -/

/-- An unfaulted `STATUS` holds `DONE` and nothing else (R17, R18). -/
theorem statusOk_unfaulted {s : State} (h : s.status = 0 ∨ s.status = 1) (hf : s.fcmd = 0) : StatusOk s := by
  rcases h with h | h <;> simp [StatusOk, State.done, State.err, State.cause, State.sub, h, hf, statusFieldMask]

theorem statusOk_enterFault (k : Trap) (w : Word) (s : State) : StatusOk (s.enterFault k w) :=
  ⟨k.status_reserved, by simp, fun _ => ⟨rfl, rfl⟩, fun h => by simp at h⟩

/-- Settles O17: a command clears `DONE` before it runs and only a job sets it; a fault writes the whole register. -/
theorem statusKept : Obligations.StatusKept := by
  intro s t hs h
  cases stepped_of_step h with
  | held | wroteSrc | setSrcLen => exact hs
  | reset => exact statusOk_unfaulted (.inl rfl) rfl
  | faulted k w rest => exact statusOk_enterFault k w _
  | ran he hn hr _ hok =>
    obtain ⟨hstatus, hfcmd⟩ := hs.unfaulted he
    have kept := rule_kept hn hr hok
    refine statusOk_unfaulted ?_ (kept.fcmd.trans hfcmd)
    rcases kept.status with ⟨-, -, e⟩ | ⟨-, e, -⟩
    · exact .inl (e.trans hstatus)
    · exact .inr (by rw [e, State.clearDone_status, hstatus]; rfl)

/-- Settles O15: a command clears `DONE` before it runs, and of all commands only the two jobs set it. -/
theorem doneOnlyAfterJob : Obligations.DoneOnlyAfterJob := by
  intro s t h hdone
  cases stepped_of_step h with
  | held _ hquiet => exact .inr ⟨hdone, hquiet⟩
  | wroteSrc hhost | setSrcLen hhost => exact .inr ⟨hdone, .inr fun w more hw => by rw [hhost] at hw; cases hw⟩
  | reset => rw [State.leaveFault_done] at hdone; cases hdone
  | faulted => rw [State.enterFault_done] at hdone; cases hdone
  | @ran _ rest _ he hn hr hhost hok =>
    refine .inl ⟨rest, he, ?_⟩
    rcases (rule_kept hn hr hok).status with ⟨-, -, e⟩ | ⟨rfl | rfl, -⟩
    · rw [State.done, e] at hdone
      exact absurd hdone (by simp)
    · exact .inl hhost
    · exact .inr hhost

/-- Settles O12: `CTL.RESET` is `Init()` with `STATUS` and `FCMD` cleared, and `Init()` is the reset column. -/
theorem resetValues : Obligations.ResetValues := by
  have hdec : decode 0x0100000000000000#64 = .ok .ctlReset := by decide
  refine ⟨fun s => ⟨s.leaveFault, exec_ctlReset, issueWord_of_decode hdec, rfl⟩, rfl, rfl, rfl, rfl, rfl, rfl, rfl,
    rfl, rfl, rfl, rfl, fun y => ?_, rfl, rfl, rfl, rfl, rfl, fun y => ?_, rfl, rfl⟩
  · exact tableGet_replicate 0 y
  · simp [State.ctValid, State.ctLen, State.ctCode]

/-- Settles O25: every element is 0 or empty, and nothing of `SRC` is written. -/
theorem resetHasInvariants : Obligations.ResetHasInvariants :=
  ⟨statusOk_unfaulted (.inl rfl) rfl, fun _ => Engine.reset_writerTidy, fun _ => Engine.reset_readerBounded,
    fun _ => Nat.zero_le _, sinkOk_of_empty rfl rfl, fun _ => Engine.reset_histSummed,
    fun _ => Engine.reset_treeShaped, fun _ => Engine.reset_codeTableCode, fun _ => Engine.reset_decodeTableCode,
    .inr (.inr ⟨rfl, rfl⟩), List.Pairwise.nil⟩

/-! ### The two buffers -/

/-- Settles O26: no rule writes the host's elements, and `Init()` and fault entry keep them. -/
theorem sourceUntouched : Obligations.SourceUntouched := by
  intro i s t h
  suffices hkept : t.src = s.src ∧ t.srcLen = s.srcLen ∧ t.cfg = s.cfg ∧ t.host = s.host by
    obtain ⟨hsrc, hlen, hcfg, hhost⟩ := hkept
    exact ⟨hsrc, hlen, hcfg, hhost, fun a => by rw [State.srcRead, State.srcRead, hsrc]⟩
  rcases exec_cases h with ⟨-, rfl⟩ | ⟨-, rfl⟩ | ⟨-, -, rfl⟩ | ⟨hn, hr, -, hok⟩ | ⟨-, -, -, k, -, rfl⟩
  · exact ⟨rfl, rfl, rfl, rfl⟩
  · exact ⟨rfl, rfl, rfl, rfl⟩
  · exact ⟨rfl, rfl, rfl, rfl⟩
  · have kept := rule_kept hn hr hok
    exact ⟨kept.src, kept.srcLen, kept.cfg, kept.host⟩
  · exact ⟨rfl, rfl, rfl, rfl⟩

/-- Settles O27: only the host writes `SRC`, and its write keeps the order of the addresses. -/
theorem sourceCanonical : Obligations.SourceCanonical := by
  intro s t hs h
  cases stepped_of_step h with
  | held | setSrcLen | reset | faulted => exact hs
  | wroteSrc => exact Memory.write_wf hs _ _
  | ran _ hn hr _ hok => rw [(rule_kept hn hr hok).src]; exact hs

/-- The commands that O28 leaves over are those that do not write the sink (R40). -/
theorem writesSink_eq_false {i : Instr} (hbit : ∀ v, i ≠ .bwBit v) (hbits : ∀ v n, i ≠ .bwBits v n)
    (hflush : i ≠ .bwFlush) (hhdr : i ≠ .hdrWrite) (hsym : ∀ y, i ≠ .encSym y) (hbody : i ≠ .encBody)
    (hdsym : i ≠ .decSym) (hdbody : i ≠ .decBody) (henc : i ≠ .encodeJob) (hdec : i ≠ .decodeJob) :
    i.writesSink = false := by
  cases i with
  | bwBit v => exact absurd rfl (hbit v)
  | bwBits v n => exact absurd rfl (hbits v n)
  | encSym y => exact absurd rfl (hsym y)
  | bwFlush | hdrWrite | encBody | decSym | decBody | encodeJob | decodeJob => contradiction
  | _ => rfl

/-- Settles O28: the writer and the decoder only append to the sink, and no other command touches it. -/
theorem sinkOnlyGrows : Obligations.SinkOnlyGrows := by
  intro i s t h ht hs hreset henc hdec
  rcases exec_cases h with ⟨-, rfl⟩ | ⟨hi, -⟩ | ⟨-, he, -⟩ | ⟨hn, hr, -, hok⟩ | ⟨-, -, -, k, -, rfl⟩
  · exact ⟨fun _ _ => rfl, Nat.le_refl _, fun _ _ _ _ _ _ _ _ => rfl⟩
  · exact absurd hi hreset
  · rw [hs] at he; cases he
  · have e := effect_of_rule hn hr hok
    have hgrows := e.sink_grows henc hdec
    have ⟨more, hmore⟩ := hgrows
    refine ⟨fun j hj => ?_, hgrows.length_le, fun hbit hbits hflush hhdr hsym hbody hdsym hdbody => ?_⟩
    · rw [State.snkRead, State.snkRead, ← hmore, State.clearDone_snk, List.getElem?_append_left hj]
    · exact e.sink_eq (writesSink_eq_false hbit hbits hflush hhdr hsym hbody hdsym hdbody henc hdec)
  · rw [State.enterFault_err] at ht; cases ht

end Sys2Proof.Machine
end

section
/-! PROOFS. The host's own moves (20_memory.md R48, 70_reset_and_hazards.md R233): the step each of them makes inside
`SRC_CAP`, its refusal beyond it, and what a read of `SRC` finds after a write. -/

namespace Sys2Proof.Machine

open Sys2Proof

/-! ### `SRC` after a write -/

theorem srcRead_write_same (s : State) (rest : List HostMove) (i : Nat) (b : Byte) :
    State.srcRead { s with host := rest, src := s.src.write i b } i = b := by
  rw [State.srcRead, Memory.read_write_same, Option.getD_some]

theorem srcRead_write_other (s : State) (rest : List HostMove) {i j : Nat} (b : Byte) (h : j ≠ i) :
    State.srcRead { s with host := rest, src := s.src.write i b } j = s.srcRead j := by
  rw [State.srcRead, Memory.read_write_other s.src b h, State.srcRead]

/-! ### The steps of the host's own moves -/

section
variable {s : State} {rest : List HostMove}

/-- The step takes the next move off the host's list and makes it. -/
theorem step_of_host_cons {m : HostMove} (h : s.host = m :: rest) : step s = hostMove m { s with host := rest } := by
  rw [step, nextMove, h]

theorem step_writeSrc {a : Pos} {b : Byte} (h : s.host = .writeSrc a b :: rest) (ha : a < s.cfg.srcCap) :
    step s = .next { s with host := rest, src := s.src.write a.toNat b } :=
  (step_of_host_cons h).trans (if_pos ha)

theorem step_writeSrc_beyond {a : Pos} {b : Byte} (h : s.host = .writeSrc a b :: rest) (ha : ¬ a < s.cfg.srcCap) :
    step s = .refused .hostIndexBeyondSrcCap :=
  (step_of_host_cons h).trans (if_neg ha)

theorem step_setSrcLen {n : Pos} (h : s.host = .setSrcLen n :: rest) (hn : n ≤ s.cfg.srcCap) :
    step s = .next { s with host := rest, srcLen := n } :=
  (step_of_host_cons h).trans (if_pos hn)

theorem step_setSrcLen_beyond {n : Pos} (h : s.host = .setSrcLen n :: rest) (hn : ¬ n ≤ s.cfg.srcCap) :
    step s = .refused .hostLenBeyondSrcCap :=
  (step_of_host_cons h).trans (if_neg hn)

end

/-- Settles O7: a move within `SRC_CAP` writes its one element, and a read of `SRC` sees the write at its own index
only; a move beyond `SRC_CAP` is refused. -/
theorem hostWritesSource : Obligations.HostWritesSource := by
  refine ⟨fun s a b rest h => ⟨fun ha => ?_, fun ha => ?_⟩, fun s n rest h => ⟨fun hn => ?_, fun hn => ?_⟩⟩
  · exact ⟨_, step_writeSrc h (BitVec.lt_def.2 ha), rfl, srcRead_write_same s rest a.toNat b,
      fun j hj => srcRead_write_other s rest b hj⟩
  · exact step_writeSrc_beyond h (BitVec.not_lt.2 (BitVec.le_def.2 ha))
  · exact step_setSrcLen h (BitVec.le_def.2 hn)
  · exact step_setSrcLen_beyond h (BitVec.not_le.2 (BitVec.lt_def.2 hn))

end Sys2Proof.Machine
end

section
/-! PROOFS. The command word both ways (30_encoding.md R61 to R66): encoding and decoding undo each other, and a word
spells a command exactly when it matches a row of the opcode map. -/

namespace Sys2Proof

/-! ### Encoding and decoding undo each other (R61, R62, R67) -/

/-- Settles O1: the word's fields hold the operands, and each format reads them back. -/
theorem encodeThenDecode : Obligations.EncodeThenDecode := fun _ => decode_encode

/-- The operands a format reads fit the field it reads them from (R61, R62). -/
theorem wellFormed_of_decodeOp {w : Word} {i : Instr} (h : decodeOp w = .ok i) : i.wellFormed = true := by
  unfold decodeOp at h
  split at h
  case h_3 =>
    obtain ⟨-, rfl⟩ := formatV32_ok_iff.1 h
    exact decide_eq_true (valField w).isLt
  case h_4 =>
    obtain rfl := formatVL_ok_iff.1 h
    exact Bool.and_eq_true_iff.2 ⟨decide_eq_true (valField w).isLt, decide_eq_true (lenField w).isLt⟩
  case h_7 =>
    obtain ⟨-, rfl⟩ := formatL_ok_iff.1 h
    exact decide_eq_true (lenField w).isLt
  case h_9 | h_17 =>
    obtain ⟨-, hval, rfl⟩ := formatV8_ok_iff.1 h
    exact decide_eq_true hval
  case h_23 => cases h
  all_goals
    obtain ⟨-, -, rfl⟩ := formatZ_ok_iff.1 h
    rfl

/-- Settles O2: the four fields of a word that decodes are the command's own parts, and a word is its four fields. -/
theorem decodeThenEncode : Obligations.DecodeThenEncode := fun _ _ h =>
  ⟨wellFormed_of_decodeOp (decode_ok_iff.1 h).2, encode_of_decode h⟩

/-! ### The masks, field by field (R62) -/

/-- Two words are equal when their four fields are (R61). -/
theorem word_eq_iff {w v : Word} : w = v ↔
    opField w = opField v ∧ rsvField w = rsvField v ∧ lenField w = lenField v ∧ valField w = valField v := by
  refine ⟨fun h => by simp [h], fun ⟨hop, hrsv, hlen, hval⟩ => ?_⟩
  rw [← word_of_fields w, hop, hrsv, hlen, hval, word_of_fields]

@[simp] theorem opField_and (w m : Word) : opField (w &&& m) = opField w &&& opField m := BitVec.extractLsb'_and
@[simp] theorem rsvField_and (w m : Word) : rsvField (w &&& m) = rsvField w &&& rsvField m := BitVec.extractLsb'_and
@[simp] theorem lenField_and (w m : Word) : lenField (w &&& m) = lenField w &&& lenField m := BitVec.extractLsb'_and
@[simp] theorem valField_and (w m : Word) : valField (w &&& m) = valField w &&& valField m := BitVec.extractLsb'_and

/-- The fields a format does not use are 0 (R62). -/
def Format.Admits (w : Word) : Format → Prop
  | .z => lenField w = 0 ∧ valField w = 0
  | .v32 => lenField w = 0
  | .v8 => lenField w = 0 ∧ (valField w).toNat < 2 ^ 8
  | .l => valField w = 0
  | .vl => True

/-- The 24 high bits of a 32-bit number are 0 exactly when it is below `2^8`. -/
theorem and_high_eq_zero_iff {v : BitVec 32} : v &&& 0xFFFFFF00#32 = 0 ↔ v.toNat < 2 ^ 8 := by
  constructor
  · intro h
    have hlow : v = v &&& 0xFF#32 := by
      have hsplit : v = v &&& (0xFFFFFF00#32 ||| 0xFF#32) := (BitVec.and_allOnes (x := v)).symm
      rw [BitVec.and_or_distrib_left, h] at hsplit
      exact hsplit.trans BitVec.zero_or
    rw [hlow, BitVec.toNat_and]
    exact Nat.lt_succ_of_le Nat.and_le_right
  · intro h
    refine BitVec.eq_of_getLsbD_eq fun k hk => ?_
    rw [BitVec.getLsbD_and]
    rcases Nat.lt_or_ge k 8 with hlow | hhigh
    · have hmask : ∀ k < 8, (0xFFFFFF00#32).getLsbD k = false := by decide
      simp [hmask k hlow]
    · have hv : v.getLsbD k = false := Nat.testBit_lt_two_pow (h.trans_le (Nat.pow_le_pow_right (by omega) hhigh))
      simp [hv]

/-- The bits of `len` a format does not use (R62). -/
def Format.lenMask : Format → BitVec 6
  | .z | .v32 | .v8 => BitVec.allOnes 6
  | .l | .vl => 0#6

/-- The bits of `val` a format does not use (R62). -/
def Format.valMask : Format → BitVec 32
  | .z | .l => BitVec.allOnes 32
  | .v8 => 0xFFFFFF00#32
  | .v32 | .vl => 0#32

/-- The masks keep `op` and `rsv` whole, and of `len` and `val` what the format does not use (R62). -/
theorem mask_fields (f : Format) : opField f.mask = BitVec.allOnes 8 ∧ rsvField f.mask = BitVec.allOnes 18 ∧
    lenField f.mask = f.lenMask ∧ valField f.mask = f.valMask := by
  cases f <;> decide

/-- A format admits the words that are 0 where it uses nothing (R62). -/
theorem admits_iff {f : Format} {w : Word} :
    f.Admits w ↔ lenField w &&& f.lenMask = 0 ∧ valField w &&& f.valMask = 0 := by
  cases f with
  | v8 => rw [Format.Admits, Format.lenMask, Format.valMask, BitVec.and_allOnes, and_high_eq_zero_iff]
  | z | v32 | l | vl => simp only [Format.Admits, Format.lenMask, Format.valMask, BitVec.and_allOnes, BitVec.and_zero,
      BitVec.ofNat_eq_ofNat, and_true, true_and]

theorem and_mask_eq_iff {f : Format} {w p : Word} (hlen : lenField p = 0) (hval : valField p = 0) :
    w &&& f.mask = p ↔ opField w = opField p ∧ rsvField w = rsvField p ∧ f.Admits w := by
  obtain ⟨mop, mrsv, mlen, mval⟩ := mask_fields f
  rw [word_eq_iff, opField_and, rsvField_and, lenField_and, valField_and, mop, mrsv, mlen, mval, hlen, hval,
    BitVec.and_allOnes, BitVec.and_allOnes, admits_iff]

/-- The pattern of a row has its `op` and nothing else (R62, R64). -/
theorem pattern_fields : ∀ r ∈ opcodeRows, (opField (BitVec.ofNat 64 (r.op <<< 56))).toNat = r.op ∧
    rsvField (BitVec.ofNat 64 (r.op <<< 56)) = 0 ∧ lenField (BitVec.ofNat 64 (r.op <<< 56)) = 0 ∧
    valField (BitVec.ofNat 64 (r.op <<< 56)) = 0 := by decide

/-- A word matches a row when its `op` is the row's, `rsv` is 0, and the row's format admits the rest (R62). -/
theorem matches_row_iff {r : Row} (hr : r ∈ opcodeRows) {w : Word} :
    w &&& r.fmt.mask = BitVec.ofNat 64 (r.op <<< 56) ↔
      (opField w).toNat = r.op ∧ rsvField w = 0 ∧ r.fmt.Admits w := by
  obtain ⟨hop, hrsv, hlen, hval⟩ := pattern_fields r hr
  rw [and_mask_eq_iff hlen hval, hrsv, ← BitVec.toNat_inj, hop]

/-! ### The decoder and the opcode map (R64) -/

theorem exists_formatZ {w : Word} {i : Instr} : (∃ j, formatZ w i = .ok j) ↔ Format.z.Admits w := by
  simp [formatZ_ok_iff, Format.Admits]

theorem exists_formatV32 {w : Word} {mk : Nat → Instr} : (∃ j, formatV32 w mk = .ok j) ↔ Format.v32.Admits w := by
  simp [formatV32_ok_iff, Format.Admits]

theorem exists_formatV8 {w : Word} {mk : Nat → Instr} : (∃ j, formatV8 w mk = .ok j) ↔ Format.v8.Admits w := by
  simp [formatV8_ok_iff, Format.Admits]

theorem exists_formatL {w : Word} {mk : Nat → Instr} : (∃ j, formatL w mk = .ok j) ↔ Format.l.Admits w := by
  simp [formatL_ok_iff, Format.Admits]

theorem exists_formatVL {w : Word} {mk : Nat → Nat → Instr} :
    (∃ j, formatVL w mk = .ok j) ↔ Format.vl.Admits w := by
  simp [formatVL_ok_iff, Format.Admits]

/-- The decoder's branches are the rows of the opcode map, each with its format (R64). -/
theorem exists_decodeOp_iff {w : Word} : (∃ i, decodeOp w = .ok i) ↔
    ∃ r ∈ opcodeRows, (opField w).toNat = r.op ∧ r.fmt.Admits w := by
  unfold decodeOp
  split
  case h_23 =>
    simp_all [opcodeRows, rowsLow, rowsHigh]
  all_goals
    rename_i hop
    simp [hop, opcodeRows, rowsLow, rowsHigh, exists_formatZ, exists_formatV32, exists_formatV8, exists_formatL,
      exists_formatVL]

/-- A word spells a command exactly when it matches a row of the opcode map under the row's mask (R62). -/
theorem exists_decode_iff {w : Word} : (∃ i, decode w = .ok i) ↔
    ∃ r ∈ opcodeRows, w &&& r.fmt.mask = BitVec.ofNat 64 (r.op <<< 56) := by
  simp only [decode_ok_iff, exists_and_left, exists_decodeOp_iff]
  constructor
  · rintro ⟨hrsv, r, hr, hop, hadmits⟩
    exact ⟨r, hr, (matches_row_iff hr).2 ⟨hop, hrsv, hadmits⟩⟩
  · rintro ⟨r, hr, hmatch⟩
    obtain ⟨hop, hrsv, hadmits⟩ := (matches_row_iff hr).1 hmatch
    exact ⟨hrsv, r, hr, hop, hadmits⟩

/-- The fields of a word as numbers (R61). -/
theorem fields_toNat (w : Word) : (opField w).toNat = w.toNat / 2 ^ 56 ∧
    (rsvField w).toNat = w.toNat / 2 ^ 38 % 2 ^ 18 ∧ (lenField w).toNat = w.toNat / 2 ^ 32 % 2 ^ 6 ∧
    (valField w).toNat = w.toNat % 2 ^ 32 := by
  simp only [opField, rsvField, lenField, valField, BitVec.extractLsb'_toNat, Nat.shiftRight_eq_div_pow, pow_zero,
    Nat.div_one, and_true]
  have := w.isLt
  exact Nat.mod_eq_of_lt (by omega)

/-- Settles O3: a mask keeps the fields its format does not use, the decoder asks the same fields to be 0, and it takes
the operands from the others as they stand. -/
theorem opcodeMap : Obligations.OpcodeMap := by
  refine ⟨fun w => exists_decode_iff, fun w i h => ?_⟩
  obtain ⟨hrsv, h⟩ := decode_ok_iff.1 h
  obtain ⟨hop, hlen, hval⟩ := decodeOp_fields h
  obtain ⟨eop, ersv, elen, eval⟩ := fields_toNat w
  exact ⟨hop.trans eop, ersv.symm.trans (congrArg BitVec.toNat hrsv), hlen.trans elen, hval.trans eval⟩

/-- Settles O5: the fixed words, decoded. -/
theorem decodedWords : Obligations.DecodedWords := by
  unfold Obligations.DecodedWords
  decide

/-! ### Words that spell no command (R65) -/

/-- No opcode stands in two rows (R64). -/
theorem opcodeRows_op_nodup : (opcodeRows.map Row.op).Nodup := by decide

end Sys2Proof

namespace Sys2Proof.Machine

open Sys2Proof

theorem faultedWith_enterFault (k : Trap) (w : Word) (s : State) : FaultedWith k w s (s.enterFault k w) :=
  ⟨rfl, rfl, rfl, rfl, rfl, rfl, rfl, rfl⟩

/-- A word that spells no command raises IllegalCommand, or is ignored while faulted (R65, R206). -/
theorem issueWord_of_no_command {w : Word} (h : ∀ i, decode w ≠ .ok i) (s : State) :
    issueWord w s = if s.err then .next s else .next (s.enterFault .illegalCommand w) := by
  unfold issueWord
  split
  · exact absurd ‹_› (h _)
  · rfl

/-- Settles O4: a word that matches no row decodes to an error, and `op`, which every mask keeps, tells the rows
apart. -/
theorem illegalWords : Obligations.IllegalWords := by
  refine ⟨fun w s hnone => ?_, fun w r hr q hq hwr hwq => ?_⟩
  · have hdec : ∀ i, decode w ≠ .ok i := fun i h =>
      let ⟨r, hr, hmatch⟩ := exists_decode_iff.1 ⟨i, h⟩
      hnone r hr hmatch
    have hissue := issueWord_of_no_command hdec s
    exact ⟨hdec, fun he => ⟨_, by rw [hissue, he]; rfl, faultedWith_enterFault _ _ _⟩,
      fun he => hissue.trans (if_pos he)⟩
  · obtain ⟨hop, -⟩ := (matches_row_iff hr).1 hwr
    obtain ⟨hop', -⟩ := (matches_row_iff hq).1 hwq
    exact List.inj_on_of_nodup_map opcodeRows_op_nodup hr hq (hop.symm.trans hop')

end Sys2Proof.Machine
end

section
/-! PROOFS. Commands that are compositions of others (30_encoding.md R68), and the file `ENCODE` writes (R70). -/

namespace Sys2Proof

/-- The commands that run a rule of their own and leave `DONE` cleared: neither a control command nor a job (R190). -/
abbrev Instr.IsUnit (i : Instr) : Prop := i ≠ .ctlNop ∧ i ≠ .ctlReset ∧ i ≠ .encodeJob ∧ i ≠ .decodeJob

end Sys2Proof

namespace Sys2Proof.Machine

open Sys2Proof

/-! ### Commands one after another -/

/-- The rules of commands, one after another. -/
def runRules (is : List Instr) (s : State) : Exec State := is.foldlM (fun s i => ruleOf i s) s

@[simp] theorem runRules_nil (s : State) : runRules [] s = .ok s := rfl

@[simp] theorem runRules_cons (i : Instr) (is : List Instr) (s : State) :
    runRules (i :: is) s = ruleOf i s >>= runRules is := rfl

/-- The rules of one command applied to a list of operands. -/
theorem runRules_map {α : Type} (f : α → Instr) (l : List α) (s : State) :
    runRules (l.map f) s = l.foldlM (fun s a => ruleOf (f a) s) s := List.foldlM_map ..

theorem runAll_cons {i : Instr} {is : List Instr} {s t : State} (h : runAll (i :: is) s = .next t) :
    ∃ u, exec i s = .next u ∧ runAll is u = .next t := by
  rw [runAll] at h
  split at h
  · exact ⟨_, ‹_›, h⟩
  · cases h
  · cases h

/-- A faulted engine ignores every command but `CTL.RESET` (R206). -/
theorem runAll_faulted {is : List Instr} (hu : ∀ i ∈ is, i.IsUnit) {s : State} (he : s.err = true) :
    runAll is s = .next s := by
  induction is with
  | nil => rfl
  | cons i is ih =>
    obtain ⟨hn, hr, -⟩ := hu i List.mem_cons_self
    rw [runAll, exec_eq_dispatch hn hr, dispatch_faulted he]
    exact ih fun j hj => hu j (List.mem_cons_of_mem _ hj)

/-- A unit's rule leaves `STATUS` as it is (R17). -/
theorem rule_status {i : Instr} (hi : i.IsUnit) {s t : State} (h : ruleOf i s = .ok t) :
    t.status = s.status := by
  obtain ⟨hn, hr, henc, hdec⟩ := hi
  rcases (rule_kept hn hr h).status with ⟨-, -, e⟩ | ⟨rfl | rfl, -⟩
  · exact e
  · exact absurd rfl henc
  · exact absurd rfl hdec

theorem State.clearDone_of_status {s : State} (h : s.status &&& 0xFFFE#16 = s.status) : s.clearDone = s := by
  rw [State.clearDone, h]

theorem State.clearDone_of_rule {i : Instr} (hi : i.IsUnit) {s t : State} (h : ruleOf i s.clearDone = .ok t) :
    t.clearDone = t := by
  apply State.clearDone_of_status
  rw [rule_status hi h, State.clearDone_status, BitVec.and_assoc, BitVec.and_self]

/-- How commands issued one after another end (R68): where their rules do, or in the fault of the rule that raised one,
the commands after it ignored. -/
theorem runAll_cases {is : List Instr} (hu : ∀ i ∈ is, i.IsUnit) {s t : State} (he : s.err = false)
    (h : runAll is s = .next t) :
    (t.err = false ∧ runRules is s.clearDone = .ok t.clearDone ∧ t.clearDone.status = s.clearDone.status) ∨
    (t.err = true ∧ ∃ k, runRules is s.clearDone = raise k ∧ t.status = k.status) := by
  induction is generalizing s with
  | nil => cases h; exact .inl ⟨he, rfl, rfl⟩
  | cons i is ih =>
    obtain ⟨u, hexec, hrun⟩ := runAll_cons h
    have hi := hu i List.mem_cons_self
    have his : ∀ j ∈ is, j.IsUnit := fun j hj => hu j (List.mem_cons_of_mem _ hj)
    rw [exec_eq_dispatch hi.1 hi.2.1] at hexec
    rw [runRules_cons]
    rcases dispatch_cases hexec with ⟨hs, -⟩ | ⟨-, hok⟩ | ⟨-, k, hraise, rfl⟩
    · rw [he] at hs; cases hs
    · have hstatus := rule_status hi hok
      have hcd := State.clearDone_of_rule hi hok
      have hue : u.err = false := by rw [State.err, hstatus]; exact s.clearDone_err.trans he
      have hends := ih his hue hrun
      rw [hcd, hstatus] at hends
      rwa [hok, ok_bind]
    · rw [runAll_faulted his (State.enterFault_err ..)] at hrun
      cases hrun
      exact .inr ⟨State.enterFault_err .., k, by rw [hraise]; rfl, rfl⟩

/-- After a command `DONE` is 0, unless the engine ignored it (R190, R206). -/
theorem clearDone_of_exec {i : Instr} (hi : i.IsUnit) {s t : State} (hs : s.err = false ∨ s.clearDone = s)
    (h : exec i s = .next t) : t.clearDone = t := by
  rw [exec_eq_dispatch hi.1 hi.2.1] at h
  rcases dispatch_cases h with ⟨he, rfl⟩ | ⟨-, hok⟩ | ⟨-, k, -, rfl⟩
  · exact hs.resolve_left (by simp [he])
  · exact State.clearDone_of_rule hi hok
  · exact State.clearDone_of_status k.status_clear

theorem clearDone_of_runAll {is : List Instr} (hu : ∀ i ∈ is, i.IsUnit) {s t : State} (hs : s.clearDone = s)
    (h : runAll is s = .next t) : t.clearDone = t := by
  induction is generalizing s with
  | nil => cases h; exact hs
  | cons i is ih =>
    obtain ⟨u, hexec, hrun⟩ := runAll_cons h
    exact ih (fun j hj => hu j (List.mem_cons_of_mem _ hj))
      (clearDone_of_exec (hu i List.mem_cons_self) (.inr hs) hexec) hrun

theorem clearDone_of_runAll_cons {i : Instr} {is : List Instr} (hu : ∀ j ∈ i :: is, j.IsUnit) {s t : State}
    (he : s.err = false) (h : runAll (i :: is) s = .next t) : t.clearDone = t := by
  obtain ⟨u, hexec, hrun⟩ := runAll_cons h
  exact clearDone_of_runAll (fun j hj => hu j (List.mem_cons_of_mem _ hj))
    (clearDone_of_exec (hu i List.mem_cons_self) (.inl he) hexec) hrun

/-- A command whose rule is the rules of others in sequence ends as they do, and clears `DONE` even where there are
none (R68). -/
theorem exec_of_runAll {i : Instr} {is : List Instr} (hi : i.IsUnit) (hu : ∀ j ∈ is, j.IsUnit) {s t : State}
    (he : s.err = false) (hrule : ruleOf i s.clearDone = runRules is s.clearDone) (h : runAll is s = .next t) :
    ∃ v, exec i s = .next v ∧ v.status = t.clearDone.status ∧ (t.err = false → v = t.clearDone) := by
  rw [exec_eq_dispatch hi.1 hi.2.1]
  rcases runAll_cases hu he h with ⟨-, hok, -⟩ | ⟨ht, k, hraise, hstatus⟩
  · exact ⟨_, dispatch_completes he (hrule.trans hok), rfl, fun _ => rfl⟩
  · refine ⟨_, dispatch_raises he (hrule.trans hraise), ?_, fun hf => absurd (ht.symm.trans hf) (by decide)⟩
    rw [State.clearDone_status, hstatus, k.status_clear, State.enterFault_status]

/-! ### `TREE.BUILD` (R68 a) -/

/-- The merges of `TREE.BUILD`: each takes one from `PQ`, so one fewer than its members are made (R126). -/
theorem mergeAll_eq {n : Nat} {s : State} {leaves inner : List Node}
    (sh : TreeShape s.node leaves inner s.pq s.root s.rootValid) (hn : s.pq.length ≤ n + 1) :
    mergeAll n s = runRules (List.replicate (s.pq.length - 1) .treeMerge) s := by
  induction n generalizing s inner with
  | zero => rw [Nat.sub_eq_zero_of_le hn]; rfl
  | succ n ih =>
    rw [mergeAll]
    split
    · rename_i h2
      obtain ⟨k, hk⟩ : ∃ k, s.pq.length = k + 2 := ⟨_, (Nat.sub_add_cancel h2).symm⟩
      rw [hk, Nat.add_sub_assoc (by decide), List.replicate_succ, runRules_cons, ruleOf]
      cases hmerge : treeMerge s with
      | error e => rfl
      | ok u =>
        obtain ⟨a, b, m⟩ := treeMerge_ok hmerge
        obtain ⟨sh', hlen⟩ := m.shape sh
        rw [ok_bind, ok_bind, ih sh' (by omega), show u.pq.length - 1 = k by omega]
    · rw [Nat.sub_eq_zero_of_le (by omega)]; rfl

theorem treeBuild_eq (s : State) :
    treeBuild s = runRules (.treeInit :: List.replicate ((present s.hist).length - 1) .treeMerge) s := by
  rw [treeBuild, runRules_cons, ruleOf]
  cases hinit : treeInit s with
  | error e => rfl
  | ok u =>
    have hlen : u.pq.length = (present s.hist).length := by
      rw [(treeInit_ok hinit).1, ← leavesOf_length]
      simp [firstIndices]
    rw [ok_bind, ok_bind, mergeAll_eq (treeInit_shape hinit) (Nat.le_succ _), hlen]

/-- Settles O53: one merge fewer than there are leaves empties `PQ` to its last member. -/
theorem treeBuildComposes : Obligations.TreeBuildComposes := by
  intro s t he h
  have hu : ∀ i ∈ Instr.treeInit :: List.replicate ((present s.hist).length - 1) .treeMerge, i.IsUnit := by
    simp [Instr.IsUnit]
  have hv := exec_of_runAll (i := .treeBuild) (by decide) hu he (treeBuild_eq s.clearDone) h
  rwa [clearDone_of_runAll_cons hu he h] at hv

/-! ### The passes over the source (R68 b, c) -/

theorem symOperand_toNat (y : Byte) : symOperand y.toNat = y := by simp [symOperand]

theorem countPass_eq (s : State) :
    countPass s = runRules (.histClr :: s.source.map (fun y => .histAcc y.toNat)) s := by
  rw [runRules_cons, ruleOf, ok_bind, runRules_map]
  simp only [ruleOf, symOperand_toNat]
  exact overSource_source (fun _ _ _ => histAcc_src) (histClear s)

theorem emitPass_eq_rules (s : State) : emitPass s = runRules (s.source.map (fun y => .encSym y.toNat)) s := by
  rw [runRules_map]
  simp only [ruleOf, symOperand_toNat]
  exact emitPass_eq s

/-- Settles O54: a pass applies its unit's rule to every source byte in order, and no such rule writes the source. -/
theorem passesCompose : Obligations.PassesCompose := by
  refine ⟨fun s t he h => ?_, fun s t he h => ?_⟩
  · have hu : ∀ i ∈ Instr.histClr :: s.source.map (fun y => .histAcc y.toNat), i.IsUnit := by simp [Instr.IsUnit]
    have hv := exec_of_runAll (i := .histScan) (by decide) hu he (countPass_eq s.clearDone) h
    rwa [clearDone_of_runAll_cons hu he h] at hv
  · exact exec_of_runAll (i := .encBody) (by decide) (by simp [Instr.IsUnit]) he (emitPass_eq_rules s.clearDone) h

/-! ### `DEC.BODY` (R68 d) -/

theorem decSyms_eq (n : Nat) (s : State) : decSyms n s = runRules (List.replicate n .decSym) s := by
  induction n generalizing s with
  | zero => rfl
  | succ n ih => rw [decSyms, List.replicate_succ, runRules_cons, funext ih]; rfl

/-- Settles O55: the body is `DecSym()` as often as `DEC_REM` says at its start. -/
theorem decBodyComposes : Obligations.DecBodyComposes := fun s _ he h =>
  exec_of_runAll (i := .decBody) (by decide) (by simp [Instr.IsUnit]) he (decSyms_eq _ s.clearDone) h

/-! ### The jobs (R68 e, f) -/

/-- Unfaulted, `CTL.RESET` is `Init()` with `DONE` cleared (R191, R192). -/
theorem init_clearDone {s : State} (ho : StatusOk s) (he : s.err = false) : s.clearDone.init = s.leaveFault := by
  obtain ⟨hstatus, hfcmd⟩ := ho.unfaulted he
  rw [State.leaveFault, State.init, State.init, State.clearDone, hstatus, hfcmd]

theorem leaveFault_clearDone (s : State) : s.leaveFault.clearDone = s.leaveFault :=
  State.clearDone_of_status (by rw [State.leaveFault_status]; decide)

/-- A job whose rule is `Init()`, then the rules of others in sequence, then a last change of the state, ends as
`CTL.RESET` and those commands do but for that change (R68). -/
theorem exec_job_of_runAll {i : Instr} {is : List Instr} {finish : State → State} (hn : i ≠ .ctlNop)
    (hr : i ≠ .ctlReset) (hu : ∀ j ∈ is, j.IsUnit) {s t : State} (he : s.err = false)
    (hrule : ruleOf i s.clearDone = runRules is s.leaveFault >>= fun u => .ok (finish u))
    (h : runAll (.ctlReset :: is) s = .next t) :
    ∃ v, exec i s = .next v ∧ (t.err = true → v.status = t.status) ∧
      (t.err = false → t.status = 0 ∧ v = finish t) := by
  obtain ⟨u, hreset, hrun⟩ := runAll_cons h
  cases hreset
  have ht := clearDone_of_runAll hu (leaveFault_clearDone s) hrun
  rw [exec_eq_dispatch hn hr]
  have hends := runAll_cases hu s.leaveFault_err hrun
  rw [leaveFault_clearDone, ht] at hends
  rcases hends with ⟨hte, hok, hstatus⟩ | ⟨hte, k, hraise, hstatus⟩
  · rw [hok] at hrule
    exact ⟨_, dispatch_completes he hrule, fun hf => absurd (hte.symm.trans hf) (by decide),
      fun _ => ⟨hstatus, rfl⟩⟩
  · rw [hraise] at hrule
    exact ⟨_, dispatch_raises he hrule, fun _ => hstatus.symm, fun hf => absurd (hte.symm.trans hf) (by decide)⟩

theorem setDone_of_status {s : State} (h : s.status = 0) : s.setDone = { s with status := 0x0001 } := by
  rw [State.setDone, h]; rfl

/-- The end of `DECODE`: all of the sink is forced to persist and `DONE` set (R183). -/
abbrev syncDone (s : State) : State := { s with snkSync := s.snkLen }.setDone

/-- With 1 to `2^32 - 1` source bytes the checks of `ENCODE` pass and its units run (R173). -/
theorem encodeJob_eq {s : State} (h1 : 1 ≤ s.srcLen.toNat) (hmax : s.srcLen.toNat ≤ 2 ^ 32 - 1) :
    encodeJob s = encodeUnits s.init := by
  have h0 : s.srcLen ≠ 0 := by rintro h; rw [h] at h1; cases h1
  rw [encodeJob, if_neg h0,
    if_neg (show ¬ s.srcLen.toNat > Config.maxSize from Nat.not_lt.2 hmax)]

/-- Settles O56: after `Init()` a job runs the rules of its commands in order, then sets `DONE`; `DECODE` also forces
its sink to persist. -/
theorem jobsCompose : Obligations.JobsCompose := by
  refine ⟨fun s t he ho h1 hmax h => ?_, fun s t he ho h => ?_⟩
  · have hrule : encodeJob s.clearDone =
        runRules [.histScan, .treeBuild, .codeWalk, .hdrWrite, .encBody, .bwFlush] s.leaveFault >>=
          fun u => .ok u.setDone := by
      rw [encodeJob_eq (s := s.clearDone) h1 hmax, init_clearDone ho he]
      simp [runRules, ruleOf, encodeUnits, bind_assoc]
    obtain ⟨v, hv, hfault, hok⟩ := exec_job_of_runAll (i := .encodeJob) (finish := State.setDone) (by decide) (by decide)
      (by decide) he hrule h
    refine ⟨v, hv, hfault, fun ht => ?_⟩
    obtain ⟨hstatus, rfl⟩ := hok ht
    exact setDone_of_status hstatus
  · have hrule : decodeJob s.clearDone = runRules [.hdrParse, .decBody] s.leaveFault >>=
        fun u => .ok (syncDone u) := by
      rw [decodeJob, init_clearDone ho he]
      simp [runRules, ruleOf, bind_assoc]
    obtain ⟨v, hv, hfault, hok⟩ := exec_job_of_runAll (i := .decodeJob) (finish := syncDone) (by decide) (by decide)
      (by decide) he hrule h
    refine ⟨v, hv, hfault, fun ht => ?_⟩
    obtain ⟨hstatus, rfl⟩ := hok ht
    exact setDone_of_status (s := { t with snkSync := t.snkLen }) hstatus

/-! ### The file `ENCODE` writes (R70 to R78) -/

/-- Settles O47: the source fits the size field and the sink, so no unit of `ENCODE` faults. -/
theorem encodeWritesFile : Obligations.EncodeWritesFile := by
  intro s he ho h1 hmax hroom
  have hsource : s.clearDone.source = s.source := rfl
  have hlen := source_length s
  obtain ⟨t, ht⟩ := encodeJob_succeeds (s := s.clearDone) (by rw [hsource, hlen]; exact h1)
    (by rw [hsource, hlen]; exact hmax) (by rw [hsource, hlen]; exact hroom)
  obtain ⟨-, -, w⟩ := encodeJob_ok ht
  have htotal : t.histTotal = s.srcLen := BitVec.eq_of_toNat_eq (w.total.trans hlen)
  refine ⟨t, dispatch_completes he ht, ?_, w.counts, w.entries, w.table, ?_⟩
  · have hframe := w.frame
    rw [init_clearDone ho he, State.clearDone_status, (ho.unfaulted he).1, htotal] at hframe
    exact hframe
  · rw [w.file, hsource, hlen]

end Sys2Proof.Machine
end

section
/-! PROOFS. The bit-stream commands (40_bitstream.md R90 to R101): what each does to the writer or the reader, that the
reader gives back what the writer wrote, and the decoder's runs over the source (46_decoder.md R182, R183). -/

namespace Sys2Proof.Machine

open Sys2Proof

/-! ### How a command ends (R193, R200) -/

section
variable {i : Instr} {s t : State}

/-- A command completes where its rule does. -/
theorem exec_of_rule_ok (h : ruleOf i s.clearDone = .ok t) (he : s.err = false) (hn : i ≠ .ctlNop := by nofun)
    (hr : i ≠ .ctlReset := by nofun) : exec i s = .next t :=
  (exec_eq_dispatch hn hr s).trans (dispatch_completes he h)

/-- A command faults where its rule raises. -/
theorem faultsWith_of_rule_raise {k : Trap} (h : ruleOf i s.clearDone = raise k) (he : s.err = false)
    (hn : i ≠ .ctlNop := by nofun) (hr : i ≠ .ctlReset := by nofun) : FaultsWith i s k :=
  ⟨_, (exec_eq_dispatch hn hr s).trans (dispatch_raises he h), faultedWith_enterFault k (encode i) s⟩

/-- Every command but `CODE.WALK` has a next state. -/
theorem exec_has_next (hi : i ≠ .codeWalk) (s : State) : ∃ t, exec i s = .next t := by
  by_cases hn : i = .ctlNop
  · subst hn; exact ⟨s, exec_ctlNop⟩
  by_cases hr : i = .ctlReset
  · subst hr; exact ⟨_, exec_ctlReset⟩
  rw [exec_eq_dispatch hn hr]
  match h : dispatch i (ruleOf i) s with
  | .next t => exact ⟨t, rfl⟩
  | .fault f => exact absurd (rule_stuck (dispatch_fault h).2) hi
  | .refused r => exact absurd h (dispatch_ne_refused r)

theorem runAll_has_next {is : List Instr} (hi : ∀ i ∈ is, i ≠ .codeWalk) (s : State) :
    ∃ t, runAll is s = .next t := by
  induction is generalizing s with
  | nil => exact ⟨s, rfl⟩
  | cons i is ih =>
    obtain ⟨u, hu⟩ := exec_has_next (hi i List.mem_cons_self) s
    rw [runAll, hu]
    exact ih (fun j hj => hi j (List.mem_cons_of_mem _ hj)) u

end

theorem runRules_append (is js : List Instr) (s : State) :
    runRules (is ++ js) s = runRules is s >>= runRules js := List.foldlM_append ..

/-! ### Operands -/

theorem exists_toNat_of_le_one {val : Nat} (h : val ≤ 1) : ∃ b : Bool, val = b.toNat :=
  ⟨val == 1, by interval_cases val <;> rfl⟩

@[simp] theorem bitOperand_toNat (b : Bool) : bitOperand b.toNat = .ok b := by cases b <;> rfl

theorem bitOperand_beyond {val : Nat} (h : 2 ≤ val) : bitOperand val = raise .bitValue := if_neg (by omega)

theorem lenOperand_within {len : Nat} (h1 : 1 ≤ len) (h32 : len ≤ 32) : lenOperand len = .ok len := if_pos ⟨h1, h32⟩

theorem lenOperand_beyond {len : Nat} (h : len = 0 ∨ 33 ≤ len) : lenOperand len = raise .bitsLen :=
  if_neg (by rw [Config.wbMax]; omega)

/-! ### The bit writer -/

theorem ruleOf_bwBit (b : Bool) (s : State) : ruleOf (.bwBit b.toNat) s = writeBit b s := by
  rw [ruleOf, bitOperand_toNat, ok_bind]

theorem ruleOf_bwBits {len : Nat} (h1 : 1 ≤ len) (h32 : len ≤ 32) (val : Nat) (s : State) :
    ruleOf (.bwBits val len) s = putBits val len s := by
  rw [ruleOf, lenOperand_within h1 h32, ok_bind]

/-- `PutBits(v, n)` raises SINK_FULL where the sink does not take the bytes it completes (R42, R91). -/
theorem putBits_full (v : Nat) {n : Nat} {s : State} (h0 : s.sinkTakes 0) (h : ¬ s.takesBits n) :
    putBits v n s = raise .sinkFull := by
  match hp : putBits v n s with
  | .ok t => exact absurd (by simpa using (putBits_ok hp).had_room h0) h
  | .error e => rw [putBits_error hp]

/-- Settles O29: the eighth bit pushes the byte, any other bit is held. -/
theorem bwBitWrites : Obligations.BwBitWrites := by
  intro s val he
  refine ⟨fun hval hroom => ?_, fun hval h7 hfull => ?_, fun hval => ?_⟩
  · obtain ⟨b, rfl⟩ := exists_toNat_of_le_one hval
    by_cases h7 : s.bwCnt = 7
    · have hw := writeBit_eighth b (s := s.clearDone) h7 (hroom.resolve_left (not_not_intro h7))
      exact ⟨_, exec_of_rule_ok ((ruleOf_bwBit b _).trans hw) he, rfl, fun _ => ⟨rfl, rfl, rfl⟩,
        fun h => absurd h7 h⟩
    · have hw := writeBit_held b (s := s.clearDone) h7
      exact ⟨_, exec_of_rule_ok ((ruleOf_bwBit b _).trans hw) he, rfl, fun h => absurd h h7,
        fun _ => ⟨rfl, rfl, bwCnt_succ h7⟩⟩
  · obtain ⟨b, rfl⟩ := exists_toNat_of_le_one hval
    exact faultsWith_of_rule_raise ((ruleOf_bwBit b _).trans (writeBit_full b (s := s.clearDone) h7 hfull)) he
  · exact faultsWith_of_rule_raise (by rw [ruleOf, bitOperand_beyond hval]; rfl) he

/-- Settles O30: `PutBits` writes the bit string of `val` and `len` where there is room for it, and `len` is checked
first. -/
theorem bwBitsWrites : Obligations.BwBitsWrites := by
  intro s val len he
  refine ⟨fun h1 h32 hroom => ?_, fun h1 h32 h0 hfull => ?_, fun hlen => ?_⟩
  · obtain ⟨t, ht⟩ := putBits_succeeds val (s := s.clearDone) hroom
    have w := putBits_ok ht
    exact ⟨t, exec_of_rule_ok ((ruleOf_bwBits h1 h32 val _).trans ht) he, w.frame, w.stream, w.tidy,
      fun _ => w.snkRead⟩
  · exact faultsWith_of_rule_raise
      ((ruleOf_bwBits h1 h32 val _).trans (putBits_full val (s := s.clearDone) h0 hfull)) he
  · exact faultsWith_of_rule_raise (by rw [ruleOf, lenOperand_beyond hlen]; rfl) he

/-- Settles O31: a flush at a byte boundary only moves `SNK_SYNC`, and one of a partial byte pushes it first. -/
theorem bwFlushPads : Obligations.BwFlushPads := by
  intro s he
  refine ⟨fun hroom => ?_, fun h0 hfull => ?_⟩
  · obtain ⟨t, ht⟩ := flush_succeeds (s := s.clearDone) hroom.resolve_left
    obtain ⟨hstream, hcnt, hsync, -, -, -, -, hframe⟩ := flush_ok ht
    rw [hcnt, hsync] at hframe
    refine ⟨t, exec_of_rule_ok ht he, hframe, fun h0 => ?_, fun h0 => ?_, hstream⟩
    · rw [flush_aligned (s := s.clearDone) h0] at ht
      cases ht
      exact ⟨rfl, rfl⟩
    · rw [flush_partial (s := s.clearDone) h0 (hroom.resolve_left h0)] at ht
      cases ht
      exact ⟨rfl, rfl⟩
  · exact faultsWith_of_rule_raise (flush_full (s := s.clearDone) h0 hfull) he

/-! ### The bit reader -/

theorem ruleOf_brBit {s t : State} {b : Bool} (h : readBit .raw s = .ok (b, t)) :
    ruleOf .brBit s = .ok (setRes b.toNat t) := by
  rw [ruleOf, h, ok_bind]

theorem ruleOf_brBits {len : Nat} (h1 : 1 ≤ len) (h32 : len ≤ 32) (s : State) :
    ruleOf (.brBits len) s = getBits len .raw s >>= fun (v, t) => .ok (setRes v t) := by
  rw [ruleOf, lenOperand_within h1 h32, ok_bind]

theorem setRes_res_toNat {v : Nat} (h : v < 2 ^ 64) (s : State) : (setRes v s).res.toNat = v := by
  rw [setRes_res, BitVec.toNat_ofNat, Nat.mod_eq_of_lt h]

theorem toNat_lt_word (b : Bool) : b.toNat < 2 ^ 64 := b.toNat_lt.trans (by decide)

/-- A position below the end of the source has a next one (R12). -/
theorem pos_succ_toNat {p n : Pos} (h : p.toNat < n.toNat) : (p + 1).toNat = p.toNat + 1 :=
  BitVec.toNat_add_of_lt ((Nat.succ_le_of_lt h).trans_lt n.isLt)

/-- Settles O32: an exhausted byte is loaded and its bit 7 read, otherwise the next bit of the byte is. -/
theorem brBitReads : Obligations.BrBitReads := by
  intro s he
  refine ⟨fun hleft => ?_, fun h0 hend => ?_⟩
  · by_cases h0 : s.brCnt = 0
    · have hpos := hleft.resolve_left (not_not_intro h0)
      have hread := readBit_loads .raw (s := s.clearDone) h0 hpos
      exact ⟨_, exec_of_rule_ok (ruleOf_brBit hread) he, rfl, fun _ => ⟨rfl, pos_succ_toNat hpos, rfl⟩,
        fun h => absurd h0 h, setRes_res_toNat (toNat_lt_word _) _, (readBit_ok hread).stream⟩
    · have hread := readBit_next .raw (s := s.clearDone) h0
      exact ⟨_, exec_of_rule_ok (ruleOf_brBit hread) he, rfl, fun h => absurd h h0,
        fun _ => ⟨rfl, rfl, (brCnt_pred h0).symm⟩, setRes_res_toNat (toNat_lt_word _) _, (readBit_ok hread).stream⟩
  · exact faultsWith_of_rule_raise (by rw [ruleOf, readBit_truncated .raw (s := s.clearDone) h0 hend]; rfl) he

/-! ### `BR.BIT` again and again -/

/-- `ReadBit(tag)` neither reads nor writes `RES` (R96). -/
theorem readBit_setRes (tag : Field) (r : Nat) (s : State) :
    readBit tag (setRes r s) = readBit tag s >>= fun (b, t) => .ok (b, setRes r t) := by
  by_cases h0 : s.brCnt = 0
  · rcases Nat.lt_or_ge s.srcPos.toNat s.srcLen.toNat with hpos | hend
    · rw [readBit_loads tag h0 hpos, readBit_loads tag (s := setRes r s) h0 hpos]; rfl
    · rw [readBit_truncated tag h0 hend, readBit_truncated tag (s := setRes r s) h0 hend]; rfl
  · rw [readBit_next tag h0, readBit_next tag (s := setRes r s) h0]; rfl

/-- `BR.BIT` does not depend on `RES` (R98). -/
theorem ruleOf_brBit_setRes (r : Nat) (s : State) : ruleOf .brBit (setRes r s) = ruleOf .brBit s := by
  rw [ruleOf, readBit_setRes, bind_assoc]; rfl

/-- `BR.BIT` once per bit goes the way of the loop of `GetBits`, and `RES` keeps up with the last bit of its value
(R97). -/
theorem runRules_brBit_setRes (n v : Nat) (s : State) :
    runRules (List.replicate n .brBit) (setRes (v % 2) s) =
      getBitsFrom .raw n v s >>= fun (w, t) => .ok (setRes (w % 2) t) := by
  induction n generalizing v s with
  | zero => rfl
  | succ n ih =>
    rw [List.replicate_succ, runRules_cons, ruleOf_brBit_setRes, ruleOf, getBitsFrom]
    match readBit .raw s with
    | .error e => rfl
    | .ok (b, u) =>
      have hlast : (2 * v + b.toNat) % 2 = b.toNat := by
        rw [Nat.mul_add_mod, Nat.mod_eq_of_lt b.toNat_lt]
      simp only [ok_bind]
      rw [← ih, hlast]

/-- One or more times `BR.BIT` is `GetBits` with its last bit in `RES` (R97, R98). -/
theorem runRules_brBit {n : Nat} (h : n ≠ 0) (s : State) :
    runRules (List.replicate n .brBit) s = getBits n .raw s >>= fun (w, t) => .ok (setRes (w % 2) t) := by
  obtain ⟨n, rfl⟩ := Nat.exists_eq_succ_of_ne_zero h
  rw [getBits, ← runRules_brBit_setRes, List.replicate_succ, runRules_cons, runRules_cons, ruleOf_brBit_setRes]

section
variable {n : Nat} {s : State}

theorem isUnit_of_mem_brBit {i : Instr} (h : i ∈ List.replicate n .brBit) : i.IsUnit := by
  rw [List.eq_of_mem_replicate h]; decide

/-- How `n` times `BR.BIT` ends: with the bits read, or in the fault of the first bit that was not there. -/
theorem runAll_brBit (h : n ≠ 0) (he : s.err = false) : ∃ v, runAll (List.replicate n .brBit) s = .next v ∧
    ((v.err = false ∧ runRules (List.replicate n .brBit) s.clearDone = .ok v) ∨
      (v.err = true ∧ ∃ k, runRules (List.replicate n .brBit) s.clearDone = raise k ∧ v.status = k.status)) := by
  obtain ⟨v, hv⟩ := runAll_has_next (is := List.replicate n .brBit)
    (fun i hi => by rw [List.eq_of_mem_replicate hi]; decide) s
  refine ⟨v, hv, ?_⟩
  have hends := runAll_cases (fun _ => isUnit_of_mem_brBit) he hv
  obtain ⟨m, rfl⟩ := Nat.exists_eq_succ_of_ne_zero h
  rw [clearDone_of_runAll_cons (is := List.replicate m .brBit) (fun _ => isUnit_of_mem_brBit (n := m + 1)) he hv]
    at hends
  exact hends.imp_left fun ⟨hve, hok, _⟩ => ⟨hve, hok⟩

/-- Where `n` bits are left, `n` times `BR.BIT` reads them, the last one into `RES`. -/
theorem runAll_brBit_reads {w : Nat} {t : State} (h : n ≠ 0) (he : s.err = false)
    (hg : getBits n .raw s.clearDone = .ok (w, t)) : runAll (List.replicate n .brBit) s = .next (setRes (w % 2) t) ∧
      t.err = false := by
  have hrules := runRules_brBit h s.clearDone
  rw [hg, ok_bind] at hrules
  obtain ⟨v, hv, ⟨hve, hok⟩ | ⟨-, k, hraise, -⟩⟩ := runAll_brBit h he
  · rw [hrules] at hok
    cases hok
    exact ⟨hv, hve⟩
  · rw [hrules] at hraise
    cases hraise

/-- Where fewer are left, it ends in TruncatedStream(RAW). -/
theorem runAll_brBit_truncated (h : s.unread.length < n) (he : s.err = false) :
    ∃ v, runAll (List.replicate n .brBit) s = .next v ∧ v.err = true ∧ v.status = (Trap.truncated .raw).status := by
  have h0 : n ≠ 0 := Nat.ne_zero_of_lt h
  have hrules := runRules_brBit h0 s.clearDone
  rw [getBits_truncated .raw (s := s.clearDone) h, error_bind] at hrules
  obtain ⟨v, hv, ⟨-, hok⟩ | ⟨hve, k, hraise, hstatus⟩⟩ := runAll_brBit h0 he
  · rw [hrules] at hok
    cases hok
  · rw [hrules] at hraise
    cases hraise
    exact ⟨v, hv, hve, hstatus⟩

end

/-- Settles O33: `GetBits` gives the value of the bits that stand next, and reads them as `BR.BIT` does one by one. -/
theorem brBitsReads : Obligations.BrBitsReads := by
  intro s he
  refine ⟨fun bits rest h1 h32 hun => ?_, fun len h1 h32 hshort => ?_, fun len hlen => ?_⟩
  · obtain ⟨t, ht, hread, hrest⟩ := getBits_of_unread .raw (s := s.clearDone) hun
    have hlt : bitsValue bits < 2 ^ 64 :=
      (bitsValue_lt bits).trans_le (Nat.pow_le_pow_right (by decide) (h32.trans (by decide)))
    have hrule : ruleOf (.brBits bits.length) s.clearDone = .ok (setRes (bitsValue bits) t) := by
      rw [ruleOf_brBits h1 h32, ht, ok_bind]
    refine ⟨_, exec_of_rule_ok hrule he, by rw [hread.frame]; rfl, setRes_res_toNat hlt t, hrest, _,
      (runAll_brBit_reads (Nat.ne_of_gt h1) he ht).1, rfl⟩
  · exact faultsWith_of_rule_raise
      (by rw [ruleOf_brBits h1 h32, getBits_truncated .raw (s := s.clearDone) hshort]; rfl) he
  · exact faultsWith_of_rule_raise (by rw [ruleOf, lenOperand_beyond hlen]; rfl) he

/-! ### The reader mirrors the writer (R101) -/

/-- `BW.BIT` once per bit writes the bits (R90, R92). -/
theorem runRules_bwBit_ok {bits : List Bool} {s t : State}
    (h : runRules (bits.map fun b => .bwBit b.toNat) s = .ok t) : Wrote bits s t := by
  induction bits generalizing s with
  | nil => cases h; exact Wrote.refl _
  | cons b bits ih =>
    rw [List.map_cons, runRules_cons, ruleOf_bwBit] at h
    obtain ⟨u, hu, h⟩ := bind_eq_ok.1 h
    exact (writeBit_ok hu).trans (ih h)

/-- The zeros of the padding (R76, R95). -/
abbrev padding (bits : List Bool) : List Bool := List.replicate ((8 - bits.length % 8) % 8) false

/-- From a byte boundary, bits written one by one and flushed leave the stream they and their padding are (R90, R95). -/
theorem stream_of_written {bits : List Bool} {bytes : List Byte} {s t : State} (he : s.err = false) (h0 : s.bwCnt = 0)
    (hrun : runAll (bits.map (fun b => .bwBit b.toNat) ++ [.bwFlush]) s = .next t) (ht : t.err = false)
    (hsnk : t.snk = s.snk ++ bytes) : streamOf bytes = bits ++ padding bits := by
  have hu : ∀ i ∈ bits.map (fun b => Instr.bwBit b.toNat) ++ [.bwFlush], i.IsUnit := by
    intro i hi
    rcases List.mem_append.1 hi with hi | hi
    · obtain ⟨b, -, rfl⟩ := List.mem_map.1 hi
      exact ⟨nofun, nofun, nofun, nofun⟩
    · rw [List.mem_singleton.1 hi]
      decide
  rcases runAll_cases hu he hrun with ⟨-, hok, -⟩ | ⟨hte, -⟩
  · rw [runRules_append] at hok
    obtain ⟨u, hbits, hflush⟩ := bind_eq_ok.1 hok
    obtain ⟨v, hflush, hv⟩ := bind_eq_ok.1 hflush
    cases hv
    have hstream := (flush_ok hflush).1
    have hwritten : u.written = streamOf s.snk ++ bits := by
      rw [(runRules_bwBit_ok hbits).stream]
      simp [State.written, h0]
    rw [hwritten, State.clearDone_snk, hsnk, streamOf_append, zeroPad, List.append_assoc] at hstream
    have hpad := List.append_cancel_left hstream
    rwa [List.length_append, streamOf_length, Nat.mul_add_mod] at hpad
  · rw [ht] at hte
    cases hte

/-- The last bit of the value of the first `k + 1` bits is bit `k` (R97). -/
theorem bitsValue_take_mod_two {l : List Bool} {k : Nat} (h : k < l.length) :
    bitsValue (l.take (k + 1)) % 2 = l[k].toNat := by
  rw [List.take_add_one, List.getElem?_eq_getElem h, Option.toList_some, bitsValue_snoc, Nat.mul_add_mod,
    Nat.mod_eq_of_lt (l[k].toNat_lt)]

/-- The bits and their padding, one by one. -/
theorem getElem_append_padding {bits : List Bool} {k : Nat} (h : k < (bits ++ padding bits).length) :
    (bits ++ padding bits)[k] = bits.getD k false := by
  rw [List.getElem_append]
  split
  · rw [List.getD_eq_getElem]
  · rw [List.getElem_replicate, List.getD_eq_default _ _ (by omega)]

/-- Settles O34: the bytes pushed are the bits and their padding, so the reader has just those to give. -/
theorem mirrorProperty : Obligations.MirrorProperty := by
  intro bits bytes s t u he h0 hrun ht hsnk hue hsource hcnt hpos
  have hun : u.unread = bits ++ padding bits := by
    rw [unread_of_exhausted hcnt, hsource, hpos]
    exact stream_of_written he h0 hrun ht hsnk
  have hlen : (bits ++ padding bits).length = bits.length + (8 - bits.length % 8) % 8 := by simp
  rw [← hlen]
  refine ⟨fun k hk => ?_, ?_⟩
  · have hsplit : u.clearDone.unread = (bits ++ padding bits).take (k + 1) ++ (bits ++ padding bits).drop (k + 1) :=
      hun.trans (List.take_append_drop ..).symm
    obtain ⟨v, hv, -, -⟩ := getBits_of_unread .raw hsplit
    rw [List.length_take_of_le hk] at hv
    obtain ⟨hruns, hve⟩ := runAll_brBit_reads (Nat.succ_ne_zero k) hue hv
    rw [bitsValue_take_mod_two hk, getElem_append_padding hk] at hruns
    exact ⟨_, hruns, hve, setRes_res_toNat (toNat_lt_word _) v⟩
  · obtain ⟨v, hv, hve, hstatus⟩ := runAll_brBit_truncated (n := (bits ++ padding bits).length + 1)
      (by rw [hun]; exact Nat.lt_succ_self _) hue
    refine ⟨v, hv, hve, ?_, ?_⟩
    · rw [State.cause, hstatus]; decide
    · rw [State.sub, hstatus]; decide

/-! ### The decoder's runs (R182, R183) -/

/-- Settles O50: each `DecSym()` finds the entry whose code stands next, in the order of the entries. -/
theorem decBodyDecodes : Obligations.DecBodyDecodes := by
  intro s es rest he hdt hlen hmem hun hroom
  obtain ⟨hentries, hcode⟩ := hdt he
  obtain ⟨t, ht, d, hrest⟩ := decSyms_succeeds (s := s.clearDone) hentries hcode hmem hlen.le hun hroom
  have hrem : t.decRem = 0 := by
    have hdec : t.decRem.toNat + es.length = s.decRem.toNat := d.decRem
    exact BitVec.eq_of_toNat_eq (Nat.add_eq_right.1 (hdec.trans hlen.symm))
  have hrule : ruleOf .decBody s.clearDone = .ok t := by rwa [hlen] at ht
  have hframe := d.frame
  rw [hrem, d.snk] at hframe
  exact ⟨t, exec_of_rule_ok hrule he, hframe, hrest, d.res⟩

/-- Settles O51: after `Init()` the header is parsed and its body decoded, which is all of the file that is read. -/
theorem decodeReadsFile : Obligations.DecodeReadsFile := by
  intro s entries es rest he ho htable hsize hmem hstream hroom
  obtain ⟨t, ht, f, hrest⟩ := decodeJob_succeeds (s := s.clearDone) htable hsize hmem hstream hroom
  have hsync : t.snkLen = BitVec.ofNat 64 es.length := by rw [State.snkLen, f.snk, List.length_map]
  refine ⟨t, exec_of_rule_ok (i := .decodeJob) ht he, ?_, hrest, f.res⟩
  have hframe := f.frame
  rw [init_clearDone ho he, State.clearDone_status, (ho.unfaulted he).1, hsync, f.snk, f.dt] at hframe
  exact hframe

end Sys2Proof.Machine
end

section
/-! PROOFS. The histogram commands (41_histogram.md R110 to R114): what each does to the counters and the total, where
`HIST.ACC` overflows, and that `HIST.SCAN` never does. -/

namespace Sys2Proof.Machine

open Sys2Proof

/-! ### `HistAcc` at the top of a counter, and the symbol it counts -/

/-- `HistAcc(s)` raises COUNT_OVERFLOW at the top of either counter (R111). -/
theorem histAcc_overflows {y : Byte} {s : State}
    (h : (tableGet s.hist y).toNat = 2 ^ 64 - 1 ∨ s.histTotal.toNat = 2 ^ 64 - 1) :
    histAcc y s = raise .countOverflow := by
  rw [← allOnes_toNat_64, BitVec.toNat_inj, BitVec.toNat_inj] at h
  exact if_pos h

theorem eq_symOperand_iff {sym : Nat} (h : sym < 256) (y : Byte) : symOperand sym = y ↔ y.toNat = sym := by
  rw [symOperand, ← BitVec.toNat_inj, BitVec.toNat_ofNat, Nat.mod_eq_of_lt h, eq_comm]

/-- Counting one symbol adds one to its own counter only. -/
theorem occurrences_symOperand {sym : Nat} (h : sym < 256) (y : Byte) :
    occurrences y [symOperand sym] = if y.toNat = sym then 1 else 0 := by
  simp only [occurrences, List.count_singleton, beq_iff_eq, eq_symOperand_iff h]

/-! ### The three commands -/

/-- Settles O35: below the top of both counters `HistAcc` counts its one symbol, and at the top of either it raises. -/
theorem histogramCounts : Obligations.HistogramCounts := by
  refine ⟨fun s he => ⟨histClear s.clearDone, exec_of_rule_ok rfl he, rfl, tableGet_replicate 0⟩, ?_⟩
  intro s sym he hsym
  refine ⟨fun hcount htotal => ?_, fun htop => ?_⟩
  · obtain ⟨t, ht⟩ := histAcc_succeeds (y := symOperand sym) (s := s.clearDone) hcount htotal
    have c := histAcc_ok ht
    refine ⟨t, exec_of_rule_ok ht he, c.frame, c.total, fun y => ?_⟩
    rw [← occurrences_symOperand hsym y]
    exact c.counts y
  · exact faultsWith_of_rule_raise (histAcc_overflows (s := s.clearDone) htop) he

/-- Settles O36: `HistClear` leaves room in every counter for as many bytes as `SRC_LEN` can say, so the count pass ends
well. -/
theorem histScanCounts : Obligations.HistScanCounts := by
  intro s he
  obtain ⟨t, ht, hframe, hcounts, htotal⟩ := countPass_counts s.clearDone
  rw [htotal] at hframe
  exact ⟨t, exec_of_rule_ok ht he, hframe, hcounts⟩

end Sys2Proof.Machine
end

section
/-! PROOFS. The tree-builder commands (42_tree_builder.md R120 to R130): the leaves `TREE.INIT` makes, the two nodes
`TREE.MERGE` joins, the tree `TREE.BUILD` finishes, and that it reads the histogram alone. -/

namespace Sys2Proof.Machine

open Sys2Proof

/-! ### `TREE.INIT` (R124) -/

/-- `TreeInit()` raises EMPTY without a present symbol (R124). -/
theorem treeInit_empty {s : State} (h : present s.hist = []) : treeInit s = raise .empty := by
  match hinit : treeInit s with
  | .ok t =>
    have hleaves := (treeInit_ok hinit).2
    rw [leavesOf_length, h] at hleaves
    exact absurd hleaves (by decide)
  | .error e => rw [(treeInit_error hinit).1]

/-- Settles O37: all the indices below the number of leaves are in `PQ`, in rising order. -/
theorem treeInitLeaves : Obligations.TreeInitLeaves := by
  intro s he
  refine ⟨fun hp => ?_, fun hp => faultsWith_of_rule_raise (treeInit_empty (s := s.clearDone) hp) he⟩
  obtain ⟨t, ht⟩ := treeInit_succeeds (s := s.clearDone) hp
  have hframe := (treeInit_ok ht).1
  have hpq : t.pq = firstIndices (present s.hist).length := by rw [hframe, ← leavesOf_length]; rfl
  have hbound : (present s.hist).length ≤ 512 := (present_length_le s.hist).trans (by decide)
  refine ⟨t, exec_of_rule_ok ht he, ?_, ?_, fun i => ?_⟩
  · rw [hpq, ← leavesOf_eq_map, ← leavesOf_length]
    exact hframe
  · rw [hpq]
    exact firstIndices_rising hbound
  · rw [hpq]
    exact mem_firstIndices hbound

/-! ### The two least nodes (R122) -/

theorem pqExtractMin_of_ne_nil (nodes : List Node) {pq : List NodeIdx} (h : pq ≠ []) :
    ∃ a, pqExtractMin nodes pq = some (a, pq.erase a) := by
  cases pq with
  | nil => exact absurd rfl h
  | cons i q => exact ⟨_, rfl⟩

/-- `Key` is a strict total order, so a set has one least member (R120). -/
theorem least_unique {nodes : List Node} {pq : List NodeIdx} {a b : NodeIdx}
    (ha : a ∈ pq) (aLeast : ∀ j ∈ pq, j = a ∨ Before nodes a j)
    (hb : b ∈ pq) (bLeast : ∀ j ∈ pq, j = b ∨ Before nodes b j) : a = b := by
  rcases aLeast b hb with h | hab
  · exact h.symm
  · rcases bLeast a ha with h | hba
    · exact h
    · exact absurd (hab.trans hba) Before.irrefl

/-- `a` is the least member of `PQ` and `b` the next (R122). -/
structure TwoLeast (a b : NodeIdx) (s : State) : Prop where
  aMem : a ∈ s.pq
  aLeast : ∀ j ∈ s.pq, j = a ∨ Before s.node a j
  bMem : b ∈ s.pq.erase a
  bLeast : ∀ j ∈ s.pq.erase a, j = b ∨ Before s.node b j

/-- With two nodes or more, `TreeMerge()` joins the two least (R125). -/
theorem treeMerge_joins {s : State} (h : 2 ≤ s.pq.length) : ∃ a b, TwoLeast a b s ∧
    treeMerge s = joinNodes a b ((s.pq.erase a).erase b) s := by
  obtain ⟨a, ha⟩ := pqExtractMin_of_ne_nil s.node (List.ne_nil_of_length_pos (Nat.zero_lt_of_lt h))
  obtain ⟨aMem, -, aLeast⟩ := pqExtractMin_some ha
  have hrest : 0 < (s.pq.erase a).length := by rw [List.length_erase_of_mem aMem]; omega
  obtain ⟨b, hb⟩ := pqExtractMin_of_ne_nil s.node (List.ne_nil_of_length_pos hrest)
  obtain ⟨bMem, -, bLeast⟩ := pqExtractMin_some hb
  exact ⟨a, b, ⟨aMem, aLeast, bMem, bLeast⟩, by simp only [treeMerge, ha, hb]⟩

section
variable {a b : NodeIdx} {s t : State} {leaves inner : List Node}

/-- What `TreeMerge()` merges are the two least. -/
theorem TwoLeast.merged (l : TwoLeast a b s) (h : treeMerge s = .ok t) : Merged a b s t := by
  obtain ⟨c, d, m⟩ := treeMerge_ok h
  obtain rfl := least_unique l.aMem l.aLeast m.aMem m.aLeast
  obtain rfl := least_unique l.bMem l.bLeast m.bMem m.bLeast
  exact m

/-! ### `TREE.MERGE` (R125) -/

/-- A merge changes the tree only, and the count of its new node is the sum of the two. -/
theorem Merged.frame_node (m : Merged a b s t) :
    t = { s with node := s.node ++ [.internal ((nodeAt s.node a).cnt + (nodeAt s.node b).cnt) a b]
                 pq := t.pq, root := t.root, rootValid := t.rootValid } := by
  rw [BitVec.add_def, ← m.node]
  exact m.frame

/-- After a merge `PQ` holds the members not merged and the new node (R121, R122, R125). -/
theorem Merged.mem_pq (m : Merged a b s t) (sh : TreeShape s.node leaves inner s.pq s.root s.rootValid) (i : NodeIdx) :
    i ∈ t.pq ↔ (i ∈ s.pq ∧ i ≠ a ∧ i ≠ b) ∨ i.toNat = s.node.length := by
  rw [m.pq_eq sh, List.mem_append, Merged.mem_rest sh, List.mem_singleton, ← BitVec.toNat_inj, m.newest sh]

end

/-- Settles O38: with two nodes or more the two least are joined, which ends well exactly where their sum fits. -/
theorem treeMergeJoins : Obligations.TreeMergeJoins := by
  intro s he htree
  obtain ⟨leaves, inner, sh⟩ := htree he
  refine ⟨fun h2 => ?_, fun h2 => faultsWith_of_rule_raise (treeMerge_underflow (s := s.clearDone) h2) he⟩
  obtain ⟨a, b, l, hjoins⟩ := treeMerge_joins (s := s.clearDone) h2
  obtain ⟨hba, hb⟩ := (List.Nodup.mem_erase_iff sh.nodup).1 l.bMem
  refine ⟨a, b, l.aMem, hb, hba.symm, fun j hj hja => (l.aLeast j hj).resolve_left hja, fun j hj hja hjb =>
    (l.bLeast j ((List.Nodup.mem_erase_iff sh.nodup).2 ⟨hja, hj⟩)).resolve_left hjb, fun hfits => ?_, fun hover => ?_⟩
  · obtain ⟨t, ht⟩ := joinNodes_fits (rest := (s.pq.erase a).erase b) (s := s.clearDone) hfits
    have ht := hjoins.trans ht
    have m := l.merged ht
    obtain ⟨sh', (hlen : t.pq.length + 1 = s.pq.length)⟩ := m.shape sh
    have hone : t.pq.length = 1 ↔ s.pq.length = 2 := by omega
    refine ⟨t, exec_of_rule_ok ht he, m.frame_node, sh'.rising, m.mem_pq sh, fun h => ?_, fun h =>
      m.unrooted (mt hone.1 h)⟩
    obtain ⟨hroot, hvalid⟩ := m.rooted (hone.2 h)
    exact ⟨hroot ▸ m.newest sh, hvalid⟩
  · exact faultsWith_of_rule_raise (hjoins.trans (joinNodes_overflow (s := s.clearDone) hover)) he

/-! ### `TREE.BUILD` (R126) -/

theorem treeBuild_empty {s : State} (h : present s.hist = []) : treeBuild s = raise .empty := by
  rw [treeBuild, treeInit_empty h, error_bind]

/-- Settles O39: the merges keep the shape and the sum of the counts, and end with one node. -/
theorem treeBuildFinishes : Obligations.TreeBuildFinishes := by
  intro s he
  refine ⟨fun hp hsum => ?_, fun hp => faultsWith_of_rule_raise (treeBuild_empty (s := s.clearDone) hp) he⟩
  obtain ⟨t, ht⟩ := treeBuild_succeeds (s := s.clearDone) hp hsum
  have b := treeBuild_ok ht
  have hsize : t.node.length + 1 = 2 * (present s.hist).length := b.size
  have hlast := b.last
  have hframe := b.frame
  obtain ⟨inner, sh⟩ := b.shape
  rw [b.queue, b.rooted] at hframe
  rw [State.clearDone_toEngine, leavesOf_eq_map, b.rooted] at sh
  exact ⟨t, exec_of_rule_ok ht he, hframe, by omega, by omega, ⟨inner, sh⟩, b.total⟩

/-! ### The tree depends on the histogram alone (R128) -/

/-- `u` with the tree of `s`: the elements the tree builder writes. -/
abbrev withTree (u s : State) : State :=
  { u with node := s.node, pq := s.pq, root := s.root, rootValid := s.rootValid }

section
variable (u s : State)

/-- `TreeInit()` reads the histogram alone (R124). -/
theorem treeInit_withTree (h : u.hist = s.hist) :
    treeInit u = treeInit s >>= fun t => .ok (withTree u t) := by
  unfold treeInit
  rw [h]
  simp only
  split
  · rfl
  · split <;> simp only [ok_bind, withTree, h]

/-- The join reads the tree alone (R125). -/
theorem joinNodes_withTree (a b : NodeIdx) (rest : List NodeIdx) :
    joinNodes a b rest (withTree u s) = joinNodes a b rest s >>= fun t => .ok (withTree u t) := by
  simp only [joinNodes]
  split
  · rfl
  · split <;> rfl

/-- `TreeMerge()` reads the tree alone (R125). -/
theorem treeMerge_withTree : treeMerge (withTree u s) = treeMerge s >>= fun t => .ok (withTree u t) := by
  simp only [treeMerge]
  match pqExtractMin s.node s.pq with
  | none => rfl
  | some (a, pq1) =>
    match hb : pqExtractMin s.node pq1 with
    | none => simp only [hb]; rfl
    | some (b, pq2) => simp only [hb]; exact joinNodes_withTree u s a b pq2

/-- So do the merges of `TREE.BUILD` (R126). -/
theorem mergeAll_withTree (n : Nat) : mergeAll n (withTree u s) = mergeAll n s >>= fun t => .ok (withTree u t) := by
  induction n generalizing s with
  | zero => rfl
  | succ n ih =>
    rw [mergeAll, mergeAll]
    split
    · rw [treeMerge_withTree, bind_assoc, bind_assoc]
      exact bind_congr ih
    · rfl

/-- `TreeBuild()` reads the histogram alone (R128). -/
theorem treeBuild_withTree (h : u.hist = s.hist) :
    treeBuild u = treeBuild s >>= fun t => .ok (withTree u t) := by
  rw [treeBuild, treeBuild, treeInit_withTree u s h, bind_assoc, bind_assoc]
  exact bind_congr fun t => mergeAll_withTree u t t.pq.length

end

/-- Settles O40: `TreeBuild()` from the one state is that from the other, with the tree put in. -/
theorem treeFromHistogramAlone : Obligations.TreeFromHistogramAlone := by
  intro s u t v hs hu hhist ht hv
  have hbuild := treeBuild_withTree u.clearDone s.clearDone hhist.symm
  rw [exec_treeBuild] at ht
  rcases dispatch_cases ht with ⟨hfaulted, -⟩ | ⟨-, hok⟩ | ⟨-, k, hraise, rfl⟩
  · rw [hs] at hfaulted
    cases hfaulted
  · rw [hok, ok_bind] at hbuild
    rw [exec_treeBuild, dispatch_completes hu hbuild] at hv
    cases hv
    have hstatus : t.status = s.clearDone.status := rule_status (i := .treeBuild) (by decide) hok
    have ht : t.err = false := by rw [State.err, hstatus]; exact s.clearDone_err.trans hs
    exact ⟨ht.trans (u.clearDone_err.trans hu).symm, fun _ => ⟨rfl, rfl, rfl, rfl⟩⟩
  · rw [hraise, error_bind] at hbuild
    rw [exec_treeBuild, dispatch_raises hu hbuild] at hv
    cases hv
    exact ⟨by rw [State.enterFault_err, State.enterFault_err], by simp⟩

end Sys2Proof.Machine
end

section
/-! PROOFS. The code-table command (43_code_table.md R140 to R145): the codes `CODE.WALK` derives from the tree and the
faults that stop it; and the faults of `ENCODE` (45_encoder.md R173), where R143 keeps every code within 63 bits. -/

namespace Sys2Proof.Machine

open Sys2Proof

/-! ### `CODE.WALK` (R140 to R145) -/

theorem codeWalk_noTree {s : State} (h : s.rootValid = false) : codeWalk s = raise .noTree := if_pos h

section
variable {s t : State} {leaves inner : List Node}

/-- The code of a single leaf is `0`, and no other symbol has an entry (R142). -/
theorem Coded.leaf_entry (w : Coded s t) {c : Count} {y : Byte} (h : nodeAt s.node s.root = .leaf c y) (z : Byte) :
    tableGet t.ct z = if z = y then some { code := 0, len := 1 } else none := by
  rcases w.entries with ⟨_, _, hleaf, hct⟩ | ⟨⟨_, _, _, hinner⟩, -⟩
  · rw [h] at hleaf
    cases hleaf
    rw [hct, tableGet_tableSet, tableGet_replicate]
  · rw [h] at hinner
    cases hinner

/-- Below an Internal root every entry is that of a path of at most 63 branches (R140). -/
theorem Coded.inner_entry (w : Coded s t) {c : Count} {l r : NodeIdx} (h : nodeAt s.node s.root = .internal c l r)
    (y : Byte) :
    (∃ bits, leafAlong s.node bits s.root = some y ∧ tableGet t.ct y = some (entryOf bits) ∧ bits.length ≤ 63) ∨
      ((∀ bits, leafAlong s.node bits s.root ≠ some y) ∧ tableGet t.ct y = none) := by
  rcases w.entries with ⟨_, _, hleaf, -⟩ | ⟨-, hpaths⟩
  · rw [h] at hleaf
    cases hleaf
  · exact (hpaths y).imp_left fun ⟨bits, hbits, hentry, _, hlen⟩ => ⟨bits, hbits, hentry, hlen⟩

/-- A symbol has one path, so its entry is that of any path to it (R130, R140). -/
theorem Coded.path_entry (w : Coded s t) (sh : TreeShape s.node leaves inner s.pq s.root s.rootValid) {c : Count}
    {l r : NodeIdx} (h : nodeAt s.node s.root = .internal c l r) {bits : List Bool} {y : Byte}
    (hbits : leafAlong s.node bits s.root = some y) : tableGet t.ct y = some (entryOf bits) ∧ bits.length ≤ 63 := by
  rcases w.inner_entry h y with ⟨_, hbits', hentry⟩ | ⟨hnone, -⟩
  · rwa [sh.code_unique hbits hbits']
  · exact absurd hbits (hnone bits)

/-- A symbol that no path reaches has no entry (R140). -/
theorem Coded.absent_entry (w : Coded s t) {c : Count} {l r : NodeIdx} (h : nodeAt s.node s.root = .internal c l r)
    {y : Byte} (hnone : ∀ bits, leafAlong s.node bits s.root ≠ some y) : tableGet t.ct y = none := by
  rcases w.inner_entry h y with ⟨bits, hbits, -⟩ | ⟨-, hentry⟩
  · exact absurd hbits (hnone bits)
  · exact hentry

/-- A walk that ends well met no leaf below depth 63 (R140). -/
theorem Coded.depth_le (w : Coded s t) (sh : TreeShape s.node leaves inner s.pq s.root s.rootValid)
    (hv : s.rootValid = true) {bits : List Bool} {y : Byte} (hbits : leafAlong s.node bits s.root = some y) :
    bits.length ≤ 63 := by
  cases hroot : nodeAt s.node s.root with
  | internal c l r => exact (w.path_entry sh hroot hbits).2
  | leaf c z =>
    have hget := (getElem?_of_nodeAt (sh.root_lt hv)).trans (congrArg some hroot)
    obtain ⟨rfl, -⟩ := leafAlong_beyond (more := bits) (leafAlong_nil.2 ⟨c, hget⟩) hbits
    exact Nat.zero_le _

/-- With a finished tree and a leaf below depth 63, `CodeWalk()` raises CODE_TOO_LONG (R140, R141). -/
theorem codeWalk_tooLong (sh : TreeShape s.node leaves inner s.pq s.root s.rootValid) (hv : s.rootValid = true)
    {bits : List Bool} {y : Byte} (hbits : leafAlong s.node bits s.root = some y) (hlong : 63 < bits.length) :
    codeWalk s = raise .codeTooLong := by
  match hwalk : codeWalk s with
  | .ok t => exact absurd ((codeWalk_ok sh hwalk).depth_le sh hv hbits) (Nat.not_le.2 hlong)
  | .error e =>
    rcases codeWalk_error sh hwalk with ⟨-, hnone⟩ | ⟨rfl, -⟩
    · rw [hv] at hnone
      cases hnone
    · rfl

end

/-- Settles O41: in a tree of the shape each leaf has one path from the root, and the walk records it. -/
theorem codeWalkCodes : Obligations.CodeWalkCodes := by
  intro s he htree
  obtain ⟨leaves, inner, sh⟩ := htree he
  refine ⟨fun hv => ?_, fun hv ⟨bits, y, hbits, hlong⟩ => ?_, fun hv hdepth => ?_⟩
  · exact faultsWith_of_rule_raise (codeWalk_noTree (s := s.clearDone) hv) he
  · exact faultsWith_of_rule_raise (codeWalk_tooLong (s := s.clearDone) sh hv hbits hlong) he
  · obtain ⟨t, ht⟩ := codeWalk_succeeds (s := s.clearDone) sh hv hdepth
    have w := codeWalk_ok (s := s.clearDone) sh ht
    exact ⟨t, exec_of_rule_ok ht he, w.frame, fun c y => w.leaf_entry, fun c l r hroot =>
      ⟨fun bits y hbits => (w.path_entry sh hroot hbits).1, fun y => w.absent_entry hroot⟩⟩

/-! ### The faults of `ENCODE` (R143, R173) -/

theorem encodeJob_empty {s : State} (h : s.srcLen = 0) : encodeJob s = raise .empty := if_pos h

theorem encodeJob_size {s : State} (h : 2 ^ 32 ≤ s.srcLen.toNat) : encodeJob s = raise .size := by
  have h0 : s.srcLen ≠ 0 := by rintro h0; rw [h0] at h; exact absurd h (by decide)
  have hmax : s.srcLen.toNat > Config.maxSize := by rw [Config.maxSize]; omega
  rw [encodeJob, if_neg h0, if_pos hmax]

/-- An input that fits the size field lets `ENCODE` raise SINK_FULL only: its codes are short enough (R143, R173). -/
theorem encodeJob_raises {s : State} {k : Trap} (h1 : 1 ≤ s.srcLen.toNat) (hmax : s.srcLen.toNat ≤ 2 ^ 32 - 1)
    (h : encodeJob s = raise k) : k = .sinkFull := by
  rcases encodeJob_error h with ⟨-, hnil⟩ | ⟨-, hlong⟩ | hfull
  · rw [← source_length, hnil] at h1
    cases h1
  · rw [source_length] at hlong
    omega
  · cases hfull
    rfl

/-- A command whose rule ends well leaves `STATUS.ERR` as it is (R17). -/
theorem rule_err {i : Instr} (hn : i ≠ .ctlNop) (hr : i ≠ .ctlReset) {s t : State} (h : ruleOf i s = .ok t) :
    t.err = s.err := by
  rcases (rule_kept hn hr h).status with ⟨-, -, hstatus⟩ | ⟨-, hstatus, -⟩
  · rw [State.err, State.err, hstatus]
  · simp [State.err, hstatus]

/-- Settles O48: the two checks come first, and past them only a full sink stops a unit. -/
theorem encodeFaults : Obligations.EncodeFaults := by
  intro s he
  refine ⟨fun h0 => ?_, fun hlong => ?_, fun t h1 hmax hexec hfault => ?_⟩
  · exact faultsWith_of_rule_raise (encodeJob_empty (s := s.clearDone) h0) he
  · exact faultsWith_of_rule_raise (encodeJob_size (s := s.clearDone) hlong) he
  · rw [exec_encodeJob] at hexec
    rcases dispatch_cases hexec with ⟨hignored, -⟩ | ⟨-, hok⟩ | ⟨-, k, hraise, rfl⟩
    · rw [he] at hignored
      cases hignored
    · rw [rule_err (i := .encodeJob) (by decide) (by decide) hok, State.clearDone_err, he] at hfault
      cases hfault
    · rw [encodeJob_raises (s := s.clearDone) h1 hmax hraise]
      exact faultedWith_enterFault .sinkFull (encode .encodeJob) s

end Sys2Proof.Machine
end

section
/-! PROOFS. The header commands (44_format_codec.md R150 to R155): what `HDR.WRITE` writes and the faults it raises in
their order, the headers `HDR.PARSE` accepts, and its faults in the order of the stream. -/

namespace Sys2Proof.Machine

open Sys2Proof

/-! ### `HDR.WRITE` (R150, R151) -/

section
variable {s : State}

theorem hdrWrite_empty (h : ctCount s.ct = 0) : hdrWrite s = raise .empty := if_pos h

theorem hdrWrite_size (h : 1 ≤ ctCount s.ct) (hsize : 2 ^ 32 ≤ s.histTotal.toNat) : hdrWrite s = raise .size := by
  have hmax : s.histTotal.toNat > Config.maxSize := by rw [Config.maxSize]; omega
  rw [hdrWrite, if_neg (by omega), if_pos hmax]

/-- Past its two checks `HdrWrite()` raises SINK_FULL where the sink does not take the header's bytes (R42, R150). -/
theorem hdrWrite_full (h : 1 ≤ ctCount s.ct) (hmax : s.histTotal.toNat ≤ 2 ^ 32 - 1) (h0 : s.sinkTakes 0)
    (hfull : ¬ s.takesBits (headerBits (tableEntries s.ct) s.histTotal.toNat).length) :
    hdrWrite s = raise .sinkFull := by
  match hw : hdrWrite s with
  | .ok t => exact absurd ((hdrWrite_ok hw).1.had_room h0) hfull
  | .error e =>
    rcases hdrWrite_error hw with ⟨-, hempty⟩ | ⟨-, -, hlarge⟩ | ⟨rfl, -⟩
    · omega
    · omega
    · rfl

end

/-- Settles O42: past the two checks, parts 1 to 4 of the file are written exactly where the sink has room for them. -/
theorem hdrWriteHeader : Obligations.HdrWriteHeader := by
  intro s he
  refine ⟨fun h1 hmax => ⟨fun hroom => ?_, fun h0 hfull => ?_⟩, fun hempty => ?_, fun h1 hsize => ?_⟩
  · obtain ⟨t, ht⟩ := hdrWrite_succeeds (s := s.clearDone) h1 hmax hroom
    obtain ⟨w, -⟩ := hdrWrite_ok ht
    exact ⟨t, exec_of_rule_ok ht he, w.frame, w.stream, w.tidy, fun _ => w.snkRead⟩
  · exact faultsWith_of_rule_raise (hdrWrite_full (s := s.clearDone) h1 hmax h0 hfull) he
  · exact faultsWith_of_rule_raise (hdrWrite_empty (s := s.clearDone) hempty) he
  · exact faultsWith_of_rule_raise (hdrWrite_size (s := s.clearDone) h1 hsize) he

/-! ### The headers `HDR.PARSE` accepts (R152, R153) -/

/-- A command that ends unfaulted ran its rule to the end (R193, R203). -/
theorem rule_ok_of_exec {i : Instr} {s t : State} (h : exec i s = .next t) (he : s.err = false) (ht : t.err = false)
    (hn : i ≠ .ctlNop := by nofun) (hr : i ≠ .ctlReset := by nofun) : ruleOf i s.clearDone = .ok t := by
  rw [exec_eq_dispatch hn hr] at h
  rcases dispatch_cases h with ⟨hignored, -⟩ | ⟨-, hok⟩ | ⟨-, k, -, rfl⟩
  · rw [he] at hignored
    cases hignored
  · exact hok
  · rw [State.enterFault_err] at ht
    cases ht

/-- Settles O43: every header with an accepted table is parsed, and a parse that ends well has read one. -/
theorem hdrParseAccepts : Obligations.HdrParseAccepts := by
  intro s he
  refine ⟨fun entries size rest htable hsize hun => ?_, fun t hexec ht => ?_⟩
  · obtain ⟨t, ht, p, hrest⟩ := hdrParse_of_unread (s := s.clearDone) htable hsize hun
    have hrem : t.decRem = BitVec.ofNat 32 size := by rw [← p.decRem, BitVec.ofNat_toNat, BitVec.setWidth_eq]
    have hframe := p.frame
    rw [p.dt, hrem] at hframe
    exact ⟨t, exec_of_rule_ok ht he, hframe, hrest⟩
  · obtain ⟨entries, size, p⟩ := hdrParse_ok (rule_ok_of_exec hexec he ht)
    rw [p.dt, p.decRem]
    exact ⟨p.accepted, p.stream⟩

/-! ### A field that can be read (R97) -/

section
variable {s : State} {rest : List Bool} {n : Nat}

theorem getBits_of_length {bits : List Bool} (tag : Field) (hn : bits.length = n) (h : s.unread = bits ++ rest) :
    ∃ t, getBits n tag s = .ok (bitsValue bits, t) ∧ t.unread = rest := by
  subst hn
  obtain ⟨t, ht, -, hrest⟩ := getBits_of_unread tag h
  exact ⟨t, ht, hrest⟩

/-- `GetBits(n, tag)` gives back the number whose bit string stands next (R97). -/
theorem getBits_bitString {v : Nat} (tag : Field) (hv : v < 2 ^ n) (h : s.unread = bitString v n ++ rest) :
    ∃ t, getBits n tag s = .ok (v, t) ∧ t.unread = rest := by
  have hread := getBits_of_length tag (bitString_length v n) h
  rwa [bitsValue_bitString_of_lt hv] at hread

end

/-! ### One entry that cannot be read (R152) -/

section
variable {s : State} {sym more : List Bool}

theorem getEntry_truncated_sym (h : s.unread.length < 8) : getEntry s = raise (.truncated .entrySym) := by
  rw [getEntry, getBits_truncated .entrySym h, error_bind]

theorem getEntry_truncated_len (hsym : sym.length = 8) (h : s.unread = sym ++ more) (hmore : more.length < 6) :
    getEntry s = raise (.truncated .entryLen) := by
  obtain ⟨a, ha, rfl⟩ := getBits_of_length .entrySym hsym h
  simp only [getEntry, ha, ok_bind, getBits_truncated .entryLen hmore, error_bind]

theorem getEntry_badLen (hsym : sym.length = 8) (h : s.unread = sym ++ bitString 0 6 ++ more) :
    getEntry s = raise .badLen := by
  rw [List.append_assoc] at h
  obtain ⟨a, ha, hlen⟩ := getBits_of_length .entrySym hsym h
  obtain ⟨b, hb, -⟩ := getBits_bitString .entryLen (by decide) hlen
  simp only [getEntry, ha, hb, ok_bind, if_true]

theorem getEntry_truncated_code {len : BitVec 6} (h0 : len ≠ 0) (hsym : sym.length = 8)
    (h : s.unread = sym ++ bitString len.toNat 6 ++ more) (hmore : more.length < len.toNat) :
    getEntry s = raise (.truncated .entryCode) := by
  have hne : len.toNat ≠ 0 := fun hz => h0 (BitVec.eq_of_toNat_eq hz)
  rw [List.append_assoc] at h
  obtain ⟨a, ha, hlen⟩ := getBits_of_length .entrySym hsym h
  obtain ⟨b, hb, rfl⟩ := getBits_bitString .entryLen len.isLt hlen
  simp only [getEntry, ha, hb, ok_bind, if_neg hne, getBits_truncated .entryCode hmore, error_bind]

end

/-! ### The parse in stream order (R152) -/

/-- `HdrParse()` with `n` entries to go: they are read, then the size, and the table is checked (R152). -/
def parseFrom (n : Nat) (s : State) : Exec State := do
  let s ← getEntries n s
  let (size, s) ← getBits 32 .size s
  if prefixFree s.dt = false then raise .badTable else .ok { s with decRem := BitVec.ofNat 32 size }

section
variable {s : State} {es : List DecEntry} {n : Nat} {rest : List Bool}

theorem hdrParse_truncated_magic (h : s.unread.length < 56) : hdrParse s = raise (.truncated .magic) := by
  rw [hdrParse, getBits_truncated .magic h, error_bind]

theorem hdrParse_formatMismatch {m : List Bool} (hm : m.length = 56) (hne : m ≠ bitString Config.magic 56)
    (h : s.unread = m ++ rest) : hdrParse s = raise .formatMismatch := by
  have hvalue : bitsValue m ≠ Config.magic := fun e => hne (by rw [← e, bitString_bitsValue_of_length hm])
  obtain ⟨a, ha, -⟩ := getBits_of_length .magic hm h
  simp only [hdrParse, ha, ok_bind, if_pos hvalue]

/-- With the magic there, the count comes next and then its entries (R152). -/
theorem hdrParse_of_magic (h : s.unread = bitString Config.magic 56 ++ rest) : ∃ a, a.unread = rest ∧
    hdrParse s = getBits 8 .count a >>= fun (c, b) => parseFrom (c + 1) { b with dt := [] } := by
  obtain ⟨a, ha, hrest⟩ := getBits_bitString .magic (by decide) h
  refine ⟨a, hrest, ?_⟩
  rw [hdrParse, ha, ok_bind]
  exact if_neg (not_not_intro rfl)

theorem hdrParse_truncated_count (h : s.unread = bitString Config.magic 56 ++ rest) (hrest : rest.length < 8) :
    hdrParse s = raise (.truncated .count) := by
  obtain ⟨a, rfl, ha⟩ := hdrParse_of_magic h
  rw [ha, getBits_truncated .count hrest, error_bind]

/-- The entries that were read and those to come are entries of one loop (R152). -/
theorem parseFrom_after {u : State} (h : getEntries es.length s = .ok u) (hlen : es.length ≤ n) :
    parseFrom n s = parseFrom (n - es.length) u := by
  rw [parseFrom, parseFrom, ← getEntries_add h, Nat.add_sub_cancel' hlen]

/-- Behind the start of a header its entries are held, and the parse goes on with those to come (R152). -/
theorem hdrParse_of_headerStart (h1 : 1 ≤ n) (h256 : n ≤ 256) (hes : ∀ e ∈ es, EntryOk e)
    (h : s.unread = headerStart n es ++ rest) (hlen : es.length ≤ n) : ∃ u, u.unread = rest ∧ u.dt = es ∧
      hdrParse s = parseFrom (n - es.length) u := by
  simp only [headerStart, List.append_assoc] at h
  obtain ⟨a, ha, hparse⟩ := hdrParse_of_magic h
  obtain ⟨b, hb, hentries⟩ := getBits_bitString .count (by omega) ha
  obtain ⟨u, hu, -, hrest⟩ := getEntries_of_unread (s := { b with dt := [] }) hes hentries
  refine ⟨{ u with dt := es }, hrest, rfl, ?_⟩
  rw [hparse, hb, ok_bind]
  simp only [Nat.sub_add_cancel h1]
  exact parseFrom_after hu hlen

/-- An entry to come that cannot be read ends the parse (R152). -/
theorem parseFrom_raises {k : Trap} (hn : 0 < n) (h : getEntry s = raise k) : parseFrom n s = raise k := by
  cases n with
  | zero => cases hn
  | succ n => rw [parseFrom, getEntries, h, error_bind, error_bind]

theorem parseFrom_truncated_size (h : s.unread.length < 32) : parseFrom 0 s = raise (.truncated .size) := by
  rw [parseFrom, getEntries, ok_bind, getBits_truncated .size h, error_bind]

/-- With the size there the table is checked last (R152, R154). -/
theorem parseFrom_badTable (h : 32 ≤ s.unread.length) (hes : ∀ e ∈ s.dt, EntryOk e)
    (hbad : ¬ PrefixCode (s.dt.map DecEntry.bits)) : parseFrom 0 s = raise .badTable := by
  obtain ⟨t, ht, r, -⟩ := getBits_of_unread .size (List.take_append_drop 32 s.unread).symm
  rw [List.length_take_of_le h] at ht
  have hfree : prefixFree t.dt = false := by
    rw [r.dt, ← Bool.not_eq_true, prefixFree_iff fun e he => (hes e he).2]
    exact hbad
  rw [parseFrom, getEntries, ok_bind, ht, ok_bind]
  exact if_pos hfree

end

/-- Settles O44: up to the fault the header is read as it stands, and the next field is the one that raises. -/
theorem hdrParseFaults : Obligations.HdrParseFaults := by
  intro s he
  refine ⟨fun h => ?_, fun m rest hm hne h => ?_, fun rest hrest h => ?_, fun n es rest h1 h256 hlen hes h => ?_⟩
  · exact faultsWith_of_rule_raise (hdrParse_truncated_magic (s := s.clearDone) h) he
  · exact faultsWith_of_rule_raise (hdrParse_formatMismatch (s := s.clearDone) hm hne h) he
  · exact faultsWith_of_rule_raise (hdrParse_truncated_count (s := s.clearDone) h hrest) he
  obtain ⟨u, rfl, rfl, hparse⟩ := hdrParse_of_headerStart (s := s.clearDone) h1 h256 hes h hlen
  have entryRaises {k : Trap} (hlt : u.dt.length < n) (hk : getEntry u = raise k) : FaultsWith .hdrParse s k :=
    faultsWith_of_rule_raise (hparse.trans (parseFrom_raises (Nat.sub_pos_of_lt hlt) hk)) he
  have endRaises {k : Trap} (heq : u.dt.length = n) (hk : parseFrom 0 u = raise k) : FaultsWith .hdrParse s k :=
    faultsWith_of_rule_raise (hparse.trans (by rw [heq, Nat.sub_self, hk])) he
  refine ⟨fun hlt hshort => ?_, fun sym more hlt hsym hun hshort => ?_, fun sym more hlt hsym hun => ?_,
    fun sym more len hlt hsym h0 hun hshort => ?_, fun heq hshort => ?_, fun heq hsize hbad => ?_⟩
  · exact entryRaises hlt (getEntry_truncated_sym hshort)
  · exact entryRaises hlt (getEntry_truncated_len hsym hun hshort)
  · exact entryRaises hlt (getEntry_badLen hsym hun)
  · exact entryRaises hlt (getEntry_truncated_code h0 hsym hun hshort)
  · exact endRaises heq (parseFrom_truncated_size hshort)
  · exact endRaises heq (parseFrom_badTable hsize hes hbad)

end Sys2Proof.Machine
end

section
/-! PROOFS. The encoder commands (45_encoder.md R170 to R172): the codes they write and the faults they raise; and the
round trip (46_decoder.md R185). -/

namespace Sys2Proof.Machine

open Sys2Proof

/-! ### `ENC.SYM` (R170, R171) -/

theorem encSym_of_entry {y : Byte} {s : State} {e : CodeEntry} (h : tableGet s.ct y = some e) :
    encSym y s = putBits e.code.toNat e.len.toNat s := by rw [encSym, h]

theorem encSym_absent {y : Byte} {s : State} (h : tableGet s.ct y = none) : encSym y s = raise .noCode := by
  rw [encSym, h]

/-- Settles O45: the rule is `PutBits` of the symbol's entry, and `NO_CODE` where there is none. -/
theorem encSymWrites : Obligations.EncSymWrites := by
  intro s sym he _
  refine ⟨fun e hentry => ?_, fun hnone => ?_⟩
  · have hrule : ruleOf (.encSym sym) s.clearDone = putBits e.code.toNat e.len.toNat s.clearDone :=
      encSym_of_entry (s := s.clearDone) hentry
    refine ⟨fun hroom => ?_, fun h0 hfull => ?_⟩
    · obtain ⟨t, ht⟩ := putBits_succeeds e.code.toNat (s := s.clearDone) hroom
      have w := putBits_ok ht
      exact ⟨t, exec_of_rule_ok (hrule.trans ht) he, w.frame, w.stream, w.tidy, fun _ => w.snkRead⟩
    · exact faultsWith_of_rule_raise (hrule.trans (putBits_full _ (s := s.clearDone) h0 hfull)) he
  · exact faultsWith_of_rule_raise (encSym_absent (s := s.clearDone) hnone) he

/-! ### `ENC.BODY` (R172) -/

theorem ctValid_eq_false {s : State} {y : Byte} : s.ctValid y = false ↔ tableGet s.ct y = none := by
  simp [State.ctValid]

section
variable {s : State}

/-- With an entry for every source byte the emit pass raises SINK_FULL where the sink does not take the body's bytes. -/
theorem emitPass_full (hcodes : ∀ y ∈ s.source, s.ctValid y = true) (h0 : s.sinkTakes 0)
    (hfull : ¬ s.takesBits (bodyBits s.ct s.source).length) : emitPass s = raise .sinkFull := by
  rw [emitPass_eq]
  match hemit : s.source.foldlM (fun s y => encSym y s) s with
  | .ok t => exact absurd ((emitBytes_ok hemit).2.had_room h0) hfull
  | .error e =>
    rcases emitBytes_error hemit with ⟨-, y, hy, hnone⟩ | rfl
    · exact absurd (hcodes y hy) (by simp [ctValid_eq_false.2 hnone])
    · rfl

/-- The emit pass raises NO_CODE at the first source byte without an entry, where the codes before it have room. -/
theorem emitPass_noCode {before after : List Byte} {y : Byte} (hsource : s.source = before ++ y :: after)
    (hcodes : ∀ z ∈ before, s.ctValid z = true) (hnone : s.ctValid y = false)
    (hroom : s.takesBits (bodyBits s.ct before).length) : emitPass s = raise .noCode := by
  obtain ⟨t, ht⟩ := emitBytes_succeeds hcodes hroom
  have hct : t.ct = s.ct := (emitBytes_ok ht).2.ct
  rw [emitPass_eq, hsource, List.foldlM_append, ht, ok_bind, List.foldlM_cons,
    encSym_absent (hct ▸ ctValid_eq_false.1 hnone)]
  rfl

end

/-- Settles O46: the pass is `EncSym` of every source byte in order, which does not touch the table. -/
theorem encBodyWrites : Obligations.EncBodyWrites := by
  intro s he
  refine ⟨fun hcodes => ⟨fun hroom => ?_, fun h0 hfull => ?_⟩, fun before after y hsource hcodes hy hroom => ?_⟩
  · obtain ⟨t, ht⟩ := emitBytes_succeeds (s := s.clearDone) hcodes hroom
    have w := (emitBytes_ok ht).2
    exact ⟨t, exec_of_rule_ok (i := .encBody) ((emitPass_eq _).trans ht) he, w.frame, w.stream, w.tidy,
      fun _ => w.snkRead⟩
  · exact faultsWith_of_rule_raise (emitPass_full (s := s.clearDone) hcodes h0 hfull) he
  · exact faultsWith_of_rule_raise (emitPass_noCode (s := s.clearDone) hsource hcodes hy hroom) he

/-! ### The round trip (R185) -/

theorem ne_control_of_job {i : Instr} (hi : i = .encodeJob ∨ i = .decodeJob) : i ≠ .ctlNop ∧ i ≠ .ctlReset := by
  rcases hi with rfl | rfl <;> decide

/-- An unfaulted engine that runs a job whose rule ends well ends unfaulted with `DONE = 1` (R190, R193). -/
theorem exec_job {i : Instr} (hi : i = .encodeJob ∨ i = .decodeJob) {s t : State} (he : s.err = false)
    (h : ruleOf i s.clearDone = .ok t) : exec i s = .next t ∧ t.done = true ∧ t.err = false := by
  obtain ⟨hn, hr⟩ := ne_control_of_job hi
  refine ⟨exec_of_rule_ok h he hn hr, ?_, by rw [rule_err hn hr h, State.clearDone_err, he]⟩
  rcases (rule_kept hn hr h).status with ⟨henc, hdec, -⟩ | ⟨-, hstatus, -⟩
  · exact absurd hi (not_or.2 ⟨henc, hdec⟩)
  · simp [State.done, hstatus]

/-- Settles O52: `ENCODE` writes the file of its source, and `DECODE` reads a file back. -/
theorem roundTrip : Obligations.RoundTrip := by
  intro s he h1 hmax hroom
  rw [← source_length] at h1 hmax hroom
  obtain ⟨t, ht⟩ := encodeJob_succeeds (s := s.clearDone) h1 hmax hroom
  obtain ⟨-, -, w⟩ := encodeJob_ok ht
  obtain ⟨hexec, hdone, hok⟩ := exec_job (.inl rfl) he ht
  refine ⟨t, hexec, hdone, hok, fun u hu hsource hcap => ?_⟩
  rw [← source_length] at hcap
  obtain ⟨v, hv, hsnk⟩ := decode_encoded (u := u.clearDone) w hmax hsource hcap
  obtain ⟨hexec, hdone, hok⟩ := exec_job (.inr rfl) hu hv
  exact ⟨v, hexec, hdone, hok, hsnk⟩

end Sys2Proof.Machine
end

section
/-! PROOFS. What a command can tell of a state, and that a job's result depends on the source and the sink's capacity
alone (45_encoder.md R174, 70_reset_and_hazards.md R231). -/

namespace Sys2Proof.Machine

open Sys2Proof

/-! ### What a command can tell of a state (R231) -/

/-- The state as a command sees it: the source below `SRC_LEN`, the sink's capacity and the engine's own elements, with
everything else at a fixed value. A rule `f` sees no more than that where `f s.seen = State.seen <$> f s`. -/
def State.seen (s : State) : State :=
  { s with src := (List.range s.srcLen.toNat).map fun i => (i, s.srcRead i)
           cfg := { srcCap := 0, snkCap := s.cfg.snkCap }, host := [], faults := 0 }

@[simp] theorem seen_dt (s : State) : s.seen.dt = s.dt := rfl

section
variable {α β : Type} {v : α → α} {w : β → β}

/-- A sequence sees no more than its pieces do. -/
theorem bind_seen {x y : Exec α} {f g : α → Exec β} (hx : x = v <$> y) (hf : ∀ a, f (v a) = w <$> g a) :
    x >>= f = w <$> (y >>= g) := by
  rw [hx, bind_map_left, map_bind]
  exact bind_congr hf

/-- A choice by what is seen sees no more than its branches do. -/
theorem ite_seen {c : Prop} [Decidable c] {x x' y y' : Exec α} (hx : c → x = v <$> x') (hy : ¬ c → y = v <$> y') :
    (if c then x else y) = v <$> (if c then x' else y') := by
  split
  · exact hx ‹c›
  · exact hy ‹¬ c›

end

/-! ### The source (R41) -/

theorem Memory.read_listed (f : Nat → Byte) {l : List Nat} {i : Nat} (h : i ∈ l) :
    Memory.read (l.map fun j => (j, f j)) i = some (f i) := by
  induction l with
  | nil => cases h
  | cons j l ih =>
    rw [List.map_cons, Memory.read_cons]
    split
    · rename_i hj; rw [hj]
    · rename_i hj; exact ih ((List.mem_cons.1 h).resolve_left (Ne.symm hj))

theorem seen_srcRead {s : State} {i : Nat} (h : i < s.srcLen.toNat) : s.seen.srcRead i = s.srcRead i := by
  rw [State.srcRead, State.seen, Memory.read_listed s.srcRead (List.mem_range.2 h), Option.getD_some]

theorem seen_source (s : State) : s.seen.source = s.source :=
  List.map_congr_left fun _ hi => seen_srcRead (List.mem_range.1 hi)

/-- A pass over the source sees no more than the rule it applies to every byte. -/
theorem overSource_seen {f : Byte → State → Exec State} (hf : ∀ y s t, f y s = .ok t → t.src = s.src)
    (hseen : ∀ y s, f y s.seen = State.seen <$> f y s) (s : State) :
    overSource f s.seen.srcLen.toNat 0 s.seen = State.seen <$> overSource f s.srcLen.toNat 0 s := by
  rw [overSource_source hf, overSource_source hf, seen_source]
  generalize s.source = bytes
  induction bytes generalizing s with
  | nil => rfl
  | cons y bytes ih => exact bind_seen (hseen y s) ih

/-! ### The bit writer (R90 to R95) -/

theorem snkPush_seen (b : Byte) (s : State) : snkPush b s.seen = State.seen <$> snkPush b s :=
  ite_seen (fun _ => rfl) fun _ => rfl

theorem writeBit_seen (b : Bool) (s : State) : writeBit b s.seen = State.seen <$> writeBit b s :=
  ite_seen (fun _ => bind_seen (snkPush_seen _ s) fun _ => rfl) fun _ => rfl

theorem putBits_seen (v n : Nat) (s : State) : putBits v n s.seen = State.seen <$> putBits v n s := by
  induction n generalizing s with
  | zero => rfl
  | succ n ih => exact bind_seen (writeBit_seen _ s) ih

theorem flush_seen (s : State) : flush s.seen = State.seen <$> flush s :=
  ite_seen (fun _ => rfl) fun _ => bind_seen (snkPush_seen _ s) fun _ => rfl

/-! ### The bit reader (R96, R97) -/

/-- A refill reads the source only below `SRC_LEN`. -/
theorem refill_seen (tag : Field) (s : State) : refill tag s.seen = State.seen <$> refill tag s := by
  refine ite_seen (fun _ => ite_seen (fun _ => rfl) fun hmore => ?_) fun _ => rfl
  rw [seen_srcRead (s := s) (BitVec.not_le.1 hmore)]
  rfl

theorem readBit_seen (tag : Field) (s : State) : readBit tag s.seen = Prod.map id State.seen <$> readBit tag s :=
  bind_seen (refill_seen tag s) fun _ => rfl

theorem getBitsFrom_seen (tag : Field) (n v : Nat) (s : State) :
    getBitsFrom tag n v s.seen = Prod.map id State.seen <$> getBitsFrom tag n v s := by
  induction n generalizing v s with
  | zero => rfl
  | succ n ih => exact bind_seen (readBit_seen tag s) fun (_, t) => ih _ t

theorem getBits_seen (n : Nat) (tag : Field) (s : State) :
    getBits n tag s.seen = Prod.map id State.seen <$> getBits n tag s := getBitsFrom_seen tag n 0 s

/-! ### The units of `ENCODE` (R173) -/

theorem histAcc_seen (y : Byte) (s : State) : histAcc y s.seen = State.seen <$> histAcc y s :=
  ite_seen (fun _ => rfl) fun _ => rfl

theorem countPass_seen (s : State) : countPass s.seen = State.seen <$> countPass s :=
  overSource_seen (fun _ _ _ => histAcc_src) histAcc_seen (histClear s)

/-- The tree is that of the histogram (R128), and nothing else is written. -/
theorem treeBuild_seen (s : State) : treeBuild s.seen = State.seen <$> treeBuild s := by
  rw [treeBuild_withTree s.seen s rfl]
  match hbuild : treeBuild s with
  | .error e => rfl
  | .ok t => exact congrArg (fun u => Except.ok u.seen) (treeBuild_ok hbuild).frame.symm

theorem codeWalk_seen (s : State) : codeWalk s.seen = State.seen <$> codeWalk s :=
  ite_seen (fun _ => rfl) fun _ => bind_seen (v := id) (id_map _).symm fun _ => rfl

theorem putEntry_seen (y : Byte) (e : CodeEntry) (s : State) :
    putEntry y e s.seen = State.seen <$> putEntry y e s :=
  bind_seen (putBits_seen _ _ s) fun a => bind_seen (putBits_seen _ _ a) fun b => putBits_seen _ _ b

theorem putEntries_seen (ct : CodeTable) (l : List Byte) (s : State) :
    putEntries ct l s.seen = State.seen <$> putEntries ct l s := by
  induction l generalizing s with
  | nil => rfl
  | cons y l ih =>
    rw [putEntries, putEntries]
    cases tableGet ct y with
    | none => exact ih s
    | some e => exact bind_seen (putEntry_seen y e s) ih

theorem hdrWrite_seen (s : State) : hdrWrite s.seen = State.seen <$> hdrWrite s := by
  refine ite_seen (fun _ => rfl) fun _ => ite_seen (fun _ => rfl) fun _ => ?_
  exact bind_seen (putBits_seen _ _ s) fun a => bind_seen (putBits_seen _ _ a) fun b =>
    bind_seen (putEntries_seen _ _ b) fun c => putBits_seen _ _ c

theorem encSym_seen (y : Byte) (s : State) : encSym y s.seen = State.seen <$> encSym y s := by
  cases h : tableGet s.ct y with
  | none => rw [encSym_absent h, encSym_absent (s := s.seen) h]; rfl
  | some e => rw [encSym_of_entry h, encSym_of_entry (s := s.seen) h, putBits_seen]

theorem encodeUnits_seen (s : State) : encodeUnits s.seen = State.seen <$> encodeUnits s :=
  bind_seen (countPass_seen s) fun a => bind_seen (treeBuild_seen a) fun b => bind_seen (codeWalk_seen b) fun c =>
    bind_seen (hdrWrite_seen c) fun d => bind_seen (overSource_seen (fun _ _ _ => encSym_src) encSym_seen d) fun e =>
      bind_seen (flush_seen e) fun _ => rfl

/-! ### The units of `DECODE` (R183) -/

theorem getEntry_seen (s : State) : getEntry s.seen = State.seen <$> getEntry s :=
  bind_seen (getBits_seen 8 .entrySym s) fun (_, a) => bind_seen (getBits_seen 6 .entryLen a) fun (len, b) =>
    ite_seen (fun _ => rfl) fun _ => bind_seen (getBits_seen len .entryCode b) fun _ => rfl

theorem getEntries_seen (n : Nat) (s : State) : getEntries n s.seen = State.seen <$> getEntries n s := by
  induction n generalizing s with
  | zero => rfl
  | succ n ih => exact bind_seen (getEntry_seen s) ih

theorem hdrParse_seen (s : State) : hdrParse s.seen = State.seen <$> hdrParse s :=
  bind_seen (getBits_seen 56 .magic s) fun (_, a) => ite_seen (fun _ => rfl) fun _ =>
    bind_seen (getBits_seen 8 .count a) fun (c, b) => bind_seen (getEntries_seen (c + 1) { b with dt := [] }) fun d =>
      bind_seen (getBits_seen 32 .size d) fun _ => ite_seen (fun _ => rfl) fun _ => rfl

theorem emitSymbol_seen (y : Byte) (s : State) : emitSymbol y s.seen = State.seen <$> emitSymbol y s :=
  bind_seen (snkPush_seen y s) fun _ => rfl

theorem matchBits_seen (fuel acc l : Nat) (s : State) :
    matchBits fuel acc l s.seen = State.seen <$> matchBits fuel acc l s := by
  induction fuel generalizing acc l s with
  | zero => rfl
  | succ fuel ih =>
    refine bind_seen (readBit_seen .body s) fun (b, t) => ?_
    simp only [Prod.map_apply, id, seen_dt]
    cases findEntry t.dt (2 * acc + b.toNat) (l + 1) with
    | none => exact ih _ _ t
    | some e => exact emitSymbol_seen e.sym t

theorem decSym_seen (s : State) : decSym s.seen = State.seen <$> decSym s :=
  ite_seen (fun _ => rfl) fun _ => matchBits_seen 64 0 0 s

theorem decSyms_seen (n : Nat) (s : State) : decSyms n s.seen = State.seen <$> decSyms n s := by
  induction n generalizing s with
  | zero => rfl
  | succ n ih => exact bind_seen (decSym_seen s) ih

/-! ### The jobs (R174, R231) -/

theorem encodeJob_seen (s : State) : encodeJob s.seen = State.seen <$> encodeJob s :=
  ite_seen (fun _ => rfl) fun _ => ite_seen (fun _ => rfl) fun _ => encodeUnits_seen s.init

theorem decodeJob_seen (s : State) : decodeJob s.seen = State.seen <$> decodeJob s :=
  bind_seen (hdrParse_seen s.init) fun a => bind_seen (decSyms_seen _ a) fun _ => rfl

/-- A job starts with `Init()`, so running `Init()` before it changes nothing (R192). -/
theorem job_init {i : Instr} (hi : i = .encodeJob ∨ i = .decodeJob) (s : State) : ruleOf i s.init = ruleOf i s := by
  rcases hi with rfl | rfl <;> rfl

theorem job_seen {i : Instr} (hi : i = .encodeJob ∨ i = .decodeJob) (s : State) :
    ruleOf i s.seen = State.seen <$> ruleOf i s := by
  rcases hi with rfl | rfl
  · exact encodeJob_seen s
  · exact decodeJob_seen s

theorem leaveFault_seen (s : State) : s.leaveFault.seen =
    { State.reset with src := s.seen.src, srcLen := s.srcLen, cfg := s.seen.cfg } := rfl

section
variable {s u : State} (hlen : s.srcLen = u.srcLen) (hsource : s.source = u.source) (hcap : s.cfg.snkCap = u.cfg.snkCap)
include hlen hsource

theorem seen_src_eq : s.seen.src = u.seen.src := by
  rw [State.source, State.source, hlen] at hsource
  rw [State.seen, State.seen, hlen]
  exact List.map_congr_left fun i hi => congrArg (i, ·) (List.map_inj_left.1 hsource i hi)

include hcap

/-- From two unfaulted states that agree in the source and the sink's capacity a job's rule ends alike, as far as a
command can see (R174, R231). -/
theorem job_ends_alike {i : Instr} (hi : i = .encodeJob ∨ i = .decodeJob) (hs : s.err = false) (hu : u.err = false)
    (hos : StatusOk s) (hou : StatusOk u) :
    State.seen <$> ruleOf i s.clearDone = State.seen <$> ruleOf i u.clearDone := by
  have hcfg : s.seen.cfg = u.seen.cfg := congrArg (Config.mk 0) hcap
  have hstart : s.leaveFault.seen = u.leaveFault.seen := by
    rw [leaveFault_seen, leaveFault_seen, seen_src_eq hlen hsource, hlen, hcfg]
  rw [← job_init hi s.clearDone, ← job_init hi u.clearDone, init_clearDone hos hs, init_clearDone hou hu,
    ← job_seen hi, ← job_seen hi, hstart]

end

/-- How a command other than a control command ends from an unfaulted state: where its rule does, or in its fault. -/
theorem exec_ends {i : Instr} {s t : State} (hn : i ≠ .ctlNop) (hr : i ≠ .ctlReset) (he : s.err = false)
    (h : exec i s = .next t) :
    ruleOf i s.clearDone = .ok t ∨ ∃ k, ruleOf i s.clearDone = raise k ∧ t = s.enterFault k (encode i) := by
  rw [exec_eq_dispatch hn hr] at h
  exact ((dispatch_cases h).resolve_left (by simp [he])).imp And.right And.right

/-- Settles O57: a job starts with `Init()`, and no rule sees more of the state than the source, the sink's capacity and
the engine's own elements. -/
theorem jobsDependOnSourceAlone : Obligations.JobsDependOnSourceAlone := by
  intro i s u t v hi hs hu hos hou hlen hsource hcap ht hv
  obtain ⟨hn, hr⟩ := ne_control_of_job hi
  have halike := job_ends_alike hlen hsource hcap hi hs hu hos hou
  rcases exec_ends hn hr hs ht with hok | ⟨k, hraise, rfl⟩ <;>
    rcases exec_ends hn hr hu hv with hok' | ⟨k', hraise', rfl⟩
  · rw [hok, hok'] at halike
    have hseen : t.seen = v.seen := Except.ok.inj halike
    obtain ⟨hengine, -, -, hsnk, hsync, hstatus, hfcmd, -⟩ := State.mk.inj hseen
    exact ⟨hstatus, hfcmd, hsnk, hsync, fun _ => hengine⟩
  · rw [hok, hraise'] at halike
    cases halike
  · rw [hraise, hok'] at halike
    cases halike
  · rw [hraise, hraise'] at halike
    cases halike
    exact ⟨rfl, rfl, rfl, rfl, fun hf => absurd hf (by simp)⟩

end Sys2Proof.Machine
end

section
/-! PROOFS. `DEC.SYM` (46_decoder.md R180, R181): the entry its search comes to, and how the search ends where no code
stands next. -/

namespace Sys2Proof.Machine

open Sys2Proof

/-! ### `DEC.SYM` (R180, R181) -/

section
variable {s : State}

theorem decSym_underflow (hrem : s.decRem = 0) : decSym s = raise .decUnderflow := if_pos hrem

/-- `DecSym()` raises SINK_FULL where the code of an entry stands next and the sink does not take its symbol. -/
theorem decSym_full (hrem : s.decRem ≠ 0) (hentries : ∀ e ∈ s.dt, EntryOk e)
    (hcode : PrefixCode (s.dt.map DecEntry.bits)) {e : DecEntry} (he : e ∈ s.dt) {rest : List Bool}
    (hun : s.unread = e.bits ++ rest) (hfull : ¬ s.sinkTakes 1) : decSym s = raise .sinkFull := by
  obtain ⟨u, hemit, hread, -⟩ := decSym_hit hrem hentries hcode he hun
  rw [hemit, emitSymbol_full e.sym (mt (hread.takes 1).1 hfull)]

/-- `DecSym()` where no entry's code stands next: NO_MATCH after 64 bits, or BODY where the source ends before. -/
theorem decSym_miss (hrem : s.decRem ≠ 0) (hentries : ∀ e ∈ s.dt, EntryOk e)
    (hnone : ∀ e ∈ s.dt, ¬ e.bits <+: s.unread) :
    decSym s = if 64 ≤ s.unread.length then raise .noMatch else raise (.truncated .body) := by
  have hmiss := matchBits_miss (pre := []) (fuel := 64) hentries fun e he more _ hbits => by
    rw [List.nil_append] at hbits
    exact hbits ▸ hnone e he
  rw [decSym, if_neg hrem]
  exact hmiss

end

/-- The whole state after one decoded symbol. -/
theorem Decoded.frame_one {e : DecEntry} {s t : State} (d : Decoded [e] s t) :
    t = { s with srcPos := t.srcPos, brByte := t.brByte, brCnt := t.brCnt, snk := s.snk ++ [e.sym],
                 res := e.sym.setWidth 64, decRem := s.decRem - 1 } := by
  have hdec : t.decRem.toNat + 1 = s.decRem.toNat := d.decRem
  have hrem : t.decRem = s.decRem - 1 := by bv_omega
  have hframe := d.frame
  rw [d.snk, d.res, hrem] at hframe
  exact hframe

/-- Settles O49: in a prefix code the search comes to the one entry whose code stands next; where none does it reads on
to the 64th bit, or to the end of the source. -/
theorem decSymDecodes : Obligations.DecSymDecodes := by
  intro s he hdt
  obtain ⟨hentries, hcode⟩ := hdt he
  refine ⟨fun hrem => ?_, fun hrem e hmem rest hun => ⟨fun hroom => ?_, fun hfull => ?_⟩,
    fun hrem hnone => ?_⟩
  · exact faultsWith_of_rule_raise (decSym_underflow (s := s.clearDone) hrem) he
  · obtain ⟨t, ht, d, hrest⟩ := decSym_succeeds (s := s.clearDone) hrem hentries hcode hmem hun hroom
    exact ⟨t, exec_of_rule_ok (i := .decSym) ht he, d.frame_one, hrest⟩
  · exact faultsWith_of_rule_raise (decSym_full (s := s.clearDone) hrem hentries hcode hmem hun hfull) he
  · have hmiss := decSym_miss (s := s.clearDone) hrem hentries hnone
    exact ⟨fun hlong => faultsWith_of_rule_raise (hmiss.trans (if_pos hlong)) he,
      fun hshort => faultsWith_of_rule_raise (hmiss.trans (if_neg (Nat.not_le.2 hshort))) he⟩

end Sys2Proof.Machine
end

section
/-! PROOFS. The control commands (47_control.md R190 to R193) and the engine's faults (60_exceptions.md R200 to R218):
what a faulted engine ignores, which fault an unfaulted one can enter and what that leaves, when `DONE` is set, and that
every command ends in a next state. -/

namespace Sys2Proof.Machine

open Sys2Proof

/-! ### While faulted (R206) -/

/-- A faulted engine ignores every command but `CTL.RESET` (R206). -/
theorem exec_faulted {i : Instr} {s : State} (hr : i ≠ .ctlReset) (he : s.err = true) : exec i s = .next s := by
  by_cases hn : i = .ctlNop
  · rw [hn, exec_ctlNop]
  · rw [exec_eq_dispatch hn hr, dispatch_faulted he]

/-- Settles O11: a faulted engine ignores every command but `CTL.RESET`, whose one word is excluded, and every word that
spells none. -/
theorem faultedIgnores : Obligations.FaultedIgnores := by
  intro w s he hw
  match hdec : decode w with
  | .ok i =>
    have hr : i ≠ .ctlReset := by
      rintro rfl
      exact hw (encode_of_decode hdec).symm
    rw [issueWord_of_decode hdec, exec_faulted hr he]
  | .error e =>
    have hnone : ∀ i, decode w ≠ .ok i := fun i h => by rw [hdec] at h; cases h
    rw [issueWord_of_no_command hnone, if_pos he]

/-- Settles O14: the host's own moves leave `STATUS` alone, and a word ignored leaves the whole state. -/
theorem onlyResetLeavesFault : Obligations.OnlyResetLeavesFault := by
  intro s t h he ht
  have hheld : t.status ≠ s.status := fun e => by rw [State.err, e, ← State.err, he] at ht; cases ht
  rcases step_cases h with ⟨-, rfl⟩ | ⟨w, rest, hhost, h⟩ | ⟨_, _, _, -, -, rfl⟩ | ⟨_, _, -, -, rfl⟩
  · exact absurd rfl hheld
  · by_cases hw : w = 0x0100000000000000#64
    · exact ⟨rest, hw ▸ hhost⟩
    · rw [faultedIgnores w { s with host := rest } he hw] at h
      cases h
      exact absurd rfl hheld
  · exact absurd rfl hheld
  · exact absurd rfl hheld

/-! ### Fault entry (R203, R204) -/

section
variable {s t : State}

/-- A command that makes an unfaulted engine faulted entered a fault of its own in the table of R204. -/
theorem exec_enters_fault {i : Instr} (he : s.err = false) (h : exec i s = .next t) (ht : t.err = true) :
    ∃ k ∈ mayRaise i, t = s.enterFault k (encode i) := by
  rcases exec_cases h with ⟨-, rfl⟩ | ⟨-, rfl⟩ | ⟨-, he', -⟩ | ⟨hn, hr, -, hok⟩ | ⟨-, -, -, k, hraise, rfl⟩
  · rw [he] at ht; cases ht
  · rw [State.leaveFault_err] at ht; cases ht
  · rw [he] at he'; cases he'
  · rw [rule_err hn hr hok, State.clearDone_err, he] at ht; cases ht
  · exact ⟨k, rule_traps hraise, rfl⟩

/-- A word that makes an unfaulted engine faulted entered a fault: its command's, or IllegalCommand (R65, R203). -/
theorem issueWord_enters_fault {w : Word} (he : s.err = false) (h : issueWord w s = .next t) (ht : t.err = true) :
    ∃ k, t = s.enterFault k w := by
  rcases issueWord_cases h with ⟨i, hdec, hexec⟩ | ⟨-, ⟨he', -⟩ | ⟨-, rfl⟩⟩
  · obtain ⟨k, -, rfl⟩ := exec_enters_fault he hexec ht
    exact ⟨k, by rw [encode_of_decode hdec]⟩
  · rw [he] at he'; cases he'
  · exact ⟨.illegalCommand, rfl⟩

end

/-- Settles O10: the fault a command enters is one that its rule raised. -/
theorem faultsOfEachCommand : Obligations.FaultsOfEachCommand := by
  intro i s t he h ht
  obtain ⟨k, hk, rfl⟩ := exec_enters_fault he h ht
  exact ⟨k, hk, faultedWith_enterFault k (encode i) s⟩

/-- Settles O9: only fault entry sets `ERR`, and it writes the whole of `STATUS`. -/
theorem faultEntry : Obligations.FaultEntry := by
  intro w s t he h ht
  obtain ⟨k, rfl⟩ := issueWord_enters_fault he h ht
  obtain ⟨hcause, hsub⟩ := k.status_fields
  exact ⟨k, faultedWith_enterFault k w s, State.enterFault_done k w s, hcause, hsub⟩

/-! ### `DONE` and the output (R190, R218) -/

/-- A rule run with `DONE` cleared ends with `DONE` 0, or is that of a job and ends with `DONE` 1 and all of the sink
forced to persist (R173, R183, R193). -/
theorem rule_done {i : Instr} {s t : State} (hn : i ≠ .ctlNop) (hr : i ≠ .ctlReset)
    (h : ruleOf i s.clearDone = .ok t) :
    t.done = false ∨ ((i = .encodeJob ∨ i = .decodeJob) ∧ t.done = true ∧ t.snkSync = t.snkLen) := by
  rcases (rule_kept hn hr h).status with ⟨-, -, hstatus⟩ | ⟨hjob, hstatus, hsync⟩
  · exact .inl (by rw [State.done, hstatus, ← State.done, State.clearDone_done])
  · exact .inr ⟨hjob, by simp [State.done, hstatus], hsync⟩

/-- Settles O13: dispatch clears `DONE` for every command but `CTL.NOP`, and of the rules only a job's sets it. -/
theorem nopHolds : Obligations.NopHolds := by
  refine ⟨by decide, fun s => exec_ctlNop, fun i s t hn he h hdone => ?_⟩
  rcases exec_cases h with ⟨hnop, -⟩ | ⟨-, rfl⟩ | ⟨-, he', -⟩ | ⟨-, hr, -, hok⟩ | ⟨-, -, -, k, -, rfl⟩
  · exact absurd hnop hn
  · rw [State.leaveFault_done] at hdone; cases hdone
  · rw [he] at he'; cases he'
  · rcases rule_done hn hr hok with hclear | ⟨hjob, -⟩
    · rw [hclear] at hdone; cases hdone
    · exact hjob
  · rw [State.enterFault_done] at hdone; cases hdone

/-- Settles O16: fault entry empties the sink, and a job sets `DONE` only once it has forced the sink to persist. -/
theorem outputGuarantee : Obligations.OutputGuarantee := by
  intro s t hs h
  cases stepped_of_step h with
  | held | wroteSrc | setSrcLen => exact hs
  | reset => exact .inr (.inr ⟨State.leaveFault_err _, State.leaveFault_done _⟩)
  | faulted k w => exact .inl ⟨State.enterFault_err k w _, State.enterFault_done k w _, rfl, rfl⟩
  | ran he hn hr _ hok =>
    have ht : t.err = false := by rw [rule_err hn hr hok, State.clearDone_err]; exact he
    rcases rule_done hn hr hok with hdone | ⟨-, hdone, hsync⟩
    · exact .inr (.inr ⟨ht, hdone⟩)
    · exact .inr (.inl ⟨ht, hdone, hsync⟩)

/-- Settles O8: with no move of the host the step is idle. -/
theorem idleHolds : Obligations.IdleHolds := fun s h => by rw [step, nextMove, h]

/-! ### Every command ends (R200, R237) -/

/-- The walk of a tree of the shape ends (R20, R140). -/
theorem codeWalk_not_stuck {s : State} {leaves inner : List Node} {f : Fault}
    (sh : TreeShape s.node leaves inner s.pq s.root s.rootValid) : codeWalk s ≠ .error (.stuck f) := by
  intro h
  rcases codeWalk_error sh h with ⟨htrap, -⟩ | ⟨htrap, -⟩ <;> cases htrap

/-- Settles O58: only the walk of the code table can be stuck, and that of a tree of the shape is not. -/
theorem everyCommandEnds : Obligations.EveryCommandEnds := by
  intro i s htree
  by_cases hi : i = .codeWalk
  · rw [hi, exec_codeWalk]
    match h : dispatch .codeWalk codeWalk s with
    | .next t => exact ⟨t, rfl⟩
    | .refused r => exact absurd h (dispatch_ne_refused r)
    | .fault f =>
      obtain ⟨he, hstuck⟩ := dispatch_fault h
      obtain ⟨leaves, inner, sh⟩ := htree he
      exact absurd hstuck (codeWalk_not_stuck (s := s.clearDone) sh)
  · exact exec_has_next hi s

end Sys2Proof.Machine
end
